-- ==== Sys2Proof/Word.lean ====
section
/-! DEFINITION. The words and bytes of YRCORE and the group of four words that its seeds, its
Word Generator state and its jump polynomial are made of (spec 00_scope.md R8, R9; 10_state.md R34). -/

namespace Sys2Proof

/-- A `u64` (R8). -/
abbrev Word := BitVec 64

/-- A `u8` (R8). -/
abbrev Byte := BitVec 8

/-- Four words in order: the state `S[0..3]` (R34), four seed words (R126), `JUMP_POLY[0..3]` (R130). -/
structure Quad where
  w0 : Word
  w1 : Word
  w2 : Word
  w3 : Word
deriving DecidableEq, Repr

/-- Four zero words: the degenerate fixed point of R35. -/
def Quad.zero : Quad := ⟨0, 0, 0, 0⟩

/-- Word by word exclusive or (the accumulation of R129). -/
def Quad.xor (a b : Quad) : Quad := ⟨a.w0 ^^^ b.w0, a.w1 ^^^ b.w1, a.w2 ^^^ b.w2, a.w3 ^^^ b.w3⟩

end Sys2Proof
end

