-- ==== Sys2Proof/Config.lean ====
section
/-! DEFINITION. What one YRCORE fixes for good: the OPEN parameters of spec 00_scope.md R6 as the
fields of `Config`, and the free values of the model, opaque constants nothing can evaluate.
The spec's default values stand in Machine/Defaults.lean. -/

namespace Sys2Proof

/-- An alphabet of the Text Encoder (R211): `BITS[a]` and `CHARS[a]`, index 0 first. -/
structure Alphabet where
  bits  : Nat
  chars : List Byte
deriving DecidableEq, Repr

/-- The parameters R6 marks OPEN, arguments of every step (R21), and `JUMP_POLY`, which R130 computes from
`WG_STEP`: `Config.StepFits` ties the two. -/
structure Config where
  /-- `WG_STEP` (R121, R122): the delivered word and the successor of the four state words. -/
  wgStep    : Quad → Word × Quad
  /-- `SEED_MIX` (R127). -/
  seedMix   : Quad → Quad
  /-- `JUMP_POLY` (R130): bit `b` of word `i` is the coefficient of `x^(64 i + b)`. -/
  jumpPoly  : Quad
  /-- `KEY_LEN`, in bytes. -/
  keyLen    : Nat
  /-- `NONCE_LEN`, in bytes. -/
  nonceLen  : Nat
  /-- `BLOCK_LEN`, in bytes. -/
  blockLen  : Nat
  /-- `BLOCK_FN` (R67): byte `i` of the block of a key, a nonce and a counter value. -/
  blockFn   : List Byte → List Byte → Word → Nat → Byte
  /-- `ALPHA[]`, the alphabet table (R212); `NALPHA` is its length. -/
  alphabets : List Alphabet

/-- FREE VALUE (log entry 4): the block primitive, for which the spec gives no default (R6, R67).
It is a function of key, nonce, counter and byte index and of nothing else, and nothing more is known of it. -/
opaque Config.freeBlockByte : List Byte → List Byte → Word → Nat → Byte

/-- FREE VALUE (log entry 5): whether the entropy port answers `Fail` to the request numbered `k`,
where the port's answer is not among the inputs of the run (R66). -/
opaque Config.freeEntropyFails : Nat → Bool

/-- FREE VALUE (log entry 5): byte `j` of the entropy port's answer to the request numbered `k`,
where that byte is not among the inputs of the run (R66). -/
opaque Config.freeEntropyByte : Nat → Nat → Byte

end Sys2Proof
end

