-- ==== Sys2Proof/Machine/Defaults.lean ====
section
/-! DEFINITION. The spec's default values of the OPEN parameters (spec 00_scope.md R6), the
quantities derived from a configuration, and `config`, the default configuration: every default the
spec gives, with the block primitive left free (log entries 3, 4). `execWith`, `stepWith`, `decodeWith` and
`State.resetWith` take any configuration; `exec`, `step`, `decode` and `State.reset` are theirs at `config`. -/

namespace Sys2Proof.Machine

/-- `WG_STEP` of R122. The word delivered is computed from the state before the update. -/
def defaultWgStep (q : Quad) : Word × Quad :=
  ((q.w0 + q.w3).rotateLeft 23 + q.w0,
   { w0 := q.w0 ^^^ q.w3 ^^^ q.w1
     w1 := q.w1 ^^^ q.w2 ^^^ q.w0
     w2 := q.w2 ^^^ q.w0 ^^^ (q.w1 <<< 17)
     w3 := (q.w3 ^^^ q.w1).rotateLeft 45 })

/-- `GOLDEN` of R127. -/
def golden : Word := 0x9E3779B97F4A7C15#64

/-- `FIN` of R127. -/
def mixFin (z0 : Word) : Word :=
  let z1 := (z0 ^^^ (z0 >>> 30)) * 0xBF58476D1CE4E5B9#64
  let z2 := (z1 ^^^ (z1 >>> 27)) * 0x94D049BB133111EB#64
  z2 ^^^ (z2 >>> 31)

/-- `SEED_MIX` of R127. -/
def defaultSeedMix (k : Quad) : Quad :=
  { w0 := mixFin (k.w0 + 1 * golden)
    w1 := mixFin (k.w1 + 2 * golden)
    w2 := mixFin (k.w2 + 3 * golden)
    w3 := mixFin (k.w3 + 4 * golden) }

/-- `JUMP_POLY` of R130, for the default `WG_STEP`. -/
def defaultJumpPoly : Quad :=
  ⟨0x180EC6D33CFD0ABA#64, 0xD5A61266F0C9392C#64, 0xA9582618E03FC9AA#64, 0x39ABDC4529B1661C#64⟩

/-- `n` consecutive character codes from `first` on: the runs of letters and digits that the
alphabets of R212 are written in (ASCII). -/
def charRun (first n : Nat) : List Byte := (List.range n).map fun i => BitVec.ofNat 8 (first + i)

/-- The characters `0` to `9`. -/
def digitChars : List Byte := charRun 0x30 10

/-- Alphabet 0, `HEXU` (R212). -/
def alphabetHexU : Alphabet := ⟨4, digitChars ++ charRun 0x41 6⟩

/-- Alphabet 1, `HEXL` (R212). -/
def alphabetHexL : Alphabet := ⟨4, digitChars ++ charRun 0x61 6⟩

/-- Alphabet 2, `B32` (R212): `A` to `Z`, then `2` to `7`. -/
def alphabetB32 : Alphabet := ⟨5, charRun 0x41 26 ++ charRun 0x32 6⟩

/-- Alphabet 3, `B64URL` (R212): `A` to `Z`, `a` to `z`, `0` to `9`, then `-` and `_`. -/
def alphabetB64Url : Alphabet :=
  ⟨6, charRun 0x41 26 ++ charRun 0x61 26 ++ digitChars ++ [0x2D#8, 0x5F#8]⟩

/-- The default alphabet table of R212. -/
def defaultAlphabets : List Alphabet := [alphabetHexU, alphabetHexL, alphabetB32, alphabetB64Url]

/-- The state map of the Word Generator (R123): the successor `WG_STEP` gives the four state words. -/
def wgSucc (c : Config) (q : Quad) : Quad := (c.wgStep q).2

/-- `NALPHA` (R6). -/
def nalpha (c : Config) : Nat := c.alphabets.length

/-- `NKN = ceil((KEY_LEN + NONCE_LEN) / 8)` (R6): the data registers that hold key and nonce. -/
def nkn (c : Config) : Nat := (c.keyLen + c.nonceLen + 7) / 8

/-- `NDATA = max(4, NKN + 1)` (R6, R22): the number of data registers. -/
def ndata (c : Config) : Nat := max 4 (nkn c + 1)

/-- `JUMP_DIST` (R6, R129): how many words a jump advances by. -/
def jumpDist : Nat := 2 ^ 128

/-- `SECURITY_BITS` (R6). -/
def securityBits : Nat := 128

/-- `MIN_LEN[a] = ceil(SECURITY_BITS / BITS[a])` (R213). -/
def minLen (a : Alphabet) : Nat := (securityBits + a.bits - 1) / a.bits

/-- `CTR_MAX = 2^64 - 1` (R6). -/
def ctrMax : Word := 0xFFFFFFFFFFFFFFFF#64

/-- The default configuration (log entry 3): R6's defaults, and a block primitive of which nothing is known
(log entry 4). -/
def config : Config where
  wgStep    := defaultWgStep
  seedMix   := defaultSeedMix
  jumpPoly  := defaultJumpPoly
  keyLen    := 32
  nonceLen  := 8
  blockLen  := 64
  blockFn   := Config.freeBlockByte
  alphabets := defaultAlphabets

end Sys2Proof.Machine
end

