-- ==== Sys2Proof/Syntax.lean ====
section
/-! DEFINITION. The commands of YRCORE: one constructor per row of spec/opcode_table.json
(spec 30_encoding.md R90 to R95). A command carries no immediate (R93): its only operands in the
word are the source bit of the sampler commands and the alphabet of `TX.TEXT`. -/

namespace Sys2Proof

/-- The word source a sampler command draws from, `SRC` (R94). -/
inductive Src where
  | wg  -- 0: the Word Generator, the fast path
  | ks  -- 1: the Keystream Generator, the secure path
deriving DecidableEq, Repr

/-- The 18 commands of R92. -/
inductive Instr where
  | nop
  | clrerr
  | wgSeede
  | wgSeed
  | wgNext
  | wgJump
  | wgDrop
  | ksSeede
  | ksSeed
  | ksNext
  | ksFill
  | ksDrop
  | uBound (src : Src)
  | uRange (src : Src)
  | uF64 (src : Src)
  | uBool (src : Src)
  | uDigit (src : Src)
  | txText (alpha : BitVec 4)
deriving DecidableEq, Repr

end Sys2Proof
end

