-- ==== Sys2Proof/Machine/State.lean ====
section
/-! DEFINITION. The state of one YRCORE instance (spec 10_state.md R20 to R47), the inputs of a run
(spec 20_memory.md R61, R66; 70_reset_and_hazards.md R281, R292), the reasons a step can stop, and the
state after reset. YRCORE has no program counter and no memory (R25, R46). -/

namespace Sys2Proof.Machine

/-- The completion codes of R241, the content of `STATUS.ERR`. -/
inductive Completion where
  | ok
  | entropyUnavailable
  | invalidBound
  | invalidRange
  | lengthTooShort
  | counterExhausted
  | illegalCommand
  | notSeeded
deriving DecidableEq, Repr

/-- One thing the outside does to the block: a host access (R61) or the assertion of the reset input (R281). -/
inductive HostAccess where
  | read (idx : BitVec 8)
  | write (idx : BitVec 8) (value : Word)
  | reset
deriving DecidableEq, Repr

/-- One answer of the entropy port (R66). Of `ok bytes` a request for `n` bytes takes the first `n`;
a byte that is not listed is a free value (log entry 5). -/
inductive EntropyAnswer where
  | fail
  | ok (bytes : List Byte)
deriving DecidableEq, Repr

/-- One request YRCORE sends out on a port: for `n` entropy bytes (R66), or for a block (R67). -/
inductive PortRequest where
  | entropy (n : Nat)
  | block (key nonce : List Byte) (ctr : Word)
deriving DecidableEq, Repr

/-- Why a step stops. -/
inductive Fault where
  /-- Raised by `U.BOUND`, `U.RANGE` and `U.DIGIT` when the word source never delivers an acceptable word:
  the rejection loop of R183 does not end, and the block hangs (R289; 93_implementation_defined.md U22, `stuck`).
  Safe: the hardware does not complete the command either (log entry 7). -/
  | rejectionLoopNeverEnds
deriving DecidableEq, Repr

/-- Why a command has no meaning. -/
inductive Refusal where
  /-- Raised by an arm of `exec` whose command has no meaning yet; no arm does. Safe. -/
  | notModelled (mnemonic : String)
deriving DecidableEq, Repr

/-- The state of one YRCORE instance, and after it what is the model's own: the inputs still to come and
the record of what went out (log entries 1, 5, 6). -/
@[ext]
structure State where
  /-- `CMD`, the value last written to it (R26). -/
  cmd : Word
  /-- `STATUS.WG_VALID` (R27). -/
  wgValid : Bool
  /-- `STATUS.WG_DET` (R27, R28). -/
  wgDet : Bool
  /-- `STATUS.KS_VALID` (R27). -/
  ksValid : Bool
  /-- `STATUS.KS_DET` (R27, R28). -/
  ksDet : Bool
  /-- `STATUS.ERR`, the completion code of the most recent command (R27). -/
  err : Completion
  /-- `STATUS.SERR`, bits 23:17 of `STATUS`; bit 16 always reads 0 and is not stored (R27). -/
  serr : BitVec 7
  /-- `RES` (R24). -/
  res : Word
  /-- `OUTCNT` (R29). -/
  outcnt : Word
  /-- `D[0]` to `D[NDATA-1]` (R22). -/
  d : List Word
  /-- `S[0..3]`, the Word Generator state (R34). -/
  wg : Quad
  /-- `KEY` (R37). -/
  key : List Byte
  /-- `NONCE` (R38). -/
  nonce : List Byte
  /-- `CTR`, the counter value of the next refill; reads as `KSCTR` (R30, R39). -/
  ctr : Word
  /-- `CUR`, the cursor, stored in 16 bits; reads as `KSCUR` (R30, R40). -/
  cur : BitVec 16
  /-- `BUF` (R42). -/
  buf : List Byte
  /-- `ACC`, the Text Encoder's bit accumulator, at most 15 bits (R44). -/
  acc : BitVec 15
  /-- `NB`, the number of valid bits in `ACC`, 0 to 15 (R44). -/
  nb : Nat
  /-- The OUT stream: every byte written since reset, oldest first (R68). -/
  out : List Byte
  /-- MODEL'S OWN: what the outside will do next, oldest first (log entry 1). -/
  inputs : List HostAccess
  /-- MODEL'S OWN: the values host reads have returned, oldest first (log entry 1). -/
  readData : List Word
  /-- MODEL'S OWN: the answers the entropy port will give to the requests to come (log entry 5). -/
  entropy : List EntropyAnswer
  /-- MODEL'S OWN: every request sent on the two ports, oldest first; its length numbers the next
  request and so makes the free values of each request fresh (log entries 5, 6). -/
  requests : List PortRequest
deriving DecidableEq, Repr

/-- The state after reset of a YRCORE with configuration `c`: the table of R47. The four last fields are
the model's own, empty: nothing has been read or requested, and no input is given. -/
def State.resetWith (c : Config) : State where
  cmd      := 0
  wgValid  := false
  wgDet    := false
  ksValid  := false
  ksDet    := false
  err      := .ok
  serr     := 0
  res      := 0
  outcnt   := 0
  d        := List.replicate (ndata c) 0
  wg       := Quad.zero
  key      := List.replicate c.keyLen 0
  nonce    := List.replicate c.nonceLen 0
  ctr      := 0
  cur      := BitVec.ofNat 16 c.blockLen
  buf      := List.replicate c.blockLen 0
  acc      := 0
  nb       := 0
  out      := []
  inputs   := []
  readData := []
  entropy  := []
  requests := []

/-- The machine right after reset (R47, R280), at the default configuration. -/
def State.reset : State := State.resetWith config

end Sys2Proof.Machine
end

