-- ==== Sys2Proof/Machine/Operands.lean ====
section
/-! DEFINITION. The operand forms of the commands and the byte, bit and product forms they are read and
delivered in (spec 00_scope.md R10, R12; 10_state.md R23; 20_memory.md R70; 42_uniform_sampler.md R182, R189;
43_text_encoder.md R212). -/

namespace Sys2Proof.Machine

/-- The value of a byte sequence, byte 0 least significant. -/
def leNat : List Byte → Nat
  | [] => 0
  | b :: bs => b.toNat + 256 * leNat bs

/-- `LE64` (R12): the word of a sequence of eight bytes, byte 0 least significant. -/
def le64 (bs : List Byte) : Word := BitVec.ofNat 64 (leNat bs)

/-- `BytesLE(v, n)` (R12): byte `j` is bits `8 (j mod 8) + 7` to `8 (j mod 8)` of word `j / 8`. -/
def bytesLE (v : List Word) (n : Nat) : List Byte :=
  (List.range n).map fun j => (v.getD (j / 8) 0).extractLsb' (8 * (j % 8)) 8

/-- `hi64(x *wide n)` (R10): the upper half of the full 128-bit product. -/
def mulHi (x n : Word) : Word := (x.setWidth 128 * n.setWidth 128).extractLsb' 64 64

/-- `lo64(x *wide n)` (R10): the lower half of the full 128-bit product. -/
def mulLo (x n : Word) : Word := (x.setWidth 128 * n.setWidth 128).extractLsb' 0 64

/-- `THRESH(n) = (0 -w n) mod n` (R182), for `n >= 1`. -/
def thresh (n : Word) : Word := (0 - n) % n

/-- `F64Bits(m)` (R189): the binary64 encoding of `m * 2^-53`, for `m < 2^53`. -/
def f64Bits (m : Word) : Word :=
  if m = 0 then 0
  else
    let k := m.toNat.log2
    let frac : BitVec 52 := (m <<< (52 - k)).setWidth 52
    (BitVec.ofNat 12 (970 + k)) ++ frac

/-- `D[i]` (R13). An index that is no data register reads 0 (R32). -/
def State.data (s : State) (i : Nat) : Word := s.d.getD i 0

/-- The four seed words of `WG.SEED`, `D[0..3]` (R23, R126). -/
def seedWords (s : State) : Quad := ⟨s.data 0, s.data 1, s.data 2, s.data 3⟩

/-- The Word Generator state made of 32 entropy bytes (R125): `T[i] = LE64(e[8i .. 8i+7])`. -/
def entropyWords (e : List Byte) : Quad :=
  ⟨le64 (e.take 8), le64 ((e.drop 8).take 8), le64 ((e.drop 16).take 8), le64 ((e.drop 24).take 8)⟩

/-- The key and nonce bytes of `KS.SEED`, key first (R23, R160). -/
def keyNonceOperand (c : Config) (s : State) : List Byte := bytesLE s.d (c.keyLen + c.nonceLen)

/-- The initial counter of `KS.SEED`, `D[NKN]` (R23, R160). -/
def counterOperand (c : Config) (s : State) : Word := s.data (nkn c)

/-- The key in a sequence of key and nonce bytes (R159, R160). -/
def keyPart (c : Config) (m : List Byte) : List Byte := m.take c.keyLen

/-- The nonce in a sequence of key and nonce bytes (R159, R160). -/
def noncePart (c : Config) (m : List Byte) : List Byte := (m.drop c.keyLen).take c.nonceLen

/-- The alphabet `ALPHA` selects (R95); `none` where `ALPHA >= NALPHA`. -/
def alphabetOf (c : Config) (alpha : BitVec 4) : Option Alphabet := c.alphabets[alpha.toNat]?

end Sys2Proof.Machine
end

