-- ==== Sys2Proof/Machine/Flags.lean ====
section
/-! DEFINITION. The fields of `STATUS` and of `PARAMS`, and the keystream machine's two states
(spec 10_state.md R27, R31, R41; 60_exceptions.md R241). -/

namespace Sys2Proof.Machine

/-- The number of a completion code (R241). -/
def Completion.code (w : Completion) : BitVec 8 :=
  match w with
  | .ok => 0
  | .entropyUnavailable => 1
  | .invalidBound => 2
  | .invalidRange => 3
  | .lengthTooShort => 4
  | .counterExhausted => 5
  | .illegalCommand => 6
  | .notSeeded => 7

/-- The bit of `SERR` a completion sets, none for `OK` (R27, R250): bit `16 + c` of `STATUS`, which is
bit `c - 1` of the seven bits stored. -/
def Completion.sticky (w : Completion) : BitVec 7 :=
  match w with
  | .ok => 0b0000000
  | .entropyUnavailable => 0b0000001
  | .invalidBound => 0b0000010
  | .invalidRange => 0b0000100
  | .lengthTooShort => 0b0001000
  | .counterExhausted => 0b0010000
  | .illegalCommand => 0b0100000
  | .notSeeded => 0b1000000

/-- Ready, by R41: `CUR < BLOCK_LEN`. Otherwise the machine is Exhausted (log entry 8). -/
def isReady (c : Config) (s : State) : Bool := decide (s.cur.toNat < c.blockLen)

/-- `STATUS.KS_READY`, not stored (R27). -/
def ksReadyBit (c : Config) (s : State) : Bool := s.ksValid && isReady c s

/-- `STATUS` as the host reads it (R27), from bit 63 down: 63:24 reserved, `SERR` with bit 16 reading 0,
`ERR`, 7:5 reserved, `KS_READY`, `KS_DET`, `KS_VALID`, `WG_DET`, `WG_VALID`. -/
def statusWord (c : Config) (s : State) : Word :=
  (0 : BitVec 40) ++ s.serr ++ (0 : BitVec 1) ++ s.err.code ++ (0 : BitVec 3) ++
    BitVec.ofBool (ksReadyBit c s) ++ BitVec.ofBool s.ksDet ++ BitVec.ofBool s.ksValid ++
    BitVec.ofBool s.wgDet ++ BitVec.ofBool s.wgValid

/-- The interface version, 1 (R2, R31). -/
def interfaceVersion : Nat := 1

/-- `PARAMS` (R31), from bit 63 down: version, `NDATA`, `NALPHA`, `NONCE_LEN`, `KEY_LEN`, `BLOCK_LEN`. -/
def paramsWord (c : Config) : Word :=
  BitVec.ofNat 8 interfaceVersion ++ BitVec.ofNat 8 (ndata c) ++ BitVec.ofNat 8 (nalpha c) ++
    BitVec.ofNat 12 c.nonceLen ++ BitVec.ofNat 12 c.keyLen ++ BitVec.ofNat 16 c.blockLen

/-- The generator a word source draws from is seeded (R181, R248). -/
def seeded (src : Src) (s : State) : Bool :=
  match src with
  | .wg => s.wgValid
  | .ks => s.ksValid

end Sys2Proof.Machine
end

