-- ==== Sys2Proof/Machine/Ops.lean ====
section
/-! DEFINITION. The named operations over YRCORE's state, each piece of state written by one of them only:
completing a command (spec 60_exceptions.md R250), the registers, the three ports and streams
(20_memory.md R66 to R69), the Word Generator's step (40_word_generator.md R121), the keystream's refill and
byte (41_keystream.md R153), and the loop that fills the OUT stream. YRCORE takes no exception in the
processor's sense (60_exceptions.md R240): a fault is a completion code, `State.complete` is the one place
it is written, and there is nothing to return from (R252). -/

namespace Sys2Proof.Machine

/-! ### Writes of the state -/

/-- What every `CMD` write ends with (R250): `ERR`, the sticky bit of a fault, and `OUTCNT`, `cnt` being the
number of bytes the command appended to OUT. With a code other than `ok` this is all a fault does. -/
def State.complete (why : Completion) (cnt : Nat) (s : State) : State :=
  { s with err := why, serr := s.serr ||| why.sticky, outcnt := BitVec.ofNat 64 cnt }

/-- `RES <- v` (R24). -/
def State.setRes (v : Word) (s : State) : State := { s with res := v }

/-- `STATUS.SERR <- 0` (R231). -/
def State.clearSticky (s : State) : State := { s with serr := 0 }

/-- `D[i] <- v` (R61). -/
def State.setData (i : Nat) (v : Word) (s : State) : State := { s with d := s.d.set i v }

/-- The `CMD` read-back value (R26). -/
def State.latchCommand (v : Word) (s : State) : State := { s with cmd := v }

/-- The inputs still to come (log entry 1). -/
def State.setInputs (rest : List HostAccess) (s : State) : State := { s with inputs := rest }

/-- The value of a host read goes to the host (log entry 1). -/
def State.deliver (v : Word) (s : State) : State := { s with readData := s.readData ++ [v] }

/-- The four words of the Word Generator are replaced (R121, R129). -/
def State.setWg (q : Quad) (s : State) : State := { s with wg := q }

/-- The Word Generator is seeded (R125, R126). -/
def State.seedWg (q : Quad) (det : Bool) (s : State) : State :=
  { s with wg := q, wgValid := true, wgDet := det }

/-- The Word Generator is unseeded and zeroed (R132). -/
def State.dropWg (s : State) : State := { s with wg := Quad.zero, wgValid := false, wgDet := false }

/-- The Keystream Generator is seeded: Exhausted, with no block generated; `BUF` keeps its bytes (R159, R160). -/
def State.seedKs (c : Config) (key nonce : List Byte) (ctr : Word) (det : Bool) (s : State) : State :=
  { s with key := key, nonce := nonce, ctr := ctr, cur := BitVec.ofNat 16 c.blockLen,
           ksValid := true, ksDet := det }

/-- The Keystream Generator is unseeded and zeroed (R161). -/
def State.dropKs (c : Config) (s : State) : State :=
  { s with key := List.replicate c.keyLen 0, nonce := List.replicate c.nonceLen 0,
           buf := List.replicate c.blockLen 0, ctr := 0, cur := BitVec.ofNat 16 c.blockLen,
           ksValid := false, ksDet := false }

/-- The writes of a refill (R153): the block goes to `BUF`, the cursor to 0, and the counter up by one,
after one BLK request with the counter's old value (R67). -/
def State.loadBlock (blk : List Byte) (s : State) : State :=
  { s with buf := blk, cur := 0, ctr := s.ctr + 1,
           requests := s.requests ++ [.block s.key s.nonce s.ctr] }

/-- `CUR <- CUR + 1` (R153). -/
def State.advanceCur (s : State) : State := { s with cur := s.cur + 1 }

/-- `ACC` and `NB` (R44, R214). -/
def State.setAcc (acc : BitVec 15) (nb : Nat) (s : State) : State := { s with acc := acc, nb := nb }

/-- `OutWrite(b)` (R68). -/
def State.outWrite (b : Byte) (s : State) : State := { s with out := s.out ++ [b] }

/-- One request for `n` entropy bytes has been sent and answered (R66). -/
def State.noteEntropy (n : Nat) (s : State) : State :=
  { s with entropy := s.entropy.tail, requests := s.requests ++ [.entropy n] }

/-- The reset input (R280, R281): every piece of YRCORE's state at its value of R47. What is outside the
block stays: the inputs to come and the record of what went out (log entry 9). -/
def State.resetInput (c : Config) (s : State) : State :=
  { State.resetWith c with
    inputs := s.inputs, readData := s.readData, entropy := s.entropy, requests := s.requests }

/-! ### Procedures that can raise a fault -/

/-- What a procedure of the pseudocode comes to (R15): it returns a value, or it raises a fault with the
assignments already made standing, or it never returns (only the rejection loop of R183 can). -/
inductive Attempt (α : Type) where
  | done (a : α) (s : State)
  | raised (why : Completion) (s : State)
  | hung
deriving DecidableEq, Repr

/-- One procedure after another (R13: assignments happen in the order written). -/
def Attempt.bind {α β : Type} (x : Attempt α) (f : α → State → Attempt β) : Attempt β :=
  match x with
  | .done a s => f a s
  | .raised why s => .raised why s
  | .hung => .hung

/-- The completion of a command that delivers its result in `RES` (R24, R250): a fault leaves `RES` as it was. -/
def finishResult (x : Attempt Word) : Host.Outcome State Fault Refusal :=
  match x with
  | .done r s => .next ((s.setRes r).complete .ok 0)
  | .raised why s => .next (s.complete why 0)
  | .hung => .fault .rejectionLoopNeverEnds

/-- The bytes a command that began in `start` has appended to OUT (R29). -/
def emitted (start s : State) : Nat := s.out.length - start.out.length

/-- The completion of a command that writes the OUT stream (R29, R250): a fault counts the bytes already written. -/
def finishOut (start : State) (x : Attempt Unit) : Host.Outcome State Fault Refusal :=
  match x with
  | .done _ s => .next (s.complete .ok (emitted start s))
  | .raised why s => .next (s.complete why (emitted start s))
  | .hung => .fault .rejectionLoopNeverEnds

/-! ### The entropy port -/

/-- The `n` bytes of the answer to request number `k`: those the answer lists, and a free value for each
byte it does not list (log entry 5). -/
def entropyBytes (k n : Nat) (listed : List Byte) : List Byte :=
  (List.range n).map fun j => listed.getD j (Config.freeEntropyByte k j)

/-- The answer of `EntRequest(n)` (R66): `none` is `Fail`. An answer that is not among the inputs of the
run is a free value (log entry 5). -/
def entropyAnswer (n : Nat) (s : State) : Option (List Byte) :=
  match s.entropy with
  | .fail :: _ => none
  | .ok bytes :: _ => some (entropyBytes s.requests.length n bytes)
  | [] =>
    if Config.freeEntropyFails s.requests.length then none
    else some (entropyBytes s.requests.length n [])

/-! ### The Word Generator -/

/-- `WgStep()` (R121). -/
def wgDraw (c : Config) (s : State) : Word × State :=
  ((c.wgStep s.wg).1, s.setWg (c.wgStep s.wg).2)

/-- `ZeroGuard` (R128). -/
def zeroGuard (c : Config) (t : Quad) : Quad :=
  if t.w0 ||| t.w1 ||| t.w2 ||| t.w3 = 0 then c.seedMix Quad.zero else t

/-! ### The keystream -/

/-- `BLOCK_FN(KEY, NONCE, CTR)` (R67). -/
def nextBlock (c : Config) (s : State) : List Byte :=
  (List.range c.blockLen).map (c.blockFn s.key s.nonce s.ctr)

/-- The first part of `KsByte()` (R153, R155): a refill if the machine is Exhausted, a fault if the
counter is at its maximum then, with nothing changed. -/
def ksRefill (c : Config) (s : State) : Attempt Unit :=
  if isReady c s then .done () s
  else if s.ctr = ctrMax then .raised .counterExhausted s
  else .done () (s.loadBlock (nextBlock c s))

/-- `BufRead(i)` (R69). -/
def bufRead (i : Nat) (s : State) : Byte := s.buf.getD i 0

/-- `KsByte()` (R153). -/
def ksByte (c : Config) (s : State) : Attempt Byte :=
  (ksRefill c s).bind fun _ s1 => .done (bufRead s1.cur.toNat s1) s1.advanceCur

/-- The next `n` keystream bytes, in order. -/
def ksBytes (c : Config) (n : Nat) (s : State) : Attempt (List Byte) :=
  match n with
  | 0 => .done [] s
  | k + 1 =>
    (ksByte c s).bind fun b s1 => (ksBytes c k s1).bind fun bs s2 => .done (b :: bs) s2

/-- `KsWord()` (R157): `LE64` of the next eight keystream bytes. -/
def ksWord (c : Config) (s : State) : Attempt Word :=
  (ksBytes c 8 s).bind fun bs s1 => .done (le64 bs) s1

/-! ### The OUT stream -/

/-- The loop of `KS.FILL` (R158) and of `TX.TEXT` (R215): `n` times the next byte is taken and written to OUT. -/
def emit (next : State → Attempt Byte) (n : Nat) (s : State) : Attempt Unit :=
  match n with
  | 0 => .done () s
  | k + 1 => (next s).bind fun b s1 => emit next k (s1.outWrite b)

end Sys2Proof.Machine
end

