-- ==== Sys2Proof/Machine/WordGenerator.lean ====
section
/-! DEFINITION. The Word Generator commands `WG.SEEDE`, `WG.SEED`, `WG.NEXT`, `WG.JUMP`, `WG.DROP`
(spec 40_word_generator.md R120 to R132). Each is written over a configuration; `exec…` is its meaning at
the default configuration (log entry 3). -/

namespace Sys2Proof.Machine

/-- `WG.SEEDE` (R125): the 32 entropy bytes become the state unmixed, but for the zero guard (R128). -/
def wgSeede (c : Config) (s : State) : State :=
  match entropyAnswer 32 s with
  | none => (s.noteEntropy 32).complete .entropyUnavailable 0
  | some e => ((s.noteEntropy 32).seedWg (zeroGuard c (entropyWords e)) false).complete .ok 0

/-- `WG.SEED` (R126). -/
def wgSeed (c : Config) (s : State) : State :=
  (s.seedWg (zeroGuard c (c.seedMix (seedWords s))) true).complete .ok 0

/-- `WG.NEXT` (R124). -/
def wgNext (c : Config) (s : State) : State :=
  if s.wgValid then ((wgDraw c s).2.setRes (wgDraw c s).1).complete .ok 0
  else s.complete .notSeeded 0

/-- The 256 coefficients of `JUMP_POLY` in the order of R129's loops: word 0 first, bit 0 first. -/
def polyBits (p : Quad) : List Bool :=
  (List.range 64).map p.w0.getLsbD ++ (List.range 64).map p.w1.getLsbD ++
  (List.range 64).map p.w2.getLsbD ++ (List.range 64).map p.w3.getLsbD

/-- The loop of R129: `acc` is `A`, `q` is `S`; a coefficient 1 adds the state to `A`, and then the state
makes one step, its word discarded. The answer is `A`. -/
def jumpLoop (c : Config) (bits : List Bool) (acc q : Quad) : Quad :=
  match bits with
  | [] => acc
  | b :: bs => jumpLoop c bs (if b then acc.xor q else acc) (c.wgStep q).2

/-- The state `WG.JUMP` leaves (R129). -/
def jumpState (c : Config) (q : Quad) : Quad := jumpLoop c (polyBits c.jumpPoly) Quad.zero q

/-- `WG.JUMP` (R129). -/
def wgJump (c : Config) (s : State) : State :=
  if s.wgValid then (s.setWg (jumpState c s.wg)).complete .ok 0
  else s.complete .notSeeded 0

/-- `WG.DROP` (R132). -/
def wgDrop (s : State) : State := s.dropWg.complete .ok 0

def execWgSeede (s : State) : Host.Outcome State Fault Refusal := .next (wgSeede config s)

def execWgSeed (s : State) : Host.Outcome State Fault Refusal := .next (wgSeed config s)

def execWgNext (s : State) : Host.Outcome State Fault Refusal := .next (wgNext config s)

def execWgJump (s : State) : Host.Outcome State Fault Refusal := .next (wgJump config s)

def execWgDrop (s : State) : Host.Outcome State Fault Refusal := .next (wgDrop s)

end Sys2Proof.Machine
end

