-- ==== Sys2Proof/WellFormed.lean ====
section
/-! DEFINITION. Which commands and which configurations are well formed
(spec 30_encoding.md R95, R100; 00_scope.md R7; 40_word_generator.md R123, R128 to R130;
43_text_encoder.md R211, R217). -/

namespace Sys2Proof

/-- A command of a YRCORE with configuration `c`: the alphabet of `TX.TEXT` is one of the table's
(R95, R100). Every other command is well formed whatever its fields. -/
abbrev Instr.WellFormed (c : Config) (i : Instr) : Prop :=
  match i with
  | .nop => True
  | .clrerr => True
  | .wgSeede => True
  | .wgSeed => True
  | .wgNext => True
  | .wgJump => True
  | .wgDrop => True
  | .ksSeede => True
  | .ksSeed => True
  | .ksNext => True
  | .ksFill => True
  | .ksDrop => True
  | .uBound _ => True
  | .uRange _ => True
  | .uF64 _ => True
  | .uBool _ => True
  | .uDigit _ => True
  | .txText alpha => alpha.toNat < Machine.nalpha c

/-- An alphabet that can be configured (R7, R211): `2^bits` characters, `1 <= bits <= 8`; and no character twice,
which makes the map from index to character injective (R217; log entry 22). -/
abbrev Alphabet.WellFormed (a : Alphabet) : Prop :=
  1 ≤ a.bits ∧ a.bits ≤ 8 ∧ a.chars.length = 2 ^ a.bits ∧ a.chars.Nodup

/-- The sizes and tables of a configuration: the constraints of R7 and R211, with R128's on `SEED_MIX`.
At most 16 alphabets can be selected by the four bits of `ALPHA` (R95). -/
abbrev Config.SizesFit (c : Config) : Prop :=
  1 ≤ c.blockLen ∧ c.blockLen < 2 ^ 16 ∧ 1 ≤ c.keyLen ∧ c.keyLen + c.nonceLen ≤ 8 * 247 ∧
  c.alphabets.length ≤ 16 ∧ (∀ a ∈ c.alphabets, a.WellFormed) ∧
  c.seedMix Quad.zero ≠ Quad.zero

/-- What the source requires of `WG_STEP`, whatever instance is configured (R123, properties 2 and 3), and what
makes a polynomial the `JUMP_POLY` of this `WG_STEP`: the loop of `WG.JUMP` advances every state by `JUMP_DIST`
words (R129, R130; log entry 21). -/
def Config.StepFits (c : Config) : Prop :=
  Function.Bijective (Machine.wgSucc c) ∧
  (∀ p q : Quad, Machine.wgSucc c (p.xor q) = (Machine.wgSucc c p).xor (Machine.wgSucc c q)) ∧
  ∀ q : Quad, Machine.jumpState c q = (Machine.wgSucc c)^[Machine.jumpDist] q

/-- A configuration of a YRCORE. Anything else is no YRCORE (93_implementation_defined.md H14). -/
def Config.WellFormed (c : Config) : Prop := c.SizesFit ∧ c.StepFits

end Sys2Proof
end

