-- ==== Sys2Proof/Decode.lean ====
section
/-! DEFINITION. The decoder of a value written to `CMD`, its encoder, and the opcode table's numbering
of a command's bits (spec 30_encoding.md R90 to R101). -/

namespace Sys2Proof

/-- Why a value written to `CMD` is no command: the test of R96 it fails first. Each of them is
`IllegalCommand` to the host (R247). -/
inductive DecodeError where
  | upperHalf       -- test 1: v[63:32] is not 0 (R99)
  | reservedField   -- test 2: RSV2 or RSV1 is not 0 (R98)
  | unassignedOp    -- test 3: OP is not one of the 18 values of R92 (R97)
  | srcNotUsed      -- test 4: SRC set on a command without it (R100)
  | alphaNotUsed    -- test 5: ALPHA set on a command without it (R100)
  | alphaUndefined  -- test 6: ALPHA not below NALPHA (R100)
deriving DecidableEq, Repr

/-- `OP`, bits 7:0 (R90). -/
def fieldOp (v : Word) : BitVec 8 := v.extractLsb' 0 8

/-- `SRC`, bit 8 (R90, R94). -/
def fieldSrc (v : Word) : Src := if v.getLsbD 8 then .ks else .wg

/-- `RSV1`, bits 11:9 (R90). -/
def fieldRsv1 (v : Word) : BitVec 3 := v.extractLsb' 9 3

/-- `ALPHA`, bits 15:12 (R90, R95). -/
def fieldAlpha (v : Word) : BitVec 4 := v.extractLsb' 12 4

/-- `RSV2`, bits 31:16 (R90). -/
def fieldRsv2 (v : Word) : BitVec 16 := v.extractLsb' 16 16

/-- Bits 63:32 (R90). -/
def fieldUpper (v : Word) : BitVec 32 := v.extractLsb' 32 32

/-- The command of R92 with operation code `op`, its `SRC` and its `ALPHA`; `none` for an unassigned
operation code (R97). -/
def commandOf (op : BitVec 8) (src : Src) (alpha : BitVec 4) : Option Instr :=
  match op.toNat with
  | 0x00 => some .nop
  | 0x01 => some .clrerr
  | 0x10 => some .wgSeede
  | 0x11 => some .wgSeed
  | 0x12 => some .wgNext
  | 0x13 => some .wgJump
  | 0x14 => some .wgDrop
  | 0x20 => some .ksSeede
  | 0x21 => some .ksSeed
  | 0x22 => some .ksNext
  | 0x23 => some .ksFill
  | 0x24 => some .ksDrop
  | 0x30 => some (.uBound src)
  | 0x31 => some (.uRange src)
  | 0x32 => some (.uF64 src)
  | 0x33 => some (.uBool src)
  | 0x34 => some (.uDigit src)
  | 0x40 => some (.txText alpha)
  | _ => none

/-- `OP` is 0x30 to 0x34, the commands that use `SRC` (R96 test 4). -/
def opUsesSrc (op : BitVec 8) : Bool := 0x30 ≤ op.toNat && op.toNat ≤ 0x34

/-- `OP` is 0x40, the command that uses `ALPHA` (R96 tests 5 and 6). -/
def opUsesAlpha (op : BitVec 8) : Bool := op.toNat == 0x40

/-- The decoder of R96, its six tests in their order, for a YRCORE with configuration `c`. -/
def decodeWith (c : Config) (v : Word) : Except DecodeError Instr :=
  if fieldUpper v ≠ 0 then .error .upperHalf
  else if fieldRsv2 v ≠ 0 ∨ fieldRsv1 v ≠ 0 then .error .reservedField
  else
    match commandOf (fieldOp v) (fieldSrc v) (fieldAlpha v) with
    | none => .error .unassignedOp
    | some i =>
      if opUsesSrc (fieldOp v) = false ∧ v.getLsbD 8 = true then .error .srcNotUsed
      else if opUsesAlpha (fieldOp v) = false ∧ fieldAlpha v ≠ 0 then .error .alphaNotUsed
      else if opUsesAlpha (fieldOp v) = true ∧ Machine.nalpha c ≤ (fieldAlpha v).toNat then
        .error .alphaUndefined
      else .ok i

/-- The decoder at the default configuration. -/
def decode (v : Word) : Except DecodeError Instr := decodeWith Machine.config v

/-- `SRC` as a bit of the command word (R90, R94). -/
def srcBit (src : Src) : BitVec 1 :=
  match src with
  | .wg => 0
  | .ks => 1

/-- A command word from its three fields, every other bit 0 (R90). -/
def packCommand (alpha : BitVec 4) (src : BitVec 1) (op : BitVec 8) : Word :=
  (0 : BitVec 48) ++ alpha ++ (0 : BitVec 3) ++ src ++ op

/-- The value to write to `CMD` for a command (R92). -/
def encode (i : Instr) : Word :=
  match i with
  | .nop => packCommand 0 0 0x00
  | .clrerr => packCommand 0 0 0x01
  | .wgSeede => packCommand 0 0 0x10
  | .wgSeed => packCommand 0 0 0x11
  | .wgNext => packCommand 0 0 0x12
  | .wgJump => packCommand 0 0 0x13
  | .wgDrop => packCommand 0 0 0x14
  | .ksSeede => packCommand 0 0 0x20
  | .ksSeed => packCommand 0 0 0x21
  | .ksNext => packCommand 0 0 0x22
  | .ksFill => packCommand 0 0 0x23
  | .ksDrop => packCommand 0 0 0x24
  | .uBound src => packCommand 0 (srcBit src) 0x30
  | .uRange src => packCommand 0 (srcBit src) 0x31
  | .uF64 src => packCommand 0 (srcBit src) 0x32
  | .uBool src => packCommand 0 (srcBit src) 0x33
  | .uDigit src => packCommand 0 (srcBit src) 0x34
  | .txText alpha => packCommand alpha 0 0x40

/-- The value written to `CMD` for a row of the opcode table whose `nbits` bits are `w`: bit 0 of the
row is bit 0 of the value, and every bit above `nbits` is 0 (log entry 16). -/
def tableWord (nbits w : Nat) : Word := BitVec.ofNat 64 (w % 2 ^ nbits)

/-- What the decoder reads from a row of the opcode table. -/
def decodeTableWord (nbits w : Nat) : Option Instr :=
  match decode (tableWord nbits w) with
  | .ok i => some i
  | .error _ => none

end Sys2Proof
end

