-- ==== Sys2Proof/Machine/Control.lean ====
section
/-! DEFINITION. The control commands `NOP` and `CLRERR` (spec 44_control.md R230, R231), and the
completion of a value that is no command (60_exceptions.md R247). -/

namespace Sys2Proof.Machine

/-- `NOP` (R230). -/
def execNop (s : State) : Host.Outcome State Fault Refusal := .next (s.complete .ok 0)

/-- `CLRERR` (R231). -/
def execClrerr (s : State) : Host.Outcome State Fault Refusal := .next (s.clearSticky.complete .ok 0)

/-- `IllegalCommand` (R97, R247). -/
def illegalCommand (s : State) : State := s.complete .illegalCommand 0

end Sys2Proof.Machine
end

