-- ==== Sys2Proof/Machine/Keystream.lean ====
section
/-! DEFINITION. The Keystream Generator commands `KS.SEEDE`, `KS.SEED`, `KS.NEXT`, `KS.FILL`, `KS.DROP`
(spec 41_keystream.md R150 to R162). Each is written over a configuration; `exec…` is its meaning on the
machine that `exec` runs (log entry 3). -/

namespace Sys2Proof.Machine

/-- `KS.SEEDE` (R159): one request for key and nonce together, key bytes first. -/
def ksSeede (c : Config) (s : State) : State :=
  match entropyAnswer (c.keyLen + c.nonceLen) s with
  | none => (s.noteEntropy (c.keyLen + c.nonceLen)).complete .entropyUnavailable 0
  | some e =>
    ((s.noteEntropy (c.keyLen + c.nonceLen)).seedKs c (keyPart c e) (noncePart c e) 0 false).complete .ok 0

/-- `KS.SEED` (R160). -/
def ksSeed (c : Config) (s : State) : State :=
  (s.seedKs c (keyPart c (keyNonceOperand c s)) (noncePart c (keyNonceOperand c s))
    (counterOperand c s) true).complete .ok 0

/-- `KS.NEXT` (R156). -/
def ksNext (c : Config) (s : State) : Host.Outcome State Fault Refusal :=
  if s.ksValid then finishResult (ksWord c s) else .next (s.complete .notSeeded 0)

/-- `KS.FILL` (R158): `D[0]` bytes to OUT. -/
def ksFill (c : Config) (s : State) : Host.Outcome State Fault Refusal :=
  if s.ksValid then finishOut s (emit (ksByte c) (s.data 0).toNat s)
  else .next (s.complete .notSeeded 0)

/-- `KS.DROP` (R161). -/
def ksDrop (c : Config) (s : State) : State := (s.dropKs c).complete .ok 0

def execKsSeede (s : State) : Host.Outcome State Fault Refusal := .next (ksSeede config s)

def execKsSeed (s : State) : Host.Outcome State Fault Refusal := .next (ksSeed config s)

def execKsNext (s : State) : Host.Outcome State Fault Refusal := ksNext config s

def execKsFill (s : State) : Host.Outcome State Fault Refusal := ksFill config s

def execKsDrop (s : State) : Host.Outcome State Fault Refusal := .next (ksDrop config s)

end Sys2Proof.Machine
end

