-- ==== Sys2Proof/Machine/Sampler.lean ====
section
/-! DEFINITION. The Uniform Sampler commands `U.BOUND`, `U.RANGE`, `U.F64`, `U.BOOL`, `U.DIGIT`
(spec 42_uniform_sampler.md R180 to R194). Each is written over a configuration; `exec…` is its meaning at
the default configuration (log entry 3). -/

namespace Sys2Proof.Machine

/-- `Draw(src)` (R181). -/
def draw (c : Config) (src : Src) (s : State) : Attempt Word :=
  match src with
  | .wg => .done (wgDraw c s).1 (wgDraw c s).2
  | .ks => ksWord c s

/-- The number of states of the Word Generator. It bounds nothing (log entry 7): a loop that has not
accepted in that many draws has been in every state it can reach and never accepts, and the keystream's
counter is exhausted long before. -/
def drawLimit : Nat := 2 ^ 256

/-- The loop of R183, run for at most `fuel` draws. -/
def boundLoop (c : Config) (src : Src) (n : Word) (fuel : Nat) (s : State) : Attempt Word :=
  match fuel with
  | 0 => .hung
  | k + 1 =>
    (draw c src s).bind fun x s1 =>
      if thresh n ≤ mulLo x n then .done (mulHi x n) s1 else boundLoop c src n k s1

/-- `BoundLoop(src, n)` (R183), without a bound on the draws: `hung` exactly when it never ends (log entry 7). -/
def boundSample (c : Config) (src : Src) (n : Word) (s : State) : Attempt Word :=
  boundLoop c src n drawLimit s

/-- `U.BOUND` (R184); `n = 1` draws one word like any other bound (R185). -/
def uBound (c : Config) (src : Src) (s : State) : Host.Outcome State Fault Refusal :=
  if seeded src s then
    if s.data 0 = 0 then .next (s.complete .invalidBound 0)
    else finishResult (boundSample c src (s.data 0) s)
  else .next (s.complete .notSeeded 0)

/-- `U.RANGE` (R186). -/
def uRange (c : Config) (src : Src) (s : State) : Host.Outcome State Fault Refusal :=
  if seeded src s then
    if (s.data 0).slt (s.data 1) then
      finishResult ((boundSample c src (s.data 1 - s.data 0) s).bind fun v s1 => .done (s.data 0 + v) s1)
    else .next (s.complete .invalidRange 0)
  else .next (s.complete .notSeeded 0)

/-- `U.F64` (R188): the top 53 bits of one word, scaled by `2^-53`. -/
def uF64 (c : Config) (src : Src) (s : State) : Host.Outcome State Fault Refusal :=
  if seeded src s then finishResult ((draw c src s).bind fun x s1 => .done (f64Bits (x >>> 11)) s1)
  else .next (s.complete .notSeeded 0)

/-- `U.BOOL` (R190): bit 63 of one word. -/
def uBool (c : Config) (src : Src) (s : State) : Host.Outcome State Fault Refusal :=
  if seeded src s then
    finishResult ((draw c src s).bind fun x s1 => .done ((x.extractLsb' 63 1).setWidth 64) s1)
  else .next (s.complete .notSeeded 0)

/-- `U.DIGIT` (R191): the character code of a digit. -/
def uDigit (c : Config) (src : Src) (s : State) : Host.Outcome State Fault Refusal :=
  if seeded src s then finishResult ((boundSample c src 10 s).bind fun v s1 => .done (0x30 + v) s1)
  else .next (s.complete .notSeeded 0)

def execUBound (src : Src) (s : State) : Host.Outcome State Fault Refusal := uBound config src s

def execURange (src : Src) (s : State) : Host.Outcome State Fault Refusal := uRange config src s

def execUF64 (src : Src) (s : State) : Host.Outcome State Fault Refusal := uF64 config src s

def execUBool (src : Src) (s : State) : Host.Outcome State Fault Refusal := uBool config src s

def execUDigit (src : Src) (s : State) : Host.Outcome State Fault Refusal := uDigit config src s

end Sys2Proof.Machine
end

