-- ==== Sys2Proof/Machine/TextEncoder.lean ====
section
/-! DEFINITION. The Text Encoder command `TX.TEXT` (spec 43_text_encoder.md R210 to R217), written over a
configuration; `execTxText` is its meaning at the default configuration (log entry 3). -/

namespace Sys2Proof.Machine

/-- `2^k - 1`, the mask of the `k` lowest bits. -/
def lowMask (k : Nat) : BitVec 15 := BitVec.ofNat 15 (2 ^ k - 1)

/-- The first part of `NextChar` (R214): a keystream byte goes below the leftover bits when there are
fewer than a character needs. -/
def topUp (c : Config) (a : Alphabet) (s : State) : Attempt Unit :=
  if s.nb < a.bits then
    (ksByte c s).bind fun b s1 => .done () (s1.setAcc ((s1.acc <<< 8) ||| b.setWidth 15) (s1.nb + 8))
  else .done () s

/-- The index in `CHARS[a]` that the oldest bits of the accumulator make (R214). -/
def charIndex (a : Alphabet) (s : State) : Nat :=
  ((s.acc >>> (s.nb - a.bits)) &&& lowMask a.bits).toNat

/-- `NextChar(a)` (R214). -/
def nextChar (c : Config) (a : Alphabet) (s : State) : Attempt Byte :=
  (topUp c a s).bind fun _ s1 =>
    .done (a.chars.getD (charIndex a s1) 0)
      (s1.setAcc (s1.acc &&& lowMask (s1.nb - a.bits)) (s1.nb - a.bits))

/-- The leftover bits are discarded when the command ends, with or without a fault (R44, R215; log entry 12). -/
def discardBits (x : Attempt Unit) : Attempt Unit :=
  match x with
  | .done a s => .done a (s.setAcc 0 0)
  | .raised why s => .raised why (s.setAcc 0 0)
  | .hung => .hung

/-- `TX.TEXT` (R215). The decoder has refused an `ALPHA` that is not below `NALPHA`; of such a command
itself, too, the meaning is `IllegalCommand` (R100; log entry 11). -/
def txText (c : Config) (alpha : BitVec 4) (s : State) : Host.Outcome State Fault Refusal :=
  match alphabetOf c alpha with
  | none => .next (s.complete .illegalCommand 0)
  | some a =>
    if s.ksValid then
      if (s.data 0).toNat < minLen a then .next (s.complete .lengthTooShort 0)
      else finishOut s (discardBits (emit (nextChar c a) (s.data 0).toNat (s.setAcc 0 0)))
    else .next (s.complete .notSeeded 0)

def execTxText (alpha : BitVec 4) (s : State) : Host.Outcome State Fault Refusal := txText config alpha s

end Sys2Proof.Machine
end

