-- ==== Sys2Proof/Machine/Configured.lean ====
section
/-! DEFINITION. The commands of a YRCORE with any configuration (spec 00_scope.md R6, 10_state.md R21): the
bodies that the meanings of `exec` fix the default configuration for. -/

namespace Sys2Proof.Machine

/-- The effect of a decoded command of a YRCORE with configuration `c` (R62). -/
def execWith (c : Config) (i : Instr) (s : State) : Host.Outcome State Fault Refusal :=
  match i with
  | .nop => execNop s
  | .clrerr => execClrerr s
  | .wgSeede => .next (wgSeede c s)
  | .wgSeed => .next (wgSeed c s)
  | .wgNext => .next (wgNext c s)
  | .wgJump => .next (wgJump c s)
  | .wgDrop => .next (wgDrop s)
  | .ksSeede => .next (ksSeede c s)
  | .ksSeed => .next (ksSeed c s)
  | .ksNext => ksNext c s
  | .ksFill => ksFill c s
  | .ksDrop => .next (ksDrop c s)
  | .uBound src => uBound c src s
  | .uRange src => uRange c src s
  | .uF64 src => uF64 c src s
  | .uBool src => uBool c src s
  | .uDigit src => uDigit c src s
  | .txText alpha => txText c alpha s

end Sys2Proof.Machine
end

