-- ==== Sys2Proof/Machine/Dispatch.lean ====
section
/-! DEFINITION. The meaning of each command at the default configuration (log entry 3): one arm per constructor of
Instr. -/

namespace Sys2Proof.Machine

/-- The effect of a decoded command on a state in which its `CMD` write has been latched (R62). -/
def exec (i : Instr) (s : State) : Host.Outcome State Fault Refusal :=
  match i with
  | .nop => Sys2Proof.Machine.execNop s
  | .clrerr => Sys2Proof.Machine.execClrerr s
  | .wgSeede => Sys2Proof.Machine.execWgSeede s
  | .wgSeed => Sys2Proof.Machine.execWgSeed s
  | .wgNext => Sys2Proof.Machine.execWgNext s
  | .wgJump => Sys2Proof.Machine.execWgJump s
  | .wgDrop => Sys2Proof.Machine.execWgDrop s
  | .ksSeede => Sys2Proof.Machine.execKsSeede s
  | .ksSeed => Sys2Proof.Machine.execKsSeed s
  | .ksNext => Sys2Proof.Machine.execKsNext s
  | .ksFill => Sys2Proof.Machine.execKsFill s
  | .ksDrop => Sys2Proof.Machine.execKsDrop s
  | .uBound src => Sys2Proof.Machine.execUBound src s
  | .uRange src => Sys2Proof.Machine.execURange src s
  | .uF64 src => Sys2Proof.Machine.execUF64 src s
  | .uBool src => Sys2Proof.Machine.execUBool src s
  | .uDigit src => Sys2Proof.Machine.execUDigit src s
  | .txText alpha => Sys2Proof.Machine.execTxText alpha s

end Sys2Proof.Machine
end

