-- ==== Sys2Proof/Machine/HostPort.lean ====
section
/-! DEFINITION. The host port: the register map and its reads and writes (spec 20_memory.md R60 to R64), and
what the next input of a run is to the block (R62, R72; 70_reset_and_hazards.md R281). -/

namespace Sys2Proof.Machine

/-- `HostRead(idx)` (R60, R61): the value of register `idx`. -/
def hostRead (c : Config) (idx : BitVec 8) (s : State) : Word :=
  match idx.toNat with
  | 0 => s.cmd
  | 1 => statusWord c s
  | 2 => s.res
  | 3 => s.outcnt
  | 4 => s.cur.setWidth 64
  | 5 => s.ctr
  | 6 => paramsWord c
  | 7 => 0
  | i + 8 => if i < ndata c then s.data i else 0

/-- `HostWrite(idx, v)` of an index other than `CMD` (R61): a data register is set, and every other write is ignored. -/
def hostWrite (c : Config) (idx : BitVec 8) (v : Word) (s : State) : State :=
  if 8 ≤ idx.toNat ∧ idx.toNat < 8 + ndata c then s.setData (idx.toNat - 8) v else s

/-- What an input is to the block: a value written to `CMD`, latched in the state beside it, or anything
else, already served. -/
inductive Served where
  | command (v : Word) (s : State)
  | settled (s : State)
deriving DecidableEq, Repr

/-- The next input is taken and, unless it is a write of `CMD`, served (R61, R281). With no input the block
does nothing (log entry 1). -/
def serve (c : Config) (s : State) : Served :=
  match s.inputs with
  | [] => .settled s
  | .read idx :: rest => .settled ((s.setInputs rest).deliver (hostRead c idx s))
  | .write idx v :: rest =>
    if idx = 0 then .command v ((s.setInputs rest).latchCommand v)
    else .settled (hostWrite c idx v (s.setInputs rest))
  | .reset :: rest => .settled ((s.setInputs rest).resetInput c)

end Sys2Proof.Machine
end

