-- ==== Sys2Proof/Machine/Step.lean ====
section
/-! DEFINITION. One step: the next input of the run is served, and a value written to `CMD` is decoded and
performed, whole (spec 20_memory.md R61, R62; 30_encoding.md R96; 70_reset_and_hazards.md R293). The
configuration is a parameter of the step (10_state.md R21). -/

namespace Sys2Proof.Machine

/-- One step of a YRCORE with configuration `c` whose commands `perform` gives their effects (log entry 1). -/
def stepBy (c : Config) (perform : Instr → State → Host.Outcome State Fault Refusal) (s : State) :
    Host.Outcome State Fault Refusal :=
  match serve c s with
  | .settled s1 => .next s1
  | .command v s1 =>
    match decodeWith c v with
    | .ok i => perform i s1
    | .error _ => .next (illegalCommand s1)

/-- One step of a YRCORE with configuration `c` (R21). -/
def stepWith (c : Config) (s : State) : Host.Outcome State Fault Refusal := stepBy c (execWith c) s

/-- One step of the machine at the default configuration (log entry 3). -/
def step (s : State) : Host.Outcome State Fault Refusal := stepBy config exec s

/-- `s` with the next input a write of `CMD` with the command of an opcode table row (log entry 2). -/
def State.withFetchWord (s : State) (nbits w : Nat) : State :=
  { s with inputs := .write 0 (tableWord nbits w) :: s.inputs }

end Sys2Proof.Machine
end

