-- ==== Sys2Proof/Safety.lean ====
section
/-! DEFINITION. The terms claims about YRCORE are made in: the invariants of its state, what is still to
come from each word source, where a command leaves the keystream, and what a text is. -/

namespace Sys2Proof.Machine

/-! ### Outcomes -/

/-- The step goes on: neither a fault nor a refusal. -/
def Completes (o : Host.Outcome State Fault Refusal) : Prop := ∃ t, o = .next t

/-! ### Invariants of the state -/

/-- Every register file and byte sequence has its length, and the cursor is in `[0, BLOCK_LEN]`
(R22, R37, R38, R40, R42). -/
abbrev SizesOk (c : Config) (s : State) : Prop :=
  s.d.length = ndata c ∧ s.key.length = c.keyLen ∧ s.nonce.length = c.nonceLen ∧
  s.buf.length = c.blockLen ∧ s.cur.toNat ≤ c.blockLen

/-- An unseeded generator holds nothing (R36, R43), and is not marked deterministic (R27). -/
abbrev UnseededIsZero (c : Config) (s : State) : Prop :=
  (s.wgValid = false → s.wg = Quad.zero ∧ s.wgDet = false) ∧
  (s.ksValid = false →
    s.key = List.replicate c.keyLen 0 ∧ s.nonce = List.replicate c.nonceLen 0 ∧
    s.buf = List.replicate c.blockLen 0 ∧ s.ctr = 0 ∧ s.cur = BitVec.ofNat 16 c.blockLen ∧
    s.ksDet = false)

/-- Between commands the Text Encoder's accumulator is empty (R44). -/
abbrev TextIdle (s : State) : Prop := s.acc = 0 ∧ s.nb = 0

/-- The invariant every step keeps. -/
abbrev Inv (c : Config) (s : State) : Prop := SizesOk c s ∧ UnseededIsZero c s ∧ TextIdle s

/-- A seeded Word Generator is not in the zero state (R35). -/
abbrev WgNonzero (s : State) : Prop := s.wgValid = true → s.wg ≠ Quad.zero

/-! ### Which generator a command needs -/

/-- The generator a command needs seeded (R248); `none` for the seeding, drop and control commands. -/
def needs (i : Instr) : Option Src :=
  match i with
  | .nop => none
  | .clrerr => none
  | .wgSeede => none
  | .wgSeed => none
  | .wgNext => some .wg
  | .wgJump => some .wg
  | .wgDrop => none
  | .ksSeede => none
  | .ksSeed => none
  | .ksNext => some .ks
  | .ksFill => some .ks
  | .ksDrop => none
  | .uBound src => some src
  | .uRange src => some src
  | .uF64 src => some src
  | .uBool src => some src
  | .uDigit src => some src
  | .txText _ => some .ks

/-- The command sets or clears the seed of the Keystream Generator. -/
def reseedsKs (i : Instr) : Bool := i = .ksSeede || i = .ksSeed || i = .ksDrop

/-! ### What is to come from the Word Generator -/

/-- The state of the Word Generator after `k` steps. -/
def wgAfter (c : Config) (q : Quad) (k : Nat) : Quad :=
  match k with
  | 0 => q
  | j + 1 => wgAfter c (wgSucc c q) j

/-- The word delivered after `k` steps. -/
def wgWord (c : Config) (q : Quad) (k : Nat) : Word := (c.wgStep (wgAfter c q k)).1

/-- The rejection test of R183: the word is accepted for the bound `n`. -/
def accepted (n x : Word) : Bool := decide (thresh n ≤ mulLo x n)

/-! ### What is to come from the keystream -/

/-- The bytes left in the buffer. -/
def inBuffer (c : Config) (s : State) : Nat := c.blockLen - s.cur.toNat

/-- Every byte that can still be delivered: those in the buffer, and one block for each counter value
below `CTR_MAX` (R155, R158). -/
def bytesLeft (c : Config) (s : State) : Nat :=
  inBuffer c s + (ctrMax.toNat - s.ctr.toNat) * c.blockLen

/-- Byte `j` of the keystream still to come: first the buffer, then block after block from the counter on (R154). -/
def comingByte (c : Config) (s : State) (j : Nat) : Byte :=
  if j < inBuffer c s then s.buf.getD (s.cur.toNat + j) 0
  else
    c.blockFn s.key s.nonce (s.ctr + BitVec.ofNat 64 ((j - inBuffer c s) / c.blockLen))
      ((j - inBuffer c s) % c.blockLen)

/-- The next `n` bytes of the keystream. -/
def comingBytes (c : Config) (s : State) (n : Nat) : List Byte := (List.range n).map (comingByte c s)

/-- Word `k` of the keystream still to come (R157). -/
def comingWord (c : Config) (s : State) (k : Nat) : Word :=
  le64 ((List.range 8).map fun j => comingByte c s (8 * k + j))

/-- The requests of `k` refills in a row (R153, R162). -/
def blockRequests (s : State) (k : Nat) : List PortRequest :=
  (List.range k).map fun i => .block s.key s.nonce (s.ctr + BitVec.ofNat 64 i)

/-- The state with the four fields that the keystream's delivery writes. -/
def State.withKs (buf : List Byte) (cur : BitVec 16) (ctr : Word) (requests : List PortRequest)
    (s : State) : State :=
  { s with buf := buf, cur := cur, ctr := ctr, requests := requests }

/-- The state with the OUT stream replaced. -/
def State.withOut (o : List Byte) (s : State) : State := { s with out := o }

/-- The state after `n` more bytes have been delivered, in closed form. With `j` the number of bytes
delivered beyond the buffer, less one, the last refill made was number `j / BLOCK_LEN` (R152, R153). -/
def afterBytes (c : Config) (s : State) (n : Nat) : State :=
  if n ≤ inBuffer c s then s.withKs s.buf (s.cur + BitVec.ofNat 16 n) s.ctr s.requests
  else
    let j := n - inBuffer c s - 1
    let k := j / c.blockLen
    s.withKs
      ((List.range c.blockLen).map (c.blockFn s.key s.nonce (s.ctr + BitVec.ofNat 64 k)))
      (BitVec.ofNat 16 (j % c.blockLen + 1))
      (s.ctr + BitVec.ofNat 64 (k + 1))
      (s.requests ++ blockRequests s (k + 1))

/-! ### Drawing from either source -/

/-- The state after `k` draws. -/
def afterDraws (c : Config) (src : Src) (s : State) (k : Nat) : State :=
  match src with
  | .wg => s.setWg (wgAfter c s.wg k)
  | .ks => afterBytes c s (8 * k)

/-- Word number `k` of those that `draw` will deliver (R181), counting from 0. -/
def comingDraw (c : Config) (src : Src) (s : State) (k : Nat) : Word :=
  match src with
  | .wg => wgWord c s.wg k
  | .ks => comingWord c s k

/-- The first `k + 1` draws can be made: always from the Word Generator; from the keystream when their
bytes are left (R181). -/
def canDrawTo (c : Config) (src : Src) (s : State) (k : Nat) : Prop :=
  match src with
  | .wg => True
  | .ks => 8 * (k + 1) ≤ bytesLeft c s

/-! ### Texts -/

/-- Bit `p` of the keystream still to come, each byte from bit 7 down (R214). -/
def comingBit (c : Config) (s : State) (p : Nat) : Bool := (comingByte c s (p / 8)).getLsbD (7 - p % 8)

/-- The number that `n` bits from `start` on make, the first most significant. -/
def bitsValue (f : Nat → Bool) (start n : Nat) : Nat :=
  match n with
  | 0 => 0
  | k + 1 => 2 * bitsValue f start k + (f (start + k)).toNat

/-- Character `i` of the text the keystream gives in alphabet `a` (R214). -/
def comingChar (c : Config) (a : Alphabet) (s : State) (i : Nat) : Byte :=
  a.chars.getD (bitsValue (comingBit c s) (i * a.bits) a.bits) 0

/-- The keystream bytes that `n` characters take (R216): `ceil(n * BITS / 8)`. -/
def textBytes (a : Alphabet) (n : Nat) : Nat := (n * a.bits + 7) / 8

/-- The characters the bytes still left suffice for. -/
def charsLeft (c : Config) (a : Alphabet) (s : State) : Nat := 8 * bytesLeft c s / a.bits

end Sys2Proof.Machine
end

