-- ==== Sys2Proof/Certificates/Slice0/Obligations.lean ====
section
/-! DEFINITION. The statements for the provers. Each docstring names the rule of spec/ it formalises.
`comingByte`, `afterBytes`, `comingDraw`, `comingChar` and their like are in Safety.lean: they say, without
the machine's loops, what is still to come from a word source and where a command leaves it. `exec` and `step` are
`execWith` and `stepWith` at the spec's default parameters and any block primitive (log entries 3, 4); a statement
with a configuration `c` in it holds for every `c` it admits. The inputs a step takes and the record of requests are the model's form (log entries 1, 5, 6). -/

open Sys2Proof Sys2Proof.Machine

/-! ### Encoding -/

/-- R96, R92: the decoder reads exactly the words of the well-formed commands, each as its command; so does that of
every configuration, whatever alphabets it has (R6). -/
def Obligations.DecodeAcceptsExactlyTheEncodings : Prop :=
  (∀ (v : Word) (i : Instr), decode v = .ok i ↔ i.WellFormed config ∧ v = encode i) ∧
  ∀ (c : Config) (v : Word) (i : Instr), decodeWith c v = .ok i ↔ i.WellFormed c ∧ v = encode i

/-- R96, its six tests, with the operation codes of R92: a value is refused exactly when a test fails. -/
def Obligations.DecoderRefusesExactlyWhenATestFails : Prop :=
  ∀ v : Word, (∃ e, decode v = .error e) ↔
    (v.extractLsb' 32 32 ≠ 0 ∨
     (v.extractLsb' 16 16 ≠ 0 ∨ v.extractLsb' 9 3 ≠ 0) ∨
     (v.extractLsb' 0 8).toNat ∉
       [0x00, 0x01, 0x10, 0x11, 0x12, 0x13, 0x14, 0x20, 0x21, 0x22, 0x23, 0x24,
        0x30, 0x31, 0x32, 0x33, 0x34, 0x40] ∨
     (¬ (0x30 ≤ (v.extractLsb' 0 8).toNat ∧ (v.extractLsb' 0 8).toNat ≤ 0x34) ∧ v.getLsbD 8 = true) ∨
     ((v.extractLsb' 0 8).toNat ≠ 0x40 ∧ v.extractLsb' 12 4 ≠ 0) ∨
     ((v.extractLsb' 0 8).toNat = 0x40 ∧ 4 ≤ (v.extractLsb' 12 4).toNat))

/-- R92: words of each family, written out from the opcode map. -/
def Obligations.WordsOfEachFamilyDecode : Prop :=
  decode 0x00000001 = .ok .clrerr ∧ decode 0x00000012 = .ok .wgNext ∧
  decode 0x00000023 = .ok .ksFill ∧ decode 0x00000130 = .ok (.uBound .ks) ∧
  decode 0x00003040 = .ok (.txText 3)

/-! ### The step and the host port -/

/-- R62, R96: a value written to `CMD` that decodes is performed, whole, in one step. Around `exec` the step
takes the input and latches the value (R26). R21: the same of every configuration, and `exec` is what the
commands are at the default one (log entry 3, the model's form). -/
def Obligations.CommandWriteRunsTheDecodedCommand : Prop :=
  (∀ (s : State) (v : Word) (rest : List HostAccess) (i : Instr),
    s.inputs = .write 0 v :: rest → decode v = .ok i →
    step s = exec i { s with inputs := rest, cmd := v }) ∧
  (∀ (c : Config) (s : State) (v : Word) (rest : List HostAccess) (i : Instr),
    s.inputs = .write 0 v :: rest → decodeWith c v = .ok i →
    stepWith c s = execWith c i { s with inputs := rest, cmd := v }) ∧
  ∀ (i : Instr) (s : State), exec i s = execWith config i s

/-- R247: a value that is no command changes nothing but `ERR`, `SERR`, `OUTCNT` and the read-back value. That the
read-back value keeps all 64 bits of a value with a non-zero upper half is the model's reading of R26 by vector V52
of 95_test_vectors.md (log entry 10, DEDUCED). -/
def Obligations.IllegalCommandChangesOnlyStatus : Prop :=
  ∀ (s : State) (v : Word) (rest : List HostAccess),
    s.inputs = .write 0 v :: rest → (∀ i : Instr, i.WellFormed config → v ≠ encode i) →
    step s = .next { s with
      inputs := rest, cmd := v, err := .illegalCommand, serr := s.serr ||| 0b0100000#7, outcnt := 0 }

/-- R60, R61, R32: a host read delivers the register's value and changes nothing in the block. -/
def Obligations.HostReadDeliversTheRegister : Prop :=
  ∀ (s : State) (idx : BitVec 8) (rest : List HostAccess),
    s.inputs = .read idx :: rest →
    step s = .next { s with
      inputs := rest,
      readData := s.readData ++
        [if idx.toNat = 0 then s.cmd
         else if idx.toNat = 1 then statusWord config s
         else if idx.toNat = 2 then s.res
         else if idx.toNat = 3 then s.outcnt
         else if idx.toNat = 4 then s.cur.setWidth 64
         else if idx.toNat = 5 then s.ctr
         else if idx.toNat = 6 then 0x0106040080200040#64
         else if idx.toNat = 7 then 0
         else if idx.toNat < 14 then s.d.getD (idx.toNat - 8) 0
         else 0] }

/-- R27, R241: the fields of `STATUS` and their bits, and the numbers of the completion codes. -/
def Obligations.StatusHoldsItsFields : Prop :=
  ∀ s : State,
    (statusWord config s).getLsbD 0 = s.wgValid ∧
    (statusWord config s).getLsbD 1 = s.wgDet ∧
    (statusWord config s).getLsbD 2 = s.ksValid ∧
    (statusWord config s).getLsbD 3 = s.ksDet ∧
    (statusWord config s).getLsbD 4 = (s.ksValid && decide (s.cur.toNat < 64)) ∧
    (statusWord config s).extractLsb' 5 3 = 0 ∧
    (statusWord config s).extractLsb' 8 8 =
      (match s.err with
       | .ok => 0#8
       | .entropyUnavailable => 1#8
       | .invalidBound => 2#8
       | .invalidRange => 3#8
       | .lengthTooShort => 4#8
       | .counterExhausted => 5#8
       | .illegalCommand => 6#8
       | .notSeeded => 7#8) ∧
    (statusWord config s).getLsbD 16 = false ∧
    (statusWord config s).extractLsb' 17 7 = s.serr ∧
    (statusWord config s).extractLsb' 24 40 = 0

/-- R61, R32, R22: a host write sets a data register, or is ignored. -/
def Obligations.HostWriteSetsDataRegistersOnly : Prop :=
  ∀ (s : State) (idx : BitVec 8) (v : Word) (rest : List HostAccess),
    s.inputs = .write idx v :: rest → idx ≠ 0 →
    step s = .next { s with
      inputs := rest,
      d := if 8 ≤ idx.toNat ∧ idx.toNat < 14 then s.d.set (idx.toNat - 8) v else s.d }

/-- R47, R280: the state after reset, at the default parameters. -/
def Obligations.ResetStateFollowsTheTable : Prop :=
  State.reset.d = [0, 0, 0, 0, 0, 0] ∧ State.reset.res = 0 ∧ State.reset.cmd = 0 ∧
  statusWord config State.reset = 0 ∧
  State.reset.wgValid = false ∧ State.reset.wgDet = false ∧ State.reset.ksValid = false ∧
  State.reset.ksDet = false ∧ State.reset.err = .ok ∧ State.reset.serr = 0 ∧
  State.reset.outcnt = 0 ∧ hostRead config 6 State.reset = 0x0106040080200040#64 ∧
  State.reset.wg = ⟨0, 0, 0, 0⟩ ∧
  State.reset.key = List.replicate 32 0 ∧ State.reset.nonce = List.replicate 8 0 ∧
  State.reset.buf = List.replicate 64 0 ∧ State.reset.ctr = 0 ∧ State.reset.cur = 64 ∧
  State.reset.acc = 0 ∧ State.reset.nb = 0 ∧ State.reset.out = []

/-- R281; log entry 9 (the model's choice): the reset input puts every piece of the block's state at its
reset value; the inputs to come and the record of what went out are outside the block. -/
def Obligations.ResetInputRestoresTheResetState : Prop :=
  ∀ (s : State) (rest : List HostAccess),
    s.inputs = .reset :: rest →
    step s = .next { State.reset with
      inputs := rest, readData := s.readData, entropy := s.entropy, requests := s.requests }

/-! ### Control commands -/

/-- R230: `NOP`, the value 0, writes `ERR` and `OUTCNT`, and nothing else. -/
def Obligations.NopWritesErrAndOutcntOnly : Prop :=
  encode .nop = 0x00000000 ∧
  ∀ s : State, exec .nop s = .next { s with err := .ok, outcnt := 0 }

/-- R231: `CLRERR`, the value 1, clears the sticky mask and repairs nothing. -/
def Obligations.ClrerrClearsTheStickyMaskOnly : Prop :=
  encode .clrerr = 0x00000001 ∧
  ∀ s : State, exec .clrerr s = .next { s with serr := 0, err := .ok, outcnt := 0 }

/-! ### The Word Generator -/

/-- R121, R122, R124: `WG.NEXT` of the default `WG_STEP`. -/
def Obligations.WgNextDeliversTheNextWord : Prop :=
  ∀ s : State, s.wgValid = true →
    exec .wgNext s = .next { s with
      res := (s.wg.w0 + s.wg.w3).rotateLeft 23 + s.wg.w0,
      wg := ⟨s.wg.w0 ^^^ s.wg.w3 ^^^ s.wg.w1, s.wg.w1 ^^^ s.wg.w2 ^^^ s.wg.w0,
             s.wg.w2 ^^^ s.wg.w0 ^^^ (s.wg.w1 <<< 17), (s.wg.w3 ^^^ s.wg.w1).rotateLeft 45⟩,
      err := .ok, outcnt := 0 }

/-- R123, properties 2 and 3: the state map is a permutation, is linear, and fixes the zero state. -/
def Obligations.StateMapIsALinearPermutation : Prop :=
  Function.Bijective (wgSucc config) ∧
  (∀ p q : Quad, wgSucc config (p.xor q) = (wgSucc config p).xor (wgSucc config q)) ∧
  wgSucc config Quad.zero = Quad.zero

/-- R125, R128, R66: `WG.SEEDE` makes one request for 32 bytes and takes them as little-endian words, unmixed;
32 zero bytes, and only they, are replaced by `SEED_MIX(0,0,0,0)`. The port's answer is an input of the run
where the run lists one, and free otherwise (log entry 5, the model's form). -/
def Obligations.WgSeedeTakesTheEntropyBytes : Prop :=
  ∀ (s : State) (e : List Byte),
    (entropyAnswer 32 s = some e →
      exec .wgSeede s = .next { s with
        wg := if e = List.replicate 32 0 then
                ⟨0xE220A8397B1DCDAF#64, 0x6E789E6AA1B965F4#64, 0x06C45D188009454F#64, 0xF88BB8A8724C81EC#64⟩
              else ⟨le64 (e.take 8), le64 ((e.drop 8).take 8), le64 ((e.drop 16).take 8), le64 ((e.drop 24).take 8)⟩,
        wgValid := true, wgDet := false, err := .ok, outcnt := 0,
        entropy := s.entropy.tail, requests := s.requests ++ [.entropy 32] }) ∧
    (∀ rest : List EntropyAnswer, s.entropy = .ok e :: rest → e.length = 32 → entropyAnswer 32 s = some e)

/-- R242, R66: a failed entropy request seeds nothing; one request is made, for the bytes of R125 and R159. -/
def Obligations.EntropyFailureSeedsNothing : Prop :=
  ∀ (s : State) (i : Instr) (n : Nat),
    (i = .wgSeede ∧ n = 32 ∨ i = .ksSeede ∧ n = 40) →
    (entropyAnswer n s = none →
      exec i s = .next { s with
        err := .entropyUnavailable, serr := s.serr ||| 0b0000001#7, outcnt := 0,
        entropy := s.entropy.tail, requests := s.requests ++ [.entropy n] }) ∧
    (∀ rest : List EntropyAnswer, s.entropy = .fail :: rest → entropyAnswer n s = none)

/-- R126, R127, R128: `WG.SEED` mixes `D[0..3]`; the one tuple of operands that reaches the zero guard is R128's. -/
def Obligations.WgSeedMixesTheSeedWords : Prop :=
  ∀ s : State,
    exec .wgSeed s = .next { s with
      wg := if s.d.getD 0 0 = 0x61C8864680B583EB#64 ∧ s.d.getD 1 0 = 0xC3910C8D016B07D6#64 ∧
               s.d.getD 2 0 = 0x255992D382208BC1#64 ∧ s.d.getD 3 0 = 0x8722191A02D60FAC#64 then
              ⟨0xE220A8397B1DCDAF#64, 0x6E789E6AA1B965F4#64, 0x06C45D188009454F#64, 0xF88BB8A8724C81EC#64⟩
            else
              ⟨mixFin (s.d.getD 0 0 + 0x9E3779B97F4A7C15#64), mixFin (s.d.getD 1 0 + 0x3C6EF372FE94F82A#64),
               mixFin (s.d.getD 2 0 + 0xDAA66D2C7DDF743F#64), mixFin (s.d.getD 3 0 + 0x78DDE6E5FD29F054#64)⟩,
      wgValid := true, wgDet := true, err := .ok, outcnt := 0 }

/-- R129: `WG.JUMP` leaves the state as if `2^128` words had been generated. -/
def Obligations.WgJumpAdvancesByTwoPow128 : Prop :=
  ∀ s : State, s.wgValid = true →
    exec .wgJump s = .next { s with
      wg := (wgSucc config)^[2 ^ 128] s.wg, err := .ok, outcnt := 0 }

/-- R129: what `WG.JUMP` writes; the state it leaves is the sum of the states after `k` steps over the
coefficients `k` of `JUMP_POLY` that are 1. -/
def Obligations.WgJumpSumsTheStepsOfThePolynomial : Prop :=
  ∀ s : State, s.wgValid = true →
    exec .wgJump s = .next { s with
      wg := (((List.range 256).filter fun k =>
               (([0x180EC6D33CFD0ABA#64, 0xD5A61266F0C9392C#64, 0xA9582618E03FC9AA#64,
                  0x39ABDC4529B1661C#64] : List Word).getD (k / 64) 0).getLsbD (k % 64)).map
               fun k => wgAfter config s.wg k).foldl Quad.xor Quad.zero,
      err := .ok, outcnt := 0 }

/-- R131: a jump commutes with a step. -/
def Obligations.JumpCommutesWithStep : Prop :=
  ∀ s : State, s.wgValid = true →
    ∃ t1 t2 u1 u2 : State,
      exec .wgJump s = .next t1 ∧ exec .wgNext t1 = .next t2 ∧
      exec .wgNext s = .next u1 ∧ exec .wgJump u1 = .next u2 ∧ t2.wg = u2.wg

/-- R132: `WG.DROP` zeroes and unseeds the Word Generator, and nothing else. -/
def Obligations.WgDropZeroesTheWordGenerator : Prop :=
  ∀ s : State,
    exec .wgDrop s = .next { s with
      wg := ⟨0, 0, 0, 0⟩, wgValid := false, wgDet := false, err := .ok, outcnt := 0 }

/-! ### The Keystream Generator -/

/-- R159, R66: `KS.SEEDE` makes one request for key and nonce together, key bytes first, and leaves the machine
Exhausted with counter 0. The port's answer is an input of the run where the run lists one, and free otherwise
(log entry 5, the model's form). -/
def Obligations.KsSeedeTakesKeyThenNonce : Prop :=
  ∀ (s : State) (e : List Byte),
    (entropyAnswer 40 s = some e →
      exec .ksSeede s = .next { s with
        key := e.take 32, nonce := e.drop 32, ctr := 0, cur := 64, ksValid := true, ksDet := false,
        err := .ok, outcnt := 0,
        entropy := s.entropy.tail, requests := s.requests ++ [.entropy 40] }) ∧
    (∀ rest : List EntropyAnswer, s.entropy = .ok e :: rest → e.length = 40 → entropyAnswer 40 s = some e)

/-- R160: `KS.SEED` reads key, nonce and counter from `D[0..5]`, little-endian. -/
def Obligations.KsSeedLoadsKeyNonceAndCounter : Prop :=
  ∀ s : State,
    exec .ksSeed s = .next { s with
      key := (List.range 32).map fun j => (s.d.getD (j / 8) 0).extractLsb' (8 * (j % 8)) 8,
      nonce := (List.range 8).map fun j => (s.d.getD 4 0).extractLsb' (8 * j) 8,
      ctr := s.d.getD 5 0, cur := 64, ksValid := true, ksDet := true, err := .ok, outcnt := 0 }

/-- R161: `KS.DROP` zeroes and unseeds the Keystream Generator, and nothing else. -/
def Obligations.KsDropZeroesTheKeystreamGenerator : Prop :=
  ∀ s : State,
    exec .ksDrop s = .next { s with
      key := List.replicate 32 0, nonce := List.replicate 8 0, buf := List.replicate 64 0,
      ctr := 0, cur := 64, ksValid := false, ksDet := false, err := .ok, outcnt := 0 }

/-- R153, R155: the three cases of `KsByte()`. -/
def Obligations.KeystreamByteRefillsWhenExhausted : Prop :=
  ∀ s : State,
    (s.cur.toNat < 64 →
      ksByte config s = .done (s.buf.getD s.cur.toNat 0) { s with cur := s.cur + 1 }) ∧
    (s.cur.toNat = 64 → s.ctr.toNat < 2 ^ 64 - 1 →
      ksByte config s = .done (Config.freeBlockByte s.key s.nonce s.ctr 0)
        { s with buf := (List.range 64).map (Config.freeBlockByte s.key s.nonce s.ctr), cur := 1,
                 ctr := s.ctr + 1, requests := s.requests ++ [.block s.key s.nonce s.ctr] }) ∧
    (s.cur.toNat = 64 → s.ctr.toNat = 2 ^ 64 - 1 →
      ksByte config s = .raised .counterExhausted s)

/-- R156, R157: `KS.NEXT` delivers the next eight keystream bytes as a little-endian word, across a block
boundary if need be. -/
def Obligations.KsNextDeliversTheNextWord : Prop :=
  ∀ s : State, s.ksValid = true → s.cur.toNat ≤ 64 → 8 ≤ bytesLeft config s →
    exec .ksNext s = .next { afterBytes config s 8 with
      res := comingWord config s 0, err := .ok, outcnt := 0 }

/-- R155, R157, R251, R246: with fewer than eight bytes left, every command that needs a keystream word consumes
them, leaves `RES`, and reports the exhausted counter. R183, R184, R251: so do the rejection loops when every word
that can still be drawn, however many there are, is rejected: all bytes left are taken, and nothing else changes. -/
def Obligations.SecureWordsEndWithTheCounter : Prop :=
  (∀ (s : State) (i : Instr),
    s.ksValid = true → s.cur.toNat ≤ 64 → bytesLeft config s < 8 →
    (i = .ksNext ∨ i = .uF64 .ks ∨ i = .uBool .ks ∨ i = .uDigit .ks ∨
      (i = .uBound .ks ∧ s.d.getD 0 0 ≠ 0) ∨
      (i = .uRange .ks ∧ (s.d.getD 0 0).toInt < (s.d.getD 1 0).toInt)) →
    s.ctr = ctrMax ∧
    exec i s = .next { s with
      cur := 64, err := .counterExhausted, serr := s.serr ||| 0b0010000#7, outcnt := 0 }) ∧
  ∀ (s : State) (i : Instr) (n : Word),
    s.ksValid = true → s.cur.toNat ≤ 64 →
    (i = .uBound .ks ∧ n = s.d.getD 0 0 ∧ n ≠ 0 ∨
     i = .uRange .ks ∧ n = s.d.getD 1 0 - s.d.getD 0 0 ∧ (s.d.getD 0 0).toInt < (s.d.getD 1 0).toInt ∨
     i = .uDigit .ks ∧ n = 10) →
    (∀ k, 8 * (k + 1) ≤ bytesLeft config s → accepted n (comingWord config s k) = false) →
    exec i s = .next { afterBytes config s (bytesLeft config s) with
      err := .counterExhausted, serr := s.serr ||| 0b0010000#7, outcnt := 0 } ∧
    (afterBytes config s (bytesLeft config s)).cur = 64 ∧
    (afterBytes config s (bytesLeft config s)).ctr = ctrMax

/-- R158: `KS.FILL` writes the next `D[0]` keystream bytes to OUT. -/
def Obligations.KsFillWritesTheNextBytes : Prop :=
  ∀ s : State, s.ksValid = true → s.cur.toNat ≤ 64 → (s.d.getD 0 0).toNat ≤ bytesLeft config s →
    exec .ksFill s = .next { afterBytes config s (s.d.getD 0 0).toNat with
      out := s.out ++ comingBytes config s (s.d.getD 0 0).toNat, err := .ok, outcnt := s.d.getD 0 0 }

/-- R158, R251: a `KS.FILL` of more bytes than are left writes those left, counts them, and reports the
exhausted counter. -/
def Obligations.KsFillCutShortByTheCounter : Prop :=
  ∀ s : State, s.ksValid = true → s.cur.toNat ≤ 64 → bytesLeft config s < (s.d.getD 0 0).toNat →
    exec .ksFill s = .next { afterBytes config s (bytesLeft config s) with
      out := s.out ++ comingBytes config s (bytesLeft config s), err := .counterExhausted,
      serr := s.serr ||| 0b0010000#7, outcnt := BitVec.ofNat 64 (bytesLeft config s) } ∧
    (afterBytes config s (bytesLeft config s)).cur = 64 ∧
    (afterBytes config s (bytesLeft config s)).ctr = ctrMax

/-- R154: after a `KS.SEED` with counter `c0`, byte `j` taken is byte `j mod 64` of block `c0 + j / 64`, none
skipped and none twice, and the position follows from counter and cursor. -/
def Obligations.KeystreamLaw : Prop :=
  ∀ (s s1 : State) (n : Nat),
    exec .ksSeed s = .next s1 → n ≤ (2 ^ 64 - 1 - (s.d.getD 5 0).toNat) * 64 →
    ∃ t : State,
      ksBytes config n s1 = .done
        ((List.range n).map fun j =>
          Config.freeBlockByte s1.key s1.nonce (s.d.getD 5 0 + BitVec.ofNat 64 (j / 64)) (j % 64)) t ∧
      t.cur.toNat ≤ 64 ∧
      (n : Int) = ((t.ctr.toNat : Int) - (s.d.getD 5 0).toNat) * 64 - (64 - t.cur.toNat)

/-- R71: eight bytes by `KS.FILL` are the word `KS.NEXT` would have given, and take the same keystream. -/
def Obligations.FillOfEightBytesEqualsOneWord : Prop :=
  ∀ s : State, s.ksValid = true → s.cur.toNat ≤ 64 → 8 ≤ bytesLeft config s → s.d.getD 0 0 = 8 →
    ∃ t u : State, exec .ksFill s = .next t ∧ exec .ksNext s = .next u ∧
      u.res = le64 (t.out.drop s.out.length) ∧
      t.cur = u.cur ∧ t.ctr = u.ctr ∧ t.buf = u.buf ∧ t.requests = u.requests

/-- R162, R155, R67: between seedings the counter never wraps, and the blocks a command asks for are those of
the counter values it passes, each once and in order. -/
def Obligations.BlockRequestsFollowTheCounter : Prop :=
  ∀ (i : Instr) (s t : State),
    i ≠ .wgSeede → reseedsKs i = false → exec i s = .next t →
    ∃ k, t.ctr.toNat = s.ctr.toNat + k ∧ t.requests = s.requests ++ blockRequests s k

/-! ### The Uniform Sampler -/

/-- R182: `THRESH(n)` is `2^64 mod n`, computed in 64 bits as `(0 - n) mod n`, and is below `n`. -/
def Obligations.ThreshIsTwoPow64ModN : Prop :=
  ∀ n : Word, n ≠ 0 →
    thresh n = (0 - n) % n ∧ (thresh n).toNat = 2 ^ 64 % n.toNat ∧ (thresh n).toNat < n.toNat

/-- R193: for every bound `n >= 1` each value below it is made by exactly `floor(2^64 / n)` accepted words. -/
def Obligations.AcceptedWordsAreUniform : Prop :=
  ∀ n v : Word, v.toNat < n.toNat →
    (Finset.univ.filter fun x : Fin (2 ^ 64) =>
      accepted n (BitVec.ofFin x) = true ∧ mulHi (BitVec.ofFin x) n = v).card = 2 ^ 64 / n.toNat

/-- R183, R184, R192: `U.BOUND` completes with the first accepted word, however many were rejected before it. -/
def Obligations.UBoundDeliversTheFirstAcceptedWord : Prop :=
  ∀ (src : Src) (s : State) (k : Nat),
    seeded src s = true → s.cur.toNat ≤ 64 → s.d.getD 0 0 ≠ 0 → canDrawTo config src s k →
    (∀ j, j < k → accepted (s.d.getD 0 0) (comingDraw config src s j) = false) →
    accepted (s.d.getD 0 0) (comingDraw config src s k) = true →
    exec (.uBound src) s = .next { afterDraws config src s (k + 1) with
      res := mulHi (comingDraw config src s k) (s.d.getD 0 0), err := .ok, outcnt := 0 }

/-- R184: a result of `U.BOUND` is below the bound. -/
def Obligations.UBoundResultIsBelowTheBound : Prop :=
  ∀ (src : Src) (s t : State),
    exec (.uBound src) s = .next t → t.err = .ok → t.res.toNat < (s.d.getD 0 0).toNat

/-- R185: `U.BOUND` with `n = 1` takes exactly one word and gives 0; from the keystream that word can exhaust
the counter. -/
def Obligations.UBoundOfOneTakesOneWord : Prop :=
  ∀ (src : Src) (s : State),
    seeded src s = true → s.cur.toNat ≤ 64 → s.d.getD 0 0 = 1 →
    (canDrawTo config src s 0 →
      exec (.uBound src) s = .next { afterDraws config src s 1 with res := 0, err := .ok, outcnt := 0 }) ∧
    (src = .ks → bytesLeft config s < 8 →
      exec (.uBound src) s = .next { s with
        cur := 64, err := .counterExhausted, serr := s.serr ||| 0b0010000#7, outcnt := 0 })

/-- R186, R183: `U.RANGE` adds to `min` the bounded value of the span `max - min`. -/
def Obligations.URangeAddsTheBoundedSpan : Prop :=
  ∀ (src : Src) (s : State) (k : Nat),
    seeded src s = true → s.cur.toNat ≤ 64 → (s.d.getD 0 0).toInt < (s.d.getD 1 0).toInt →
    canDrawTo config src s k →
    (∀ j, j < k → accepted (s.d.getD 1 0 - s.d.getD 0 0) (comingDraw config src s j) = false) →
    accepted (s.d.getD 1 0 - s.d.getD 0 0) (comingDraw config src s k) = true →
    exec (.uRange src) s = .next { afterDraws config src s (k + 1) with
      res := s.d.getD 0 0 + mulHi (comingDraw config src s k) (s.d.getD 1 0 - s.d.getD 0 0),
      err := .ok, outcnt := 0 }

/-- R187, R186: a result of `U.RANGE` lies in `[min, max)`, as signed integers. -/
def Obligations.URangeResultIsInTheRange : Prop :=
  ∀ (src : Src) (s t : State),
    exec (.uRange src) s = .next t → t.err = .ok →
    (s.d.getD 0 0).toInt ≤ t.res.toInt ∧ t.res.toInt < (s.d.getD 1 0).toInt

/-- R243, R244: a bound of 0 and an empty range are reported after the seeded check and before any draw, and
change nothing but the status. -/
def Obligations.InvalidOperandsDrawNoWord : Prop :=
  ∀ (src : Src) (s : State), seeded src s = true →
    (s.d.getD 0 0 = 0 →
      exec (.uBound src) s = .next { s with
        err := .invalidBound, serr := s.serr ||| 0b0000010#7, outcnt := 0 }) ∧
    ((s.d.getD 1 0).toInt ≤ (s.d.getD 0 0).toInt →
      exec (.uRange src) s = .next { s with
        err := .invalidRange, serr := s.serr ||| 0b0000100#7, outcnt := 0 })

/-- R188: `U.F64` takes one word and delivers the encoding of its top 53 bits. -/
def Obligations.UF64DeliversTheTop53Bits : Prop :=
  ∀ (src : Src) (s : State),
    seeded src s = true → s.cur.toNat ≤ 64 → canDrawTo config src s 0 →
    exec (.uF64 src) s = .next { afterDraws config src s 1 with
      res := f64Bits (comingDraw config src s 0 >>> 11), err := .ok, outcnt := 0 }

/-- R189, R188: the binary64 fields of `F64Bits(m)` make exactly `m * 2^-53`: with exponent field `e` and
fraction field `f` the value is `(2^52 + f) * 2^(e - 1075)`, so `(2^52 + f) * 2^(e - 970) = m * 2^52`. -/
def Obligations.F64BitsEncodeTheScaledWord : Prop :=
  f64Bits 0 = 0 ∧
  ∀ m : Word, 1 ≤ m.toNat → m.toNat < 2 ^ 53 →
    (f64Bits m).getLsbD 63 = false ∧
    970 ≤ ((f64Bits m).extractLsb' 52 11).toNat ∧ ((f64Bits m).extractLsb' 52 11).toNat ≤ 1022 ∧
    (2 ^ 52 + ((f64Bits m).extractLsb' 0 52).toNat) * 2 ^ (((f64Bits m).extractLsb' 52 11).toNat - 970) =
      m.toNat * 2 ^ 52

/-- R190: `U.BOOL` takes one word and delivers its bit 63. -/
def Obligations.UBoolDeliversTheTopBit : Prop :=
  ∀ (src : Src) (s : State),
    seeded src s = true → s.cur.toNat ≤ 64 → canDrawTo config src s 0 →
    exec (.uBool src) s = .next { afterDraws config src s 1 with
      res := if (comingDraw config src s 0).getLsbD 63 then 1 else 0, err := .ok, outcnt := 0 }

/-- R191, R183: `U.DIGIT` delivers a character code from `0x30` to `0x39`. -/
def Obligations.UDigitDeliversADigit : Prop :=
  ∀ (src : Src) (s : State) (k : Nat),
    seeded src s = true → s.cur.toNat ≤ 64 → canDrawTo config src s k →
    (∀ j, j < k → accepted 10 (comingDraw config src s j) = false) →
    accepted 10 (comingDraw config src s k) = true →
    exec (.uDigit src) s = .next { afterDraws config src s (k + 1) with
      res := 0x30 + mulHi (comingDraw config src s k) 10, err := .ok, outcnt := 0 } ∧
    0x30 ≤ (0x30 + mulHi (comingDraw config src s k) 10).toNat ∧
    (0x30 + mulHi (comingDraw config src s k) 10).toNat ≤ 0x39

/-- R289, R192 (93_implementation_defined.md U22): `U.BOUND`, `U.RANGE` and `U.DIGIT` from the fast path hang
exactly when no word that is to come is ever accepted for their bound (`D[0]`, the span, 10); no bound on the draws
stands between (log entry 7). -/
def Obligations.UBoundHangsOnlyWhenNoWordIsAccepted : Prop :=
  ∀ s : State, s.wgValid = true →
    (s.d.getD 0 0 ≠ 0 →
      (exec (.uBound .wg) s = .fault .rejectionLoopNeverEnds ↔
        ∀ k, accepted (s.d.getD 0 0) (wgWord config s.wg k) = false)) ∧
    ((s.d.getD 0 0).toInt < (s.d.getD 1 0).toInt →
      (exec (.uRange .wg) s = .fault .rejectionLoopNeverEnds ↔
        ∀ k, accepted (s.d.getD 1 0 - s.d.getD 0 0) (wgWord config s.wg k) = false)) ∧
    (exec (.uDigit .wg) s = .fault .rejectionLoopNeverEnds ↔
      ∀ k, accepted 10 (wgWord config s.wg k) = false)

/-- R192, R293: every command answers a next state, but for the rejection loop on the fast path; whatever the
configuration (R6). -/
def Obligations.OnlyTheFastRejectionLoopCanHang : Prop :=
  ∀ (i : Instr) (s : State),
    i ≠ .uBound .wg → i ≠ .uRange .wg → i ≠ .uDigit .wg →
    Completes (exec i s) ∧ ∀ c : Config, c.SizesFit → Completes (execWith c i s)

/-! ### The Text Encoder -/

/-- R214, R215, R216: `TX.TEXT` writes `D[0]` characters, character `i` indexed by bits `i*b .. i*b + b - 1` of
the keystream, and takes exactly `ceil(n * BITS / 8)` bytes. -/
def Obligations.TxTextWritesTheText : Prop :=
  ∀ (s : State) (alpha : BitVec 4) (a : Alphabet),
    defaultAlphabets[alpha.toNat]? = some a → s.ksValid = true → s.cur.toNat ≤ 64 →
    minLen a ≤ (s.d.getD 0 0).toNat → textBytes a (s.d.getD 0 0).toNat ≤ bytesLeft config s →
    exec (.txText alpha) s = .next { afterBytes config s (textBytes a (s.d.getD 0 0).toNat) with
      out := s.out ++ (List.range (s.d.getD 0 0).toNat).map (comingChar config a s),
      acc := 0, nb := 0, err := .ok, outcnt := s.d.getD 0 0 }

/-- R215, R251: a text cut short leaves the characters that were made in OUT, counts them, and reports the
exhausted counter. That the accumulator is empty after the fault too is the model's reading of R44 (log entry 12,
DEDUCED). -/
def Obligations.TxTextCutShortByTheCounter : Prop :=
  ∀ (s : State) (alpha : BitVec 4) (a : Alphabet),
    defaultAlphabets[alpha.toNat]? = some a → s.ksValid = true → s.cur.toNat ≤ 64 →
    minLen a ≤ (s.d.getD 0 0).toNat → bytesLeft config s < textBytes a (s.d.getD 0 0).toNat →
    exec (.txText alpha) s = .next { afterBytes config s (bytesLeft config s) with
      out := s.out ++ (List.range (charsLeft config a s)).map (comingChar config a s),
      acc := 0, nb := 0, err := .counterExhausted, serr := s.serr ||| 0b0010000#7,
      outcnt := BitVec.ofNat 64 (charsLeft config a s) }

/-- R245, R213: the minimum lengths are 32, 32, 26 and 22; a shorter text is refused before anything is taken. -/
def Obligations.ShortTextsAreRefused : Prop :=
  ∀ (s : State) (alpha : BitVec 4), alpha.toNat < 4 → s.ksValid = true →
    (s.d.getD 0 0).toNat < [32, 32, 26, 22].getD alpha.toNat 0 →
    exec (.txText alpha) s = .next { s with
      err := .lengthTooShort, serr := s.serr ||| 0b0001000#7, outcnt := 0 }

/-- R212: the four alphabets, `BITS` and the character codes, index 0 first. R217, R215: what a completed text
appended to OUT has exactly the length asked for, and every byte of it is a character of the alphabet. R217, R213,
of every well-formed alphabet (log entry 22, DEDUCED, has no character twice): a text of the minimum length or more
takes at least `SECURITY_BITS` bits, and distinct bit strings give distinct texts, since texts that are equal were
made of the same bits. -/
def Obligations.TextsHaveTheirLengthAndAlphabet : Prop :=
  defaultAlphabets =
    [ ⟨4, [0x30#8, 0x31#8, 0x32#8, 0x33#8, 0x34#8, 0x35#8, 0x36#8, 0x37#8, 0x38#8, 0x39#8, 0x41#8, 0x42#8,
        0x43#8, 0x44#8, 0x45#8, 0x46#8]⟩,
      ⟨4, [0x30#8, 0x31#8, 0x32#8, 0x33#8, 0x34#8, 0x35#8, 0x36#8, 0x37#8, 0x38#8, 0x39#8, 0x61#8, 0x62#8,
        0x63#8, 0x64#8, 0x65#8, 0x66#8]⟩,
      ⟨5, [0x41#8, 0x42#8, 0x43#8, 0x44#8, 0x45#8, 0x46#8, 0x47#8, 0x48#8, 0x49#8, 0x4A#8, 0x4B#8, 0x4C#8,
        0x4D#8, 0x4E#8, 0x4F#8, 0x50#8, 0x51#8, 0x52#8, 0x53#8, 0x54#8, 0x55#8, 0x56#8, 0x57#8, 0x58#8,
        0x59#8, 0x5A#8, 0x32#8, 0x33#8, 0x34#8, 0x35#8, 0x36#8, 0x37#8]⟩,
      ⟨6, [0x41#8, 0x42#8, 0x43#8, 0x44#8, 0x45#8, 0x46#8, 0x47#8, 0x48#8, 0x49#8, 0x4A#8, 0x4B#8, 0x4C#8,
        0x4D#8, 0x4E#8, 0x4F#8, 0x50#8, 0x51#8, 0x52#8, 0x53#8, 0x54#8, 0x55#8, 0x56#8, 0x57#8, 0x58#8,
        0x59#8, 0x5A#8, 0x61#8, 0x62#8, 0x63#8, 0x64#8, 0x65#8, 0x66#8, 0x67#8, 0x68#8, 0x69#8, 0x6A#8,
        0x6B#8, 0x6C#8, 0x6D#8, 0x6E#8, 0x6F#8, 0x70#8, 0x71#8, 0x72#8, 0x73#8, 0x74#8, 0x75#8, 0x76#8,
        0x77#8, 0x78#8, 0x79#8, 0x7A#8, 0x30#8, 0x31#8, 0x32#8, 0x33#8, 0x34#8, 0x35#8, 0x36#8, 0x37#8,
        0x38#8, 0x39#8, 0x2D#8, 0x5F#8]⟩ ] ∧
  config.alphabets = defaultAlphabets ∧
  (∀ (s t : State) (alpha : BitVec 4) (a : Alphabet),
    defaultAlphabets[alpha.toNat]? = some a → exec (.txText alpha) s = .next t → t.err = .ok →
    ∃ text : List Byte, t.out = s.out ++ text ∧ text.length = (s.d.getD 0 0).toNat ∧
      ∀ b ∈ text, b ∈ a.chars) ∧
  (∀ (a : Alphabet) (n : Nat), a.WellFormed → minLen a ≤ n → 128 ≤ n * a.bits) ∧
  ∀ (c : Config) (a : Alphabet) (s s' : State) (n : Nat), a.WellFormed →
    (List.range n).map (comingChar c a s) = (List.range n).map (comingChar c a s') →
    ∀ p, p < n * a.bits → comingBit c s p = comingBit c s' p

/-! ### The whole machine -/

/-- R248, R249: a command that needs an unseeded generator reports `NotSeeded` before it looks at its
operands, and changes nothing but the status; and no other command reports it. -/
def Obligations.UnseededGeneratorsDeliverNothing : Prop :=
  ∀ (i : Instr) (s : State),
    (∀ src : Src, i.WellFormed config → needs i = some src → seeded src s = false →
      exec i s = .next { s with err := .notSeeded, serr := s.serr ||| 0b1000000#7, outcnt := 0 }) ∧
    (∀ t : State, exec i s = .next t → t.err = .notSeeded →
      ∃ src : Src, needs i = some src ∧ seeded src s = false)

/-- R251, R250: what a fault leaves behind. -/
def Obligations.FaultsArePrecise : Prop :=
  ∀ (i : Instr) (s t : State),
    exec i s = .next t → t.err ≠ .ok →
    t.res = s.res ∧ t.serr = s.serr ||| t.err.sticky ∧
    (t.err ≠ .counterExhausted →
      t = { s with err := t.err, serr := t.serr, outcnt := 0, entropy := t.entropy, requests := t.requests }) ∧
    (t.err = .counterExhausted → s.cur.toNat ≤ 64 → t.cur = 64 ∧ t.ctr = ctrMax)

/-- R24, R22, R26: `RES` is written only by a command of the sampler, `WG.NEXT` or `KS.NEXT` that completes
`OK`; no command writes a data register, `CMD`, or the host's side of the port. -/
def Obligations.RegistersNoCommandWrites : Prop :=
  ∀ (i : Instr) (s t : State),
    exec i s = .next t →
    t.d = s.d ∧ t.cmd = s.cmd ∧ t.inputs = s.inputs ∧ t.readData = s.readData ∧
    (t.res ≠ s.res → t.err = .ok ∧
      (i = .wgNext ∨ i = .ksNext ∨
        ∃ src, i = .uBound src ∨ i = .uRange src ∨ i = .uF64 src ∨ i = .uBool src ∨ i = .uDigit src))

/-- R27, R250: no command but `CLRERR` clears a sticky bit, and each sets that of its own completion code only. -/
def Obligations.StickyBitsStayUntilCleared : Prop :=
  ∀ (i : Instr) (s t : State),
    i ≠ .clrerr → exec i s = .next t → t.serr = s.serr ||| t.err.sticky

/-- R29, R68: OUT only grows, `OUTCNT` counts the bytes the command appended, and only `KS.FILL` and
`TX.TEXT` append any. -/
def Obligations.OutcntCountsTheBytesAppended : Prop :=
  ∀ (i : Instr) (s t : State),
    exec i s = .next t →
    ∃ bytes : List Byte, t.out = s.out ++ bytes ∧ t.outcnt = BitVec.ofNat 64 bytes.length ∧
      (bytes ≠ [] → i = .ksFill ∨ ∃ alpha, i = .txText alpha)

/-- R3: a fast-path command neither reads nor writes the Keystream Generator. -/
def Obligations.FastPathIgnoresTheKeystream : Prop :=
  ∀ (i : Instr) (s : State) (key nonce buf : List Byte) (ctr : Word) (cur : BitVec 16) (valid det : Bool),
    (i = .wgSeede ∨ i = .wgSeed ∨ i = .wgDrop ∨ needs i = some .wg) →
    exec i { s with key := key, nonce := nonce, buf := buf, ctr := ctr, cur := cur,
                    ksValid := valid, ksDet := det } =
      match exec i s with
      | .next t => .next { t with key := key, nonce := nonce, buf := buf, ctr := ctr, cur := cur,
                                  ksValid := valid, ksDet := det }
      | .fault r => .fault r
      | .refused r => .refused r

/-- R3: a secure-path command neither reads nor writes the Word Generator. -/
def Obligations.SecurePathIgnoresTheWordGenerator : Prop :=
  ∀ (i : Instr) (s : State) (q : Quad) (valid det : Bool),
    (i = .ksSeede ∨ i = .ksSeed ∨ i = .ksDrop ∨ needs i = some .ks) →
    exec i { s with wg := q, wgValid := valid, wgDet := det } =
      match exec i s with
      | .next t => .next { t with wg := q, wgValid := valid, wgDet := det }
      | .fault r => .fault r
      | .refused r => .refused r

/-- R47: the invariants hold after reset, whatever the configuration. -/
def Obligations.ResetMeetsTheInvariant : Prop :=
  (Inv config State.reset ∧ WgNonzero State.reset) ∧
  ∀ c : Config, c.SizesFit → Inv c (State.resetWith c) ∧ WgNonzero (State.resetWith c)

/-- R22, R27, R36, R37, R38, R40, R42, R43, R44: every step keeps the sizes, the cursor in
`[0, BLOCK_LEN]`, the zeros of an unseeded generator, and the empty accumulator; whatever the configuration. -/
def Obligations.StepKeepsTheInvariant : Prop :=
  (∀ s t : State, Inv config s → step s = .next t → Inv config t) ∧
  ∀ c : Config, c.SizesFit → ∀ s t : State, Inv c s → stepWith c s = .next t → Inv c t

/-- R35: no step leaves a seeded Word Generator in the zero state; nor does one of any well-formed configuration,
whose `WG_STEP` is a linear permutation and whose `JUMP_POLY` is that of its `WG_STEP` (R123, R130). -/
def Obligations.StepKeepsTheWordGeneratorNonzero : Prop :=
  (∀ s t : State, WgNonzero s → step s = .next t → WgNonzero t) ∧
  ∀ c : Config, c.WellFormed → ∀ s t : State, WgNonzero s → stepWith c s = .next t → WgNonzero t
end

