-- ==== Sys2Proof/Laws/State.lean ====
section
/-! SUPPORT. What each named write of the state leaves in each field: one lemma per field per write, true by rfl.
Later proofs use these and unfold no record update. -/

namespace Sys2Proof.Machine

/-! ### State.complete -/

@[simp] theorem State.complete_cmd (why : Completion) (cnt : Nat) (s : State) :
    (s.complete why cnt).cmd = s.cmd := rfl
@[simp] theorem State.complete_wgValid (why : Completion) (cnt : Nat) (s : State) :
    (s.complete why cnt).wgValid = s.wgValid := rfl
@[simp] theorem State.complete_wgDet (why : Completion) (cnt : Nat) (s : State) :
    (s.complete why cnt).wgDet = s.wgDet := rfl
@[simp] theorem State.complete_ksValid (why : Completion) (cnt : Nat) (s : State) :
    (s.complete why cnt).ksValid = s.ksValid := rfl
@[simp] theorem State.complete_ksDet (why : Completion) (cnt : Nat) (s : State) :
    (s.complete why cnt).ksDet = s.ksDet := rfl
@[simp] theorem State.complete_err (why : Completion) (cnt : Nat) (s : State) :
    (s.complete why cnt).err = why := rfl
@[simp] theorem State.complete_serr (why : Completion) (cnt : Nat) (s : State) :
    (s.complete why cnt).serr = s.serr ||| why.sticky := rfl
@[simp] theorem State.complete_res (why : Completion) (cnt : Nat) (s : State) :
    (s.complete why cnt).res = s.res := rfl
@[simp] theorem State.complete_outcnt (why : Completion) (cnt : Nat) (s : State) :
    (s.complete why cnt).outcnt = BitVec.ofNat 64 cnt := rfl
@[simp] theorem State.complete_d (why : Completion) (cnt : Nat) (s : State) :
    (s.complete why cnt).d = s.d := rfl
@[simp] theorem State.complete_wg (why : Completion) (cnt : Nat) (s : State) :
    (s.complete why cnt).wg = s.wg := rfl
@[simp] theorem State.complete_key (why : Completion) (cnt : Nat) (s : State) :
    (s.complete why cnt).key = s.key := rfl
@[simp] theorem State.complete_nonce (why : Completion) (cnt : Nat) (s : State) :
    (s.complete why cnt).nonce = s.nonce := rfl
@[simp] theorem State.complete_ctr (why : Completion) (cnt : Nat) (s : State) :
    (s.complete why cnt).ctr = s.ctr := rfl
@[simp] theorem State.complete_cur (why : Completion) (cnt : Nat) (s : State) :
    (s.complete why cnt).cur = s.cur := rfl
@[simp] theorem State.complete_buf (why : Completion) (cnt : Nat) (s : State) :
    (s.complete why cnt).buf = s.buf := rfl
@[simp] theorem State.complete_acc (why : Completion) (cnt : Nat) (s : State) :
    (s.complete why cnt).acc = s.acc := rfl
@[simp] theorem State.complete_nb (why : Completion) (cnt : Nat) (s : State) :
    (s.complete why cnt).nb = s.nb := rfl
@[simp] theorem State.complete_out (why : Completion) (cnt : Nat) (s : State) :
    (s.complete why cnt).out = s.out := rfl
@[simp] theorem State.complete_inputs (why : Completion) (cnt : Nat) (s : State) :
    (s.complete why cnt).inputs = s.inputs := rfl
@[simp] theorem State.complete_readData (why : Completion) (cnt : Nat) (s : State) :
    (s.complete why cnt).readData = s.readData := rfl
@[simp] theorem State.complete_entropy (why : Completion) (cnt : Nat) (s : State) :
    (s.complete why cnt).entropy = s.entropy := rfl
@[simp] theorem State.complete_requests (why : Completion) (cnt : Nat) (s : State) :
    (s.complete why cnt).requests = s.requests := rfl

/-! ### State.setRes -/

@[simp] theorem State.setRes_cmd (v : Word) (s : State) :
    (s.setRes v).cmd = s.cmd := rfl
@[simp] theorem State.setRes_wgValid (v : Word) (s : State) :
    (s.setRes v).wgValid = s.wgValid := rfl
@[simp] theorem State.setRes_wgDet (v : Word) (s : State) :
    (s.setRes v).wgDet = s.wgDet := rfl
@[simp] theorem State.setRes_ksValid (v : Word) (s : State) :
    (s.setRes v).ksValid = s.ksValid := rfl
@[simp] theorem State.setRes_ksDet (v : Word) (s : State) :
    (s.setRes v).ksDet = s.ksDet := rfl
@[simp] theorem State.setRes_err (v : Word) (s : State) :
    (s.setRes v).err = s.err := rfl
@[simp] theorem State.setRes_serr (v : Word) (s : State) :
    (s.setRes v).serr = s.serr := rfl
@[simp] theorem State.setRes_res (v : Word) (s : State) :
    (s.setRes v).res = v := rfl
@[simp] theorem State.setRes_outcnt (v : Word) (s : State) :
    (s.setRes v).outcnt = s.outcnt := rfl
@[simp] theorem State.setRes_d (v : Word) (s : State) :
    (s.setRes v).d = s.d := rfl
@[simp] theorem State.setRes_wg (v : Word) (s : State) :
    (s.setRes v).wg = s.wg := rfl
@[simp] theorem State.setRes_key (v : Word) (s : State) :
    (s.setRes v).key = s.key := rfl
@[simp] theorem State.setRes_nonce (v : Word) (s : State) :
    (s.setRes v).nonce = s.nonce := rfl
@[simp] theorem State.setRes_ctr (v : Word) (s : State) :
    (s.setRes v).ctr = s.ctr := rfl
@[simp] theorem State.setRes_cur (v : Word) (s : State) :
    (s.setRes v).cur = s.cur := rfl
@[simp] theorem State.setRes_buf (v : Word) (s : State) :
    (s.setRes v).buf = s.buf := rfl
@[simp] theorem State.setRes_acc (v : Word) (s : State) :
    (s.setRes v).acc = s.acc := rfl
@[simp] theorem State.setRes_nb (v : Word) (s : State) :
    (s.setRes v).nb = s.nb := rfl
@[simp] theorem State.setRes_out (v : Word) (s : State) :
    (s.setRes v).out = s.out := rfl
@[simp] theorem State.setRes_inputs (v : Word) (s : State) :
    (s.setRes v).inputs = s.inputs := rfl
@[simp] theorem State.setRes_readData (v : Word) (s : State) :
    (s.setRes v).readData = s.readData := rfl
@[simp] theorem State.setRes_entropy (v : Word) (s : State) :
    (s.setRes v).entropy = s.entropy := rfl
@[simp] theorem State.setRes_requests (v : Word) (s : State) :
    (s.setRes v).requests = s.requests := rfl

/-! ### State.clearSticky -/

@[simp] theorem State.clearSticky_cmd (s : State) :
    s.clearSticky.cmd = s.cmd := rfl
@[simp] theorem State.clearSticky_wgValid (s : State) :
    s.clearSticky.wgValid = s.wgValid := rfl
@[simp] theorem State.clearSticky_wgDet (s : State) :
    s.clearSticky.wgDet = s.wgDet := rfl
@[simp] theorem State.clearSticky_ksValid (s : State) :
    s.clearSticky.ksValid = s.ksValid := rfl
@[simp] theorem State.clearSticky_ksDet (s : State) :
    s.clearSticky.ksDet = s.ksDet := rfl
@[simp] theorem State.clearSticky_err (s : State) :
    s.clearSticky.err = s.err := rfl
@[simp] theorem State.clearSticky_serr (s : State) :
    s.clearSticky.serr = 0 := rfl
@[simp] theorem State.clearSticky_res (s : State) :
    s.clearSticky.res = s.res := rfl
@[simp] theorem State.clearSticky_outcnt (s : State) :
    s.clearSticky.outcnt = s.outcnt := rfl
@[simp] theorem State.clearSticky_d (s : State) :
    s.clearSticky.d = s.d := rfl
@[simp] theorem State.clearSticky_wg (s : State) :
    s.clearSticky.wg = s.wg := rfl
@[simp] theorem State.clearSticky_key (s : State) :
    s.clearSticky.key = s.key := rfl
@[simp] theorem State.clearSticky_nonce (s : State) :
    s.clearSticky.nonce = s.nonce := rfl
@[simp] theorem State.clearSticky_ctr (s : State) :
    s.clearSticky.ctr = s.ctr := rfl
@[simp] theorem State.clearSticky_cur (s : State) :
    s.clearSticky.cur = s.cur := rfl
@[simp] theorem State.clearSticky_buf (s : State) :
    s.clearSticky.buf = s.buf := rfl
@[simp] theorem State.clearSticky_acc (s : State) :
    s.clearSticky.acc = s.acc := rfl
@[simp] theorem State.clearSticky_nb (s : State) :
    s.clearSticky.nb = s.nb := rfl
@[simp] theorem State.clearSticky_out (s : State) :
    s.clearSticky.out = s.out := rfl
@[simp] theorem State.clearSticky_inputs (s : State) :
    s.clearSticky.inputs = s.inputs := rfl
@[simp] theorem State.clearSticky_readData (s : State) :
    s.clearSticky.readData = s.readData := rfl
@[simp] theorem State.clearSticky_entropy (s : State) :
    s.clearSticky.entropy = s.entropy := rfl
@[simp] theorem State.clearSticky_requests (s : State) :
    s.clearSticky.requests = s.requests := rfl

/-! ### State.setData -/

@[simp] theorem State.setData_cmd (i : Nat) (v : Word) (s : State) :
    (s.setData i v).cmd = s.cmd := rfl
@[simp] theorem State.setData_wgValid (i : Nat) (v : Word) (s : State) :
    (s.setData i v).wgValid = s.wgValid := rfl
@[simp] theorem State.setData_wgDet (i : Nat) (v : Word) (s : State) :
    (s.setData i v).wgDet = s.wgDet := rfl
@[simp] theorem State.setData_ksValid (i : Nat) (v : Word) (s : State) :
    (s.setData i v).ksValid = s.ksValid := rfl
@[simp] theorem State.setData_ksDet (i : Nat) (v : Word) (s : State) :
    (s.setData i v).ksDet = s.ksDet := rfl
@[simp] theorem State.setData_err (i : Nat) (v : Word) (s : State) :
    (s.setData i v).err = s.err := rfl
@[simp] theorem State.setData_serr (i : Nat) (v : Word) (s : State) :
    (s.setData i v).serr = s.serr := rfl
@[simp] theorem State.setData_res (i : Nat) (v : Word) (s : State) :
    (s.setData i v).res = s.res := rfl
@[simp] theorem State.setData_outcnt (i : Nat) (v : Word) (s : State) :
    (s.setData i v).outcnt = s.outcnt := rfl
@[simp] theorem State.setData_d (i : Nat) (v : Word) (s : State) :
    (s.setData i v).d = s.d.set i v := rfl
@[simp] theorem State.setData_wg (i : Nat) (v : Word) (s : State) :
    (s.setData i v).wg = s.wg := rfl
@[simp] theorem State.setData_key (i : Nat) (v : Word) (s : State) :
    (s.setData i v).key = s.key := rfl
@[simp] theorem State.setData_nonce (i : Nat) (v : Word) (s : State) :
    (s.setData i v).nonce = s.nonce := rfl
@[simp] theorem State.setData_ctr (i : Nat) (v : Word) (s : State) :
    (s.setData i v).ctr = s.ctr := rfl
@[simp] theorem State.setData_cur (i : Nat) (v : Word) (s : State) :
    (s.setData i v).cur = s.cur := rfl
@[simp] theorem State.setData_buf (i : Nat) (v : Word) (s : State) :
    (s.setData i v).buf = s.buf := rfl
@[simp] theorem State.setData_acc (i : Nat) (v : Word) (s : State) :
    (s.setData i v).acc = s.acc := rfl
@[simp] theorem State.setData_nb (i : Nat) (v : Word) (s : State) :
    (s.setData i v).nb = s.nb := rfl
@[simp] theorem State.setData_out (i : Nat) (v : Word) (s : State) :
    (s.setData i v).out = s.out := rfl
@[simp] theorem State.setData_inputs (i : Nat) (v : Word) (s : State) :
    (s.setData i v).inputs = s.inputs := rfl
@[simp] theorem State.setData_readData (i : Nat) (v : Word) (s : State) :
    (s.setData i v).readData = s.readData := rfl
@[simp] theorem State.setData_entropy (i : Nat) (v : Word) (s : State) :
    (s.setData i v).entropy = s.entropy := rfl
@[simp] theorem State.setData_requests (i : Nat) (v : Word) (s : State) :
    (s.setData i v).requests = s.requests := rfl

/-! ### State.latchCommand -/

@[simp] theorem State.latchCommand_cmd (v : Word) (s : State) :
    (s.latchCommand v).cmd = v := rfl
@[simp] theorem State.latchCommand_wgValid (v : Word) (s : State) :
    (s.latchCommand v).wgValid = s.wgValid := rfl
@[simp] theorem State.latchCommand_wgDet (v : Word) (s : State) :
    (s.latchCommand v).wgDet = s.wgDet := rfl
@[simp] theorem State.latchCommand_ksValid (v : Word) (s : State) :
    (s.latchCommand v).ksValid = s.ksValid := rfl
@[simp] theorem State.latchCommand_ksDet (v : Word) (s : State) :
    (s.latchCommand v).ksDet = s.ksDet := rfl
@[simp] theorem State.latchCommand_err (v : Word) (s : State) :
    (s.latchCommand v).err = s.err := rfl
@[simp] theorem State.latchCommand_serr (v : Word) (s : State) :
    (s.latchCommand v).serr = s.serr := rfl
@[simp] theorem State.latchCommand_res (v : Word) (s : State) :
    (s.latchCommand v).res = s.res := rfl
@[simp] theorem State.latchCommand_outcnt (v : Word) (s : State) :
    (s.latchCommand v).outcnt = s.outcnt := rfl
@[simp] theorem State.latchCommand_d (v : Word) (s : State) :
    (s.latchCommand v).d = s.d := rfl
@[simp] theorem State.latchCommand_wg (v : Word) (s : State) :
    (s.latchCommand v).wg = s.wg := rfl
@[simp] theorem State.latchCommand_key (v : Word) (s : State) :
    (s.latchCommand v).key = s.key := rfl
@[simp] theorem State.latchCommand_nonce (v : Word) (s : State) :
    (s.latchCommand v).nonce = s.nonce := rfl
@[simp] theorem State.latchCommand_ctr (v : Word) (s : State) :
    (s.latchCommand v).ctr = s.ctr := rfl
@[simp] theorem State.latchCommand_cur (v : Word) (s : State) :
    (s.latchCommand v).cur = s.cur := rfl
@[simp] theorem State.latchCommand_buf (v : Word) (s : State) :
    (s.latchCommand v).buf = s.buf := rfl
@[simp] theorem State.latchCommand_acc (v : Word) (s : State) :
    (s.latchCommand v).acc = s.acc := rfl
@[simp] theorem State.latchCommand_nb (v : Word) (s : State) :
    (s.latchCommand v).nb = s.nb := rfl
@[simp] theorem State.latchCommand_out (v : Word) (s : State) :
    (s.latchCommand v).out = s.out := rfl
@[simp] theorem State.latchCommand_inputs (v : Word) (s : State) :
    (s.latchCommand v).inputs = s.inputs := rfl
@[simp] theorem State.latchCommand_readData (v : Word) (s : State) :
    (s.latchCommand v).readData = s.readData := rfl
@[simp] theorem State.latchCommand_entropy (v : Word) (s : State) :
    (s.latchCommand v).entropy = s.entropy := rfl
@[simp] theorem State.latchCommand_requests (v : Word) (s : State) :
    (s.latchCommand v).requests = s.requests := rfl

/-! ### State.setInputs -/

@[simp] theorem State.setInputs_cmd (rest : List HostAccess) (s : State) :
    (s.setInputs rest).cmd = s.cmd := rfl
@[simp] theorem State.setInputs_wgValid (rest : List HostAccess) (s : State) :
    (s.setInputs rest).wgValid = s.wgValid := rfl
@[simp] theorem State.setInputs_wgDet (rest : List HostAccess) (s : State) :
    (s.setInputs rest).wgDet = s.wgDet := rfl
@[simp] theorem State.setInputs_ksValid (rest : List HostAccess) (s : State) :
    (s.setInputs rest).ksValid = s.ksValid := rfl
@[simp] theorem State.setInputs_ksDet (rest : List HostAccess) (s : State) :
    (s.setInputs rest).ksDet = s.ksDet := rfl
@[simp] theorem State.setInputs_err (rest : List HostAccess) (s : State) :
    (s.setInputs rest).err = s.err := rfl
@[simp] theorem State.setInputs_serr (rest : List HostAccess) (s : State) :
    (s.setInputs rest).serr = s.serr := rfl
@[simp] theorem State.setInputs_res (rest : List HostAccess) (s : State) :
    (s.setInputs rest).res = s.res := rfl
@[simp] theorem State.setInputs_outcnt (rest : List HostAccess) (s : State) :
    (s.setInputs rest).outcnt = s.outcnt := rfl
@[simp] theorem State.setInputs_d (rest : List HostAccess) (s : State) :
    (s.setInputs rest).d = s.d := rfl
@[simp] theorem State.setInputs_wg (rest : List HostAccess) (s : State) :
    (s.setInputs rest).wg = s.wg := rfl
@[simp] theorem State.setInputs_key (rest : List HostAccess) (s : State) :
    (s.setInputs rest).key = s.key := rfl
@[simp] theorem State.setInputs_nonce (rest : List HostAccess) (s : State) :
    (s.setInputs rest).nonce = s.nonce := rfl
@[simp] theorem State.setInputs_ctr (rest : List HostAccess) (s : State) :
    (s.setInputs rest).ctr = s.ctr := rfl
@[simp] theorem State.setInputs_cur (rest : List HostAccess) (s : State) :
    (s.setInputs rest).cur = s.cur := rfl
@[simp] theorem State.setInputs_buf (rest : List HostAccess) (s : State) :
    (s.setInputs rest).buf = s.buf := rfl
@[simp] theorem State.setInputs_acc (rest : List HostAccess) (s : State) :
    (s.setInputs rest).acc = s.acc := rfl
@[simp] theorem State.setInputs_nb (rest : List HostAccess) (s : State) :
    (s.setInputs rest).nb = s.nb := rfl
@[simp] theorem State.setInputs_out (rest : List HostAccess) (s : State) :
    (s.setInputs rest).out = s.out := rfl
@[simp] theorem State.setInputs_inputs (rest : List HostAccess) (s : State) :
    (s.setInputs rest).inputs = rest := rfl
@[simp] theorem State.setInputs_readData (rest : List HostAccess) (s : State) :
    (s.setInputs rest).readData = s.readData := rfl
@[simp] theorem State.setInputs_entropy (rest : List HostAccess) (s : State) :
    (s.setInputs rest).entropy = s.entropy := rfl
@[simp] theorem State.setInputs_requests (rest : List HostAccess) (s : State) :
    (s.setInputs rest).requests = s.requests := rfl

/-! ### State.deliver -/

@[simp] theorem State.deliver_cmd (v : Word) (s : State) :
    (s.deliver v).cmd = s.cmd := rfl
@[simp] theorem State.deliver_wgValid (v : Word) (s : State) :
    (s.deliver v).wgValid = s.wgValid := rfl
@[simp] theorem State.deliver_wgDet (v : Word) (s : State) :
    (s.deliver v).wgDet = s.wgDet := rfl
@[simp] theorem State.deliver_ksValid (v : Word) (s : State) :
    (s.deliver v).ksValid = s.ksValid := rfl
@[simp] theorem State.deliver_ksDet (v : Word) (s : State) :
    (s.deliver v).ksDet = s.ksDet := rfl
@[simp] theorem State.deliver_err (v : Word) (s : State) :
    (s.deliver v).err = s.err := rfl
@[simp] theorem State.deliver_serr (v : Word) (s : State) :
    (s.deliver v).serr = s.serr := rfl
@[simp] theorem State.deliver_res (v : Word) (s : State) :
    (s.deliver v).res = s.res := rfl
@[simp] theorem State.deliver_outcnt (v : Word) (s : State) :
    (s.deliver v).outcnt = s.outcnt := rfl
@[simp] theorem State.deliver_d (v : Word) (s : State) :
    (s.deliver v).d = s.d := rfl
@[simp] theorem State.deliver_wg (v : Word) (s : State) :
    (s.deliver v).wg = s.wg := rfl
@[simp] theorem State.deliver_key (v : Word) (s : State) :
    (s.deliver v).key = s.key := rfl
@[simp] theorem State.deliver_nonce (v : Word) (s : State) :
    (s.deliver v).nonce = s.nonce := rfl
@[simp] theorem State.deliver_ctr (v : Word) (s : State) :
    (s.deliver v).ctr = s.ctr := rfl
@[simp] theorem State.deliver_cur (v : Word) (s : State) :
    (s.deliver v).cur = s.cur := rfl
@[simp] theorem State.deliver_buf (v : Word) (s : State) :
    (s.deliver v).buf = s.buf := rfl
@[simp] theorem State.deliver_acc (v : Word) (s : State) :
    (s.deliver v).acc = s.acc := rfl
@[simp] theorem State.deliver_nb (v : Word) (s : State) :
    (s.deliver v).nb = s.nb := rfl
@[simp] theorem State.deliver_out (v : Word) (s : State) :
    (s.deliver v).out = s.out := rfl
@[simp] theorem State.deliver_inputs (v : Word) (s : State) :
    (s.deliver v).inputs = s.inputs := rfl
@[simp] theorem State.deliver_readData (v : Word) (s : State) :
    (s.deliver v).readData = s.readData ++ [v] := rfl
@[simp] theorem State.deliver_entropy (v : Word) (s : State) :
    (s.deliver v).entropy = s.entropy := rfl
@[simp] theorem State.deliver_requests (v : Word) (s : State) :
    (s.deliver v).requests = s.requests := rfl

/-! ### State.setWg -/

@[simp] theorem State.setWg_cmd (q : Quad) (s : State) :
    (s.setWg q).cmd = s.cmd := rfl
@[simp] theorem State.setWg_wgValid (q : Quad) (s : State) :
    (s.setWg q).wgValid = s.wgValid := rfl
@[simp] theorem State.setWg_wgDet (q : Quad) (s : State) :
    (s.setWg q).wgDet = s.wgDet := rfl
@[simp] theorem State.setWg_ksValid (q : Quad) (s : State) :
    (s.setWg q).ksValid = s.ksValid := rfl
@[simp] theorem State.setWg_ksDet (q : Quad) (s : State) :
    (s.setWg q).ksDet = s.ksDet := rfl
@[simp] theorem State.setWg_err (q : Quad) (s : State) :
    (s.setWg q).err = s.err := rfl
@[simp] theorem State.setWg_serr (q : Quad) (s : State) :
    (s.setWg q).serr = s.serr := rfl
@[simp] theorem State.setWg_res (q : Quad) (s : State) :
    (s.setWg q).res = s.res := rfl
@[simp] theorem State.setWg_outcnt (q : Quad) (s : State) :
    (s.setWg q).outcnt = s.outcnt := rfl
@[simp] theorem State.setWg_d (q : Quad) (s : State) :
    (s.setWg q).d = s.d := rfl
@[simp] theorem State.setWg_wg (q : Quad) (s : State) :
    (s.setWg q).wg = q := rfl
@[simp] theorem State.setWg_key (q : Quad) (s : State) :
    (s.setWg q).key = s.key := rfl
@[simp] theorem State.setWg_nonce (q : Quad) (s : State) :
    (s.setWg q).nonce = s.nonce := rfl
@[simp] theorem State.setWg_ctr (q : Quad) (s : State) :
    (s.setWg q).ctr = s.ctr := rfl
@[simp] theorem State.setWg_cur (q : Quad) (s : State) :
    (s.setWg q).cur = s.cur := rfl
@[simp] theorem State.setWg_buf (q : Quad) (s : State) :
    (s.setWg q).buf = s.buf := rfl
@[simp] theorem State.setWg_acc (q : Quad) (s : State) :
    (s.setWg q).acc = s.acc := rfl
@[simp] theorem State.setWg_nb (q : Quad) (s : State) :
    (s.setWg q).nb = s.nb := rfl
@[simp] theorem State.setWg_out (q : Quad) (s : State) :
    (s.setWg q).out = s.out := rfl
@[simp] theorem State.setWg_inputs (q : Quad) (s : State) :
    (s.setWg q).inputs = s.inputs := rfl
@[simp] theorem State.setWg_readData (q : Quad) (s : State) :
    (s.setWg q).readData = s.readData := rfl
@[simp] theorem State.setWg_entropy (q : Quad) (s : State) :
    (s.setWg q).entropy = s.entropy := rfl
@[simp] theorem State.setWg_requests (q : Quad) (s : State) :
    (s.setWg q).requests = s.requests := rfl

/-! ### State.seedWg -/

@[simp] theorem State.seedWg_cmd (q : Quad) (det : Bool) (s : State) :
    (s.seedWg q det).cmd = s.cmd := rfl
@[simp] theorem State.seedWg_wgValid (q : Quad) (det : Bool) (s : State) :
    (s.seedWg q det).wgValid = true := rfl
@[simp] theorem State.seedWg_wgDet (q : Quad) (det : Bool) (s : State) :
    (s.seedWg q det).wgDet = det := rfl
@[simp] theorem State.seedWg_ksValid (q : Quad) (det : Bool) (s : State) :
    (s.seedWg q det).ksValid = s.ksValid := rfl
@[simp] theorem State.seedWg_ksDet (q : Quad) (det : Bool) (s : State) :
    (s.seedWg q det).ksDet = s.ksDet := rfl
@[simp] theorem State.seedWg_err (q : Quad) (det : Bool) (s : State) :
    (s.seedWg q det).err = s.err := rfl
@[simp] theorem State.seedWg_serr (q : Quad) (det : Bool) (s : State) :
    (s.seedWg q det).serr = s.serr := rfl
@[simp] theorem State.seedWg_res (q : Quad) (det : Bool) (s : State) :
    (s.seedWg q det).res = s.res := rfl
@[simp] theorem State.seedWg_outcnt (q : Quad) (det : Bool) (s : State) :
    (s.seedWg q det).outcnt = s.outcnt := rfl
@[simp] theorem State.seedWg_d (q : Quad) (det : Bool) (s : State) :
    (s.seedWg q det).d = s.d := rfl
@[simp] theorem State.seedWg_wg (q : Quad) (det : Bool) (s : State) :
    (s.seedWg q det).wg = q := rfl
@[simp] theorem State.seedWg_key (q : Quad) (det : Bool) (s : State) :
    (s.seedWg q det).key = s.key := rfl
@[simp] theorem State.seedWg_nonce (q : Quad) (det : Bool) (s : State) :
    (s.seedWg q det).nonce = s.nonce := rfl
@[simp] theorem State.seedWg_ctr (q : Quad) (det : Bool) (s : State) :
    (s.seedWg q det).ctr = s.ctr := rfl
@[simp] theorem State.seedWg_cur (q : Quad) (det : Bool) (s : State) :
    (s.seedWg q det).cur = s.cur := rfl
@[simp] theorem State.seedWg_buf (q : Quad) (det : Bool) (s : State) :
    (s.seedWg q det).buf = s.buf := rfl
@[simp] theorem State.seedWg_acc (q : Quad) (det : Bool) (s : State) :
    (s.seedWg q det).acc = s.acc := rfl
@[simp] theorem State.seedWg_nb (q : Quad) (det : Bool) (s : State) :
    (s.seedWg q det).nb = s.nb := rfl
@[simp] theorem State.seedWg_out (q : Quad) (det : Bool) (s : State) :
    (s.seedWg q det).out = s.out := rfl
@[simp] theorem State.seedWg_inputs (q : Quad) (det : Bool) (s : State) :
    (s.seedWg q det).inputs = s.inputs := rfl
@[simp] theorem State.seedWg_readData (q : Quad) (det : Bool) (s : State) :
    (s.seedWg q det).readData = s.readData := rfl
@[simp] theorem State.seedWg_entropy (q : Quad) (det : Bool) (s : State) :
    (s.seedWg q det).entropy = s.entropy := rfl
@[simp] theorem State.seedWg_requests (q : Quad) (det : Bool) (s : State) :
    (s.seedWg q det).requests = s.requests := rfl

/-! ### State.dropWg -/

@[simp] theorem State.dropWg_cmd (s : State) :
    s.dropWg.cmd = s.cmd := rfl
@[simp] theorem State.dropWg_wgValid (s : State) :
    s.dropWg.wgValid = false := rfl
@[simp] theorem State.dropWg_wgDet (s : State) :
    s.dropWg.wgDet = false := rfl
@[simp] theorem State.dropWg_ksValid (s : State) :
    s.dropWg.ksValid = s.ksValid := rfl
@[simp] theorem State.dropWg_ksDet (s : State) :
    s.dropWg.ksDet = s.ksDet := rfl
@[simp] theorem State.dropWg_err (s : State) :
    s.dropWg.err = s.err := rfl
@[simp] theorem State.dropWg_serr (s : State) :
    s.dropWg.serr = s.serr := rfl
@[simp] theorem State.dropWg_res (s : State) :
    s.dropWg.res = s.res := rfl
@[simp] theorem State.dropWg_outcnt (s : State) :
    s.dropWg.outcnt = s.outcnt := rfl
@[simp] theorem State.dropWg_d (s : State) :
    s.dropWg.d = s.d := rfl
@[simp] theorem State.dropWg_wg (s : State) :
    s.dropWg.wg = Quad.zero := rfl
@[simp] theorem State.dropWg_key (s : State) :
    s.dropWg.key = s.key := rfl
@[simp] theorem State.dropWg_nonce (s : State) :
    s.dropWg.nonce = s.nonce := rfl
@[simp] theorem State.dropWg_ctr (s : State) :
    s.dropWg.ctr = s.ctr := rfl
@[simp] theorem State.dropWg_cur (s : State) :
    s.dropWg.cur = s.cur := rfl
@[simp] theorem State.dropWg_buf (s : State) :
    s.dropWg.buf = s.buf := rfl
@[simp] theorem State.dropWg_acc (s : State) :
    s.dropWg.acc = s.acc := rfl
@[simp] theorem State.dropWg_nb (s : State) :
    s.dropWg.nb = s.nb := rfl
@[simp] theorem State.dropWg_out (s : State) :
    s.dropWg.out = s.out := rfl
@[simp] theorem State.dropWg_inputs (s : State) :
    s.dropWg.inputs = s.inputs := rfl
@[simp] theorem State.dropWg_readData (s : State) :
    s.dropWg.readData = s.readData := rfl
@[simp] theorem State.dropWg_entropy (s : State) :
    s.dropWg.entropy = s.entropy := rfl
@[simp] theorem State.dropWg_requests (s : State) :
    s.dropWg.requests = s.requests := rfl

/-! ### State.seedKs -/

@[simp] theorem State.seedKs_cmd (c : Config) (key nonce : List Byte) (ctr : Word) (det : Bool) (s : State) :
    (s.seedKs c key nonce ctr det).cmd = s.cmd := rfl
@[simp] theorem State.seedKs_wgValid (c : Config) (key nonce : List Byte) (ctr : Word) (det : Bool) (s : State) :
    (s.seedKs c key nonce ctr det).wgValid = s.wgValid := rfl
@[simp] theorem State.seedKs_wgDet (c : Config) (key nonce : List Byte) (ctr : Word) (det : Bool) (s : State) :
    (s.seedKs c key nonce ctr det).wgDet = s.wgDet := rfl
@[simp] theorem State.seedKs_ksValid (c : Config) (key nonce : List Byte) (ctr : Word) (det : Bool) (s : State) :
    (s.seedKs c key nonce ctr det).ksValid = true := rfl
@[simp] theorem State.seedKs_ksDet (c : Config) (key nonce : List Byte) (ctr : Word) (det : Bool) (s : State) :
    (s.seedKs c key nonce ctr det).ksDet = det := rfl
@[simp] theorem State.seedKs_err (c : Config) (key nonce : List Byte) (ctr : Word) (det : Bool) (s : State) :
    (s.seedKs c key nonce ctr det).err = s.err := rfl
@[simp] theorem State.seedKs_serr (c : Config) (key nonce : List Byte) (ctr : Word) (det : Bool) (s : State) :
    (s.seedKs c key nonce ctr det).serr = s.serr := rfl
@[simp] theorem State.seedKs_res (c : Config) (key nonce : List Byte) (ctr : Word) (det : Bool) (s : State) :
    (s.seedKs c key nonce ctr det).res = s.res := rfl
@[simp] theorem State.seedKs_outcnt (c : Config) (key nonce : List Byte) (ctr : Word) (det : Bool) (s : State) :
    (s.seedKs c key nonce ctr det).outcnt = s.outcnt := rfl
@[simp] theorem State.seedKs_d (c : Config) (key nonce : List Byte) (ctr : Word) (det : Bool) (s : State) :
    (s.seedKs c key nonce ctr det).d = s.d := rfl
@[simp] theorem State.seedKs_wg (c : Config) (key nonce : List Byte) (ctr : Word) (det : Bool) (s : State) :
    (s.seedKs c key nonce ctr det).wg = s.wg := rfl
@[simp] theorem State.seedKs_key (c : Config) (key nonce : List Byte) (ctr : Word) (det : Bool) (s : State) :
    (s.seedKs c key nonce ctr det).key = key := rfl
@[simp] theorem State.seedKs_nonce (c : Config) (key nonce : List Byte) (ctr : Word) (det : Bool) (s : State) :
    (s.seedKs c key nonce ctr det).nonce = nonce := rfl
@[simp] theorem State.seedKs_ctr (c : Config) (key nonce : List Byte) (ctr : Word) (det : Bool) (s : State) :
    (s.seedKs c key nonce ctr det).ctr = ctr := rfl
@[simp] theorem State.seedKs_cur (c : Config) (key nonce : List Byte) (ctr : Word) (det : Bool) (s : State) :
    (s.seedKs c key nonce ctr det).cur = BitVec.ofNat 16 c.blockLen := rfl
@[simp] theorem State.seedKs_buf (c : Config) (key nonce : List Byte) (ctr : Word) (det : Bool) (s : State) :
    (s.seedKs c key nonce ctr det).buf = s.buf := rfl
@[simp] theorem State.seedKs_acc (c : Config) (key nonce : List Byte) (ctr : Word) (det : Bool) (s : State) :
    (s.seedKs c key nonce ctr det).acc = s.acc := rfl
@[simp] theorem State.seedKs_nb (c : Config) (key nonce : List Byte) (ctr : Word) (det : Bool) (s : State) :
    (s.seedKs c key nonce ctr det).nb = s.nb := rfl
@[simp] theorem State.seedKs_out (c : Config) (key nonce : List Byte) (ctr : Word) (det : Bool) (s : State) :
    (s.seedKs c key nonce ctr det).out = s.out := rfl
@[simp] theorem State.seedKs_inputs (c : Config) (key nonce : List Byte) (ctr : Word) (det : Bool) (s : State) :
    (s.seedKs c key nonce ctr det).inputs = s.inputs := rfl
@[simp] theorem State.seedKs_readData (c : Config) (key nonce : List Byte) (ctr : Word) (det : Bool) (s : State) :
    (s.seedKs c key nonce ctr det).readData = s.readData := rfl
@[simp] theorem State.seedKs_entropy (c : Config) (key nonce : List Byte) (ctr : Word) (det : Bool) (s : State) :
    (s.seedKs c key nonce ctr det).entropy = s.entropy := rfl
@[simp] theorem State.seedKs_requests (c : Config) (key nonce : List Byte) (ctr : Word) (det : Bool) (s : State) :
    (s.seedKs c key nonce ctr det).requests = s.requests := rfl

/-! ### State.dropKs -/

@[simp] theorem State.dropKs_cmd (c : Config) (s : State) :
    (s.dropKs c).cmd = s.cmd := rfl
@[simp] theorem State.dropKs_wgValid (c : Config) (s : State) :
    (s.dropKs c).wgValid = s.wgValid := rfl
@[simp] theorem State.dropKs_wgDet (c : Config) (s : State) :
    (s.dropKs c).wgDet = s.wgDet := rfl
@[simp] theorem State.dropKs_ksValid (c : Config) (s : State) :
    (s.dropKs c).ksValid = false := rfl
@[simp] theorem State.dropKs_ksDet (c : Config) (s : State) :
    (s.dropKs c).ksDet = false := rfl
@[simp] theorem State.dropKs_err (c : Config) (s : State) :
    (s.dropKs c).err = s.err := rfl
@[simp] theorem State.dropKs_serr (c : Config) (s : State) :
    (s.dropKs c).serr = s.serr := rfl
@[simp] theorem State.dropKs_res (c : Config) (s : State) :
    (s.dropKs c).res = s.res := rfl
@[simp] theorem State.dropKs_outcnt (c : Config) (s : State) :
    (s.dropKs c).outcnt = s.outcnt := rfl
@[simp] theorem State.dropKs_d (c : Config) (s : State) :
    (s.dropKs c).d = s.d := rfl
@[simp] theorem State.dropKs_wg (c : Config) (s : State) :
    (s.dropKs c).wg = s.wg := rfl
@[simp] theorem State.dropKs_key (c : Config) (s : State) :
    (s.dropKs c).key = List.replicate c.keyLen 0 := rfl
@[simp] theorem State.dropKs_nonce (c : Config) (s : State) :
    (s.dropKs c).nonce = List.replicate c.nonceLen 0 := rfl
@[simp] theorem State.dropKs_ctr (c : Config) (s : State) :
    (s.dropKs c).ctr = 0 := rfl
@[simp] theorem State.dropKs_cur (c : Config) (s : State) :
    (s.dropKs c).cur = BitVec.ofNat 16 c.blockLen := rfl
@[simp] theorem State.dropKs_buf (c : Config) (s : State) :
    (s.dropKs c).buf = List.replicate c.blockLen 0 := rfl
@[simp] theorem State.dropKs_acc (c : Config) (s : State) :
    (s.dropKs c).acc = s.acc := rfl
@[simp] theorem State.dropKs_nb (c : Config) (s : State) :
    (s.dropKs c).nb = s.nb := rfl
@[simp] theorem State.dropKs_out (c : Config) (s : State) :
    (s.dropKs c).out = s.out := rfl
@[simp] theorem State.dropKs_inputs (c : Config) (s : State) :
    (s.dropKs c).inputs = s.inputs := rfl
@[simp] theorem State.dropKs_readData (c : Config) (s : State) :
    (s.dropKs c).readData = s.readData := rfl
@[simp] theorem State.dropKs_entropy (c : Config) (s : State) :
    (s.dropKs c).entropy = s.entropy := rfl
@[simp] theorem State.dropKs_requests (c : Config) (s : State) :
    (s.dropKs c).requests = s.requests := rfl

/-! ### State.loadBlock -/

@[simp] theorem State.loadBlock_cmd (blk : List Byte) (s : State) :
    (s.loadBlock blk).cmd = s.cmd := rfl
@[simp] theorem State.loadBlock_wgValid (blk : List Byte) (s : State) :
    (s.loadBlock blk).wgValid = s.wgValid := rfl
@[simp] theorem State.loadBlock_wgDet (blk : List Byte) (s : State) :
    (s.loadBlock blk).wgDet = s.wgDet := rfl
@[simp] theorem State.loadBlock_ksValid (blk : List Byte) (s : State) :
    (s.loadBlock blk).ksValid = s.ksValid := rfl
@[simp] theorem State.loadBlock_ksDet (blk : List Byte) (s : State) :
    (s.loadBlock blk).ksDet = s.ksDet := rfl
@[simp] theorem State.loadBlock_err (blk : List Byte) (s : State) :
    (s.loadBlock blk).err = s.err := rfl
@[simp] theorem State.loadBlock_serr (blk : List Byte) (s : State) :
    (s.loadBlock blk).serr = s.serr := rfl
@[simp] theorem State.loadBlock_res (blk : List Byte) (s : State) :
    (s.loadBlock blk).res = s.res := rfl
@[simp] theorem State.loadBlock_outcnt (blk : List Byte) (s : State) :
    (s.loadBlock blk).outcnt = s.outcnt := rfl
@[simp] theorem State.loadBlock_d (blk : List Byte) (s : State) :
    (s.loadBlock blk).d = s.d := rfl
@[simp] theorem State.loadBlock_wg (blk : List Byte) (s : State) :
    (s.loadBlock blk).wg = s.wg := rfl
@[simp] theorem State.loadBlock_key (blk : List Byte) (s : State) :
    (s.loadBlock blk).key = s.key := rfl
@[simp] theorem State.loadBlock_nonce (blk : List Byte) (s : State) :
    (s.loadBlock blk).nonce = s.nonce := rfl
@[simp] theorem State.loadBlock_ctr (blk : List Byte) (s : State) :
    (s.loadBlock blk).ctr = s.ctr + 1 := rfl
@[simp] theorem State.loadBlock_cur (blk : List Byte) (s : State) :
    (s.loadBlock blk).cur = 0 := rfl
@[simp] theorem State.loadBlock_buf (blk : List Byte) (s : State) :
    (s.loadBlock blk).buf = blk := rfl
@[simp] theorem State.loadBlock_acc (blk : List Byte) (s : State) :
    (s.loadBlock blk).acc = s.acc := rfl
@[simp] theorem State.loadBlock_nb (blk : List Byte) (s : State) :
    (s.loadBlock blk).nb = s.nb := rfl
@[simp] theorem State.loadBlock_out (blk : List Byte) (s : State) :
    (s.loadBlock blk).out = s.out := rfl
@[simp] theorem State.loadBlock_inputs (blk : List Byte) (s : State) :
    (s.loadBlock blk).inputs = s.inputs := rfl
@[simp] theorem State.loadBlock_readData (blk : List Byte) (s : State) :
    (s.loadBlock blk).readData = s.readData := rfl
@[simp] theorem State.loadBlock_entropy (blk : List Byte) (s : State) :
    (s.loadBlock blk).entropy = s.entropy := rfl
@[simp] theorem State.loadBlock_requests (blk : List Byte) (s : State) :
    (s.loadBlock blk).requests = s.requests ++ [.block s.key s.nonce s.ctr] := rfl

/-! ### State.advanceCur -/

@[simp] theorem State.advanceCur_cmd (s : State) :
    s.advanceCur.cmd = s.cmd := rfl
@[simp] theorem State.advanceCur_wgValid (s : State) :
    s.advanceCur.wgValid = s.wgValid := rfl
@[simp] theorem State.advanceCur_wgDet (s : State) :
    s.advanceCur.wgDet = s.wgDet := rfl
@[simp] theorem State.advanceCur_ksValid (s : State) :
    s.advanceCur.ksValid = s.ksValid := rfl
@[simp] theorem State.advanceCur_ksDet (s : State) :
    s.advanceCur.ksDet = s.ksDet := rfl
@[simp] theorem State.advanceCur_err (s : State) :
    s.advanceCur.err = s.err := rfl
@[simp] theorem State.advanceCur_serr (s : State) :
    s.advanceCur.serr = s.serr := rfl
@[simp] theorem State.advanceCur_res (s : State) :
    s.advanceCur.res = s.res := rfl
@[simp] theorem State.advanceCur_outcnt (s : State) :
    s.advanceCur.outcnt = s.outcnt := rfl
@[simp] theorem State.advanceCur_d (s : State) :
    s.advanceCur.d = s.d := rfl
@[simp] theorem State.advanceCur_wg (s : State) :
    s.advanceCur.wg = s.wg := rfl
@[simp] theorem State.advanceCur_key (s : State) :
    s.advanceCur.key = s.key := rfl
@[simp] theorem State.advanceCur_nonce (s : State) :
    s.advanceCur.nonce = s.nonce := rfl
@[simp] theorem State.advanceCur_ctr (s : State) :
    s.advanceCur.ctr = s.ctr := rfl
@[simp] theorem State.advanceCur_cur (s : State) :
    s.advanceCur.cur = s.cur + 1 := rfl
@[simp] theorem State.advanceCur_buf (s : State) :
    s.advanceCur.buf = s.buf := rfl
@[simp] theorem State.advanceCur_acc (s : State) :
    s.advanceCur.acc = s.acc := rfl
@[simp] theorem State.advanceCur_nb (s : State) :
    s.advanceCur.nb = s.nb := rfl
@[simp] theorem State.advanceCur_out (s : State) :
    s.advanceCur.out = s.out := rfl
@[simp] theorem State.advanceCur_inputs (s : State) :
    s.advanceCur.inputs = s.inputs := rfl
@[simp] theorem State.advanceCur_readData (s : State) :
    s.advanceCur.readData = s.readData := rfl
@[simp] theorem State.advanceCur_entropy (s : State) :
    s.advanceCur.entropy = s.entropy := rfl
@[simp] theorem State.advanceCur_requests (s : State) :
    s.advanceCur.requests = s.requests := rfl

/-! ### State.setAcc -/

@[simp] theorem State.setAcc_cmd (acc : BitVec 15) (nb : Nat) (s : State) :
    (s.setAcc acc nb).cmd = s.cmd := rfl
@[simp] theorem State.setAcc_wgValid (acc : BitVec 15) (nb : Nat) (s : State) :
    (s.setAcc acc nb).wgValid = s.wgValid := rfl
@[simp] theorem State.setAcc_wgDet (acc : BitVec 15) (nb : Nat) (s : State) :
    (s.setAcc acc nb).wgDet = s.wgDet := rfl
@[simp] theorem State.setAcc_ksValid (acc : BitVec 15) (nb : Nat) (s : State) :
    (s.setAcc acc nb).ksValid = s.ksValid := rfl
@[simp] theorem State.setAcc_ksDet (acc : BitVec 15) (nb : Nat) (s : State) :
    (s.setAcc acc nb).ksDet = s.ksDet := rfl
@[simp] theorem State.setAcc_err (acc : BitVec 15) (nb : Nat) (s : State) :
    (s.setAcc acc nb).err = s.err := rfl
@[simp] theorem State.setAcc_serr (acc : BitVec 15) (nb : Nat) (s : State) :
    (s.setAcc acc nb).serr = s.serr := rfl
@[simp] theorem State.setAcc_res (acc : BitVec 15) (nb : Nat) (s : State) :
    (s.setAcc acc nb).res = s.res := rfl
@[simp] theorem State.setAcc_outcnt (acc : BitVec 15) (nb : Nat) (s : State) :
    (s.setAcc acc nb).outcnt = s.outcnt := rfl
@[simp] theorem State.setAcc_d (acc : BitVec 15) (nb : Nat) (s : State) :
    (s.setAcc acc nb).d = s.d := rfl
@[simp] theorem State.setAcc_wg (acc : BitVec 15) (nb : Nat) (s : State) :
    (s.setAcc acc nb).wg = s.wg := rfl
@[simp] theorem State.setAcc_key (acc : BitVec 15) (nb : Nat) (s : State) :
    (s.setAcc acc nb).key = s.key := rfl
@[simp] theorem State.setAcc_nonce (acc : BitVec 15) (nb : Nat) (s : State) :
    (s.setAcc acc nb).nonce = s.nonce := rfl
@[simp] theorem State.setAcc_ctr (acc : BitVec 15) (nb : Nat) (s : State) :
    (s.setAcc acc nb).ctr = s.ctr := rfl
@[simp] theorem State.setAcc_cur (acc : BitVec 15) (nb : Nat) (s : State) :
    (s.setAcc acc nb).cur = s.cur := rfl
@[simp] theorem State.setAcc_buf (acc : BitVec 15) (nb : Nat) (s : State) :
    (s.setAcc acc nb).buf = s.buf := rfl
@[simp] theorem State.setAcc_acc (acc : BitVec 15) (nb : Nat) (s : State) :
    (s.setAcc acc nb).acc = acc := rfl
@[simp] theorem State.setAcc_nb (acc : BitVec 15) (nb : Nat) (s : State) :
    (s.setAcc acc nb).nb = nb := rfl
@[simp] theorem State.setAcc_out (acc : BitVec 15) (nb : Nat) (s : State) :
    (s.setAcc acc nb).out = s.out := rfl
@[simp] theorem State.setAcc_inputs (acc : BitVec 15) (nb : Nat) (s : State) :
    (s.setAcc acc nb).inputs = s.inputs := rfl
@[simp] theorem State.setAcc_readData (acc : BitVec 15) (nb : Nat) (s : State) :
    (s.setAcc acc nb).readData = s.readData := rfl
@[simp] theorem State.setAcc_entropy (acc : BitVec 15) (nb : Nat) (s : State) :
    (s.setAcc acc nb).entropy = s.entropy := rfl
@[simp] theorem State.setAcc_requests (acc : BitVec 15) (nb : Nat) (s : State) :
    (s.setAcc acc nb).requests = s.requests := rfl

/-! ### State.outWrite -/

@[simp] theorem State.outWrite_cmd (b : Byte) (s : State) :
    (s.outWrite b).cmd = s.cmd := rfl
@[simp] theorem State.outWrite_wgValid (b : Byte) (s : State) :
    (s.outWrite b).wgValid = s.wgValid := rfl
@[simp] theorem State.outWrite_wgDet (b : Byte) (s : State) :
    (s.outWrite b).wgDet = s.wgDet := rfl
@[simp] theorem State.outWrite_ksValid (b : Byte) (s : State) :
    (s.outWrite b).ksValid = s.ksValid := rfl
@[simp] theorem State.outWrite_ksDet (b : Byte) (s : State) :
    (s.outWrite b).ksDet = s.ksDet := rfl
@[simp] theorem State.outWrite_err (b : Byte) (s : State) :
    (s.outWrite b).err = s.err := rfl
@[simp] theorem State.outWrite_serr (b : Byte) (s : State) :
    (s.outWrite b).serr = s.serr := rfl
@[simp] theorem State.outWrite_res (b : Byte) (s : State) :
    (s.outWrite b).res = s.res := rfl
@[simp] theorem State.outWrite_outcnt (b : Byte) (s : State) :
    (s.outWrite b).outcnt = s.outcnt := rfl
@[simp] theorem State.outWrite_d (b : Byte) (s : State) :
    (s.outWrite b).d = s.d := rfl
@[simp] theorem State.outWrite_wg (b : Byte) (s : State) :
    (s.outWrite b).wg = s.wg := rfl
@[simp] theorem State.outWrite_key (b : Byte) (s : State) :
    (s.outWrite b).key = s.key := rfl
@[simp] theorem State.outWrite_nonce (b : Byte) (s : State) :
    (s.outWrite b).nonce = s.nonce := rfl
@[simp] theorem State.outWrite_ctr (b : Byte) (s : State) :
    (s.outWrite b).ctr = s.ctr := rfl
@[simp] theorem State.outWrite_cur (b : Byte) (s : State) :
    (s.outWrite b).cur = s.cur := rfl
@[simp] theorem State.outWrite_buf (b : Byte) (s : State) :
    (s.outWrite b).buf = s.buf := rfl
@[simp] theorem State.outWrite_acc (b : Byte) (s : State) :
    (s.outWrite b).acc = s.acc := rfl
@[simp] theorem State.outWrite_nb (b : Byte) (s : State) :
    (s.outWrite b).nb = s.nb := rfl
@[simp] theorem State.outWrite_out (b : Byte) (s : State) :
    (s.outWrite b).out = s.out ++ [b] := rfl
@[simp] theorem State.outWrite_inputs (b : Byte) (s : State) :
    (s.outWrite b).inputs = s.inputs := rfl
@[simp] theorem State.outWrite_readData (b : Byte) (s : State) :
    (s.outWrite b).readData = s.readData := rfl
@[simp] theorem State.outWrite_entropy (b : Byte) (s : State) :
    (s.outWrite b).entropy = s.entropy := rfl
@[simp] theorem State.outWrite_requests (b : Byte) (s : State) :
    (s.outWrite b).requests = s.requests := rfl

/-! ### State.noteEntropy -/

@[simp] theorem State.noteEntropy_cmd (n : Nat) (s : State) :
    (s.noteEntropy n).cmd = s.cmd := rfl
@[simp] theorem State.noteEntropy_wgValid (n : Nat) (s : State) :
    (s.noteEntropy n).wgValid = s.wgValid := rfl
@[simp] theorem State.noteEntropy_wgDet (n : Nat) (s : State) :
    (s.noteEntropy n).wgDet = s.wgDet := rfl
@[simp] theorem State.noteEntropy_ksValid (n : Nat) (s : State) :
    (s.noteEntropy n).ksValid = s.ksValid := rfl
@[simp] theorem State.noteEntropy_ksDet (n : Nat) (s : State) :
    (s.noteEntropy n).ksDet = s.ksDet := rfl
@[simp] theorem State.noteEntropy_err (n : Nat) (s : State) :
    (s.noteEntropy n).err = s.err := rfl
@[simp] theorem State.noteEntropy_serr (n : Nat) (s : State) :
    (s.noteEntropy n).serr = s.serr := rfl
@[simp] theorem State.noteEntropy_res (n : Nat) (s : State) :
    (s.noteEntropy n).res = s.res := rfl
@[simp] theorem State.noteEntropy_outcnt (n : Nat) (s : State) :
    (s.noteEntropy n).outcnt = s.outcnt := rfl
@[simp] theorem State.noteEntropy_d (n : Nat) (s : State) :
    (s.noteEntropy n).d = s.d := rfl
@[simp] theorem State.noteEntropy_wg (n : Nat) (s : State) :
    (s.noteEntropy n).wg = s.wg := rfl
@[simp] theorem State.noteEntropy_key (n : Nat) (s : State) :
    (s.noteEntropy n).key = s.key := rfl
@[simp] theorem State.noteEntropy_nonce (n : Nat) (s : State) :
    (s.noteEntropy n).nonce = s.nonce := rfl
@[simp] theorem State.noteEntropy_ctr (n : Nat) (s : State) :
    (s.noteEntropy n).ctr = s.ctr := rfl
@[simp] theorem State.noteEntropy_cur (n : Nat) (s : State) :
    (s.noteEntropy n).cur = s.cur := rfl
@[simp] theorem State.noteEntropy_buf (n : Nat) (s : State) :
    (s.noteEntropy n).buf = s.buf := rfl
@[simp] theorem State.noteEntropy_acc (n : Nat) (s : State) :
    (s.noteEntropy n).acc = s.acc := rfl
@[simp] theorem State.noteEntropy_nb (n : Nat) (s : State) :
    (s.noteEntropy n).nb = s.nb := rfl
@[simp] theorem State.noteEntropy_out (n : Nat) (s : State) :
    (s.noteEntropy n).out = s.out := rfl
@[simp] theorem State.noteEntropy_inputs (n : Nat) (s : State) :
    (s.noteEntropy n).inputs = s.inputs := rfl
@[simp] theorem State.noteEntropy_readData (n : Nat) (s : State) :
    (s.noteEntropy n).readData = s.readData := rfl
@[simp] theorem State.noteEntropy_entropy (n : Nat) (s : State) :
    (s.noteEntropy n).entropy = s.entropy.tail := rfl
@[simp] theorem State.noteEntropy_requests (n : Nat) (s : State) :
    (s.noteEntropy n).requests = s.requests ++ [.entropy n] := rfl

/-! ### State.resetInput -/

@[simp] theorem State.resetInput_cmd (c : Config) (s : State) :
    (s.resetInput c).cmd = (State.resetWith c).cmd := rfl
@[simp] theorem State.resetInput_wgValid (c : Config) (s : State) :
    (s.resetInput c).wgValid = (State.resetWith c).wgValid := rfl
@[simp] theorem State.resetInput_wgDet (c : Config) (s : State) :
    (s.resetInput c).wgDet = (State.resetWith c).wgDet := rfl
@[simp] theorem State.resetInput_ksValid (c : Config) (s : State) :
    (s.resetInput c).ksValid = (State.resetWith c).ksValid := rfl
@[simp] theorem State.resetInput_ksDet (c : Config) (s : State) :
    (s.resetInput c).ksDet = (State.resetWith c).ksDet := rfl
@[simp] theorem State.resetInput_err (c : Config) (s : State) :
    (s.resetInput c).err = (State.resetWith c).err := rfl
@[simp] theorem State.resetInput_serr (c : Config) (s : State) :
    (s.resetInput c).serr = (State.resetWith c).serr := rfl
@[simp] theorem State.resetInput_res (c : Config) (s : State) :
    (s.resetInput c).res = (State.resetWith c).res := rfl
@[simp] theorem State.resetInput_outcnt (c : Config) (s : State) :
    (s.resetInput c).outcnt = (State.resetWith c).outcnt := rfl
@[simp] theorem State.resetInput_d (c : Config) (s : State) :
    (s.resetInput c).d = (State.resetWith c).d := rfl
@[simp] theorem State.resetInput_wg (c : Config) (s : State) :
    (s.resetInput c).wg = (State.resetWith c).wg := rfl
@[simp] theorem State.resetInput_key (c : Config) (s : State) :
    (s.resetInput c).key = (State.resetWith c).key := rfl
@[simp] theorem State.resetInput_nonce (c : Config) (s : State) :
    (s.resetInput c).nonce = (State.resetWith c).nonce := rfl
@[simp] theorem State.resetInput_ctr (c : Config) (s : State) :
    (s.resetInput c).ctr = (State.resetWith c).ctr := rfl
@[simp] theorem State.resetInput_cur (c : Config) (s : State) :
    (s.resetInput c).cur = (State.resetWith c).cur := rfl
@[simp] theorem State.resetInput_buf (c : Config) (s : State) :
    (s.resetInput c).buf = (State.resetWith c).buf := rfl
@[simp] theorem State.resetInput_acc (c : Config) (s : State) :
    (s.resetInput c).acc = (State.resetWith c).acc := rfl
@[simp] theorem State.resetInput_nb (c : Config) (s : State) :
    (s.resetInput c).nb = (State.resetWith c).nb := rfl
@[simp] theorem State.resetInput_out (c : Config) (s : State) :
    (s.resetInput c).out = (State.resetWith c).out := rfl
@[simp] theorem State.resetInput_inputs (c : Config) (s : State) :
    (s.resetInput c).inputs = s.inputs := rfl
@[simp] theorem State.resetInput_readData (c : Config) (s : State) :
    (s.resetInput c).readData = s.readData := rfl
@[simp] theorem State.resetInput_entropy (c : Config) (s : State) :
    (s.resetInput c).entropy = s.entropy := rfl
@[simp] theorem State.resetInput_requests (c : Config) (s : State) :
    (s.resetInput c).requests = s.requests := rfl

/-! ### State.resetWith -/

@[simp] theorem State.resetWith_cmd (c : Config) : (State.resetWith c).cmd = 0 := rfl
@[simp] theorem State.resetWith_wgValid (c : Config) : (State.resetWith c).wgValid = false := rfl
@[simp] theorem State.resetWith_wgDet (c : Config) : (State.resetWith c).wgDet = false := rfl
@[simp] theorem State.resetWith_ksValid (c : Config) : (State.resetWith c).ksValid = false := rfl
@[simp] theorem State.resetWith_ksDet (c : Config) : (State.resetWith c).ksDet = false := rfl
@[simp] theorem State.resetWith_err (c : Config) : (State.resetWith c).err = .ok := rfl
@[simp] theorem State.resetWith_serr (c : Config) : (State.resetWith c).serr = 0 := rfl
@[simp] theorem State.resetWith_res (c : Config) : (State.resetWith c).res = 0 := rfl
@[simp] theorem State.resetWith_outcnt (c : Config) : (State.resetWith c).outcnt = 0 := rfl
@[simp] theorem State.resetWith_d (c : Config) : (State.resetWith c).d = List.replicate (ndata c) 0 := rfl
@[simp] theorem State.resetWith_wg (c : Config) : (State.resetWith c).wg = Quad.zero := rfl
@[simp] theorem State.resetWith_key (c : Config) : (State.resetWith c).key = List.replicate c.keyLen 0 := rfl
@[simp] theorem State.resetWith_nonce (c : Config) : (State.resetWith c).nonce = List.replicate c.nonceLen 0 := rfl
@[simp] theorem State.resetWith_ctr (c : Config) : (State.resetWith c).ctr = 0 := rfl
@[simp] theorem State.resetWith_cur (c : Config) : (State.resetWith c).cur = BitVec.ofNat 16 c.blockLen := rfl
@[simp] theorem State.resetWith_buf (c : Config) : (State.resetWith c).buf = List.replicate c.blockLen 0 := rfl
@[simp] theorem State.resetWith_acc (c : Config) : (State.resetWith c).acc = 0 := rfl
@[simp] theorem State.resetWith_nb (c : Config) : (State.resetWith c).nb = 0 := rfl
@[simp] theorem State.resetWith_out (c : Config) : (State.resetWith c).out = [] := rfl
@[simp] theorem State.resetWith_inputs (c : Config) : (State.resetWith c).inputs = [] := rfl
@[simp] theorem State.resetWith_readData (c : Config) : (State.resetWith c).readData = [] := rfl
@[simp] theorem State.resetWith_entropy (c : Config) : (State.resetWith c).entropy = [] := rfl
@[simp] theorem State.resetWith_requests (c : Config) : (State.resetWith c).requests = [] := rfl

end Sys2Proof.Machine
end

