-- ==== Sys2Proof/Laws/Ops.lean ====
section
/-! SUPPORT. What each shared operation can do, said once: later proofs cite these and unfold no operation. -/

namespace Sys2Proof.Machine

/-! ### Completions -/

@[simp] theorem Completion.sticky_ok : Completion.sticky .ok = 0 := rfl

theorem State.complete_eq (why : Completion) (cnt : Nat) (s : State) :
    s.complete why cnt =
      { s with err := why, serr := s.serr ||| why.sticky, outcnt := BitVec.ofNat 64 cnt } := rfl

/-- A command that completes `OK` leaves the sticky mask as it was (R250). -/
theorem State.complete_ok_eq (cnt : Nat) (s : State) :
    s.complete .ok cnt = { s with err := .ok, outcnt := BitVec.ofNat 64 cnt } := by
  simp [State.complete]

/-! ### Procedures -/

@[simp] theorem Attempt.bind_done {α β : Type} (a : α) (s : State) (f : α → State → Attempt β) :
    (Attempt.done a s).bind f = f a s := rfl

@[simp] theorem Attempt.bind_raised {α β : Type} (why : Completion) (s : State) (f : α → State → Attempt β) :
    (Attempt.raised why s : Attempt α).bind f = .raised why s := rfl

@[simp] theorem Attempt.bind_hung {α β : Type} (f : α → State → Attempt β) :
    (Attempt.hung : Attempt α).bind f = .hung := rfl

theorem Attempt.bind_eq_done {α β : Type} {x : Attempt α} {f : α → State → Attempt β} {b : β} {t : State}
    (h : x.bind f = .done b t) : ∃ a s, x = .done a s ∧ f a s = .done b t := by
  cases x with
  | done a s => exact ⟨a, s, rfl, h⟩
  | raised why s => cases h
  | hung => cases h

/-- What a finished command that delivers a result can be: it completes `OK` with the result in `RES`, or it
faults with `RES` as it was, or it hangs. -/
theorem finishResult_next {x : Attempt Word} {t : State} (h : finishResult x = .next t) :
    (∃ r s, x = .done r s ∧ t = (s.setRes r).complete .ok 0) ∨
    (∃ why s, x = .raised why s ∧ t = s.complete why 0) := by
  cases x with
  | done r s => exact .inl ⟨r, s, rfl, by simpa [finishResult] using h.symm⟩
  | raised why s => exact .inr ⟨why, s, rfl, by simpa [finishResult] using h.symm⟩
  | hung => simp [finishResult] at h

/-- What a finished command that writes OUT can be. -/
theorem finishOut_next {start t : State} {x : Attempt Unit} (h : finishOut start x = .next t) :
    (∃ s, x = .done () s ∧ t = s.complete .ok (emitted start s)) ∨
    (∃ why s, x = .raised why s ∧ t = s.complete why (emitted start s)) := by
  cases x with
  | done u s => exact .inl ⟨s, rfl, by simpa [finishOut] using h.symm⟩
  | raised why s => exact .inr ⟨why, s, rfl, by simpa [finishOut] using h.symm⟩
  | hung => simp [finishOut] at h

/-! ### The entropy port -/

@[simp] theorem entropyBytes_length (k n : Nat) (listed : List Byte) : (entropyBytes k n listed).length = n := by
  simp [entropyBytes]

/-- An answer has the length that was asked for (R66). -/
theorem entropyAnswer_length {n : Nat} {s : State} {e : List Byte} (h : entropyAnswer n s = some e) :
    e.length = n := by
  unfold entropyAnswer at h
  split at h
  · cases h
  · cases h; simp
  · split at h
    · cases h
    · cases h; simp

/-- An answer that is among the run's inputs and lists at least the bytes asked for is taken as it is. -/
theorem entropyAnswer_listed {n : Nat} {s : State} {bytes : List Byte} {rest : List EntropyAnswer}
    (h : s.entropy = .ok bytes :: rest) (hn : bytes.length = n) : entropyAnswer n s = some bytes := by
  simp only [entropyAnswer, h, entropyBytes, Option.some.injEq]
  apply List.ext_getElem
  · simp [hn]
  · intro i h1 h2
    simp [List.getD, List.getElem?_eq_getElem h2]

/-! ### The keystream -/

/-- The refill does one of three things (R153, R155): nothing, when bytes are left in the buffer; a fault with
nothing changed, when the counter is at its maximum; or the load of one block. -/
theorem ksRefill_cases (c : Config) (s : State) :
    (s.cur.toNat < c.blockLen ∧ ksRefill c s = .done () s) ∨
    (c.blockLen ≤ s.cur.toNat ∧ s.ctr = ctrMax ∧ ksRefill c s = .raised .counterExhausted s) ∨
    (c.blockLen ≤ s.cur.toNat ∧ s.ctr ≠ ctrMax ∧ ksRefill c s = .done () (s.loadBlock (nextBlock c s))) := by
  unfold ksRefill isReady
  by_cases h : s.cur.toNat < c.blockLen
  · exact .inl ⟨h, by simp [h]⟩
  · by_cases hm : s.ctr = ctrMax
    · exact .inr (.inl ⟨by omega, hm, by simp [h, hm]⟩)
    · exact .inr (.inr ⟨by omega, hm, by simp [h, hm]⟩)

/-- A byte from a machine that is Ready. -/
theorem ksByte_ready {c : Config} {s : State} (h : s.cur.toNat < c.blockLen) :
    ksByte c s = .done (bufRead s.cur.toNat s) s.advanceCur := by
  rcases ksRefill_cases c s with ⟨_, hr⟩ | ⟨h', _⟩ | ⟨h', _⟩
  · simp [ksByte, hr]
  · omega
  · omega

/-- A byte from a machine that is Exhausted, below the counter's maximum. -/
theorem ksByte_refill {c : Config} {s : State} (h : c.blockLen ≤ s.cur.toNat) (hm : s.ctr ≠ ctrMax) :
    ksByte c s = .done (bufRead 0 (s.loadBlock (nextBlock c s))) (s.loadBlock (nextBlock c s)).advanceCur := by
  rcases ksRefill_cases c s with ⟨h', _⟩ | ⟨_, hm', _⟩ | ⟨_, _, hr⟩
  · omega
  · exact absurd hm' hm
  · simp [ksByte, hr]

/-- No byte from a machine that is Exhausted at the counter's maximum (R155). -/
theorem ksByte_exhausted {c : Config} {s : State} (h : c.blockLen ≤ s.cur.toNat) (hm : s.ctr = ctrMax) :
    ksByte c s = .raised .counterExhausted s := by
  rcases ksRefill_cases c s with ⟨h', _⟩ | ⟨_, _, hr⟩ | ⟨_, hm', _⟩
  · omega
  · simp [ksByte, hr]
  · exact absurd hm hm'

/-- A keystream byte is a case of one of these three. -/
theorem ksByte_cases (c : Config) (s : State) :
    (s.cur.toNat < c.blockLen ∧ ksByte c s = .done (bufRead s.cur.toNat s) s.advanceCur) ∨
    (c.blockLen ≤ s.cur.toNat ∧ s.ctr = ctrMax ∧ ksByte c s = .raised .counterExhausted s) ∨
    (c.blockLen ≤ s.cur.toNat ∧ s.ctr ≠ ctrMax ∧
      ksByte c s = .done (bufRead 0 (s.loadBlock (nextBlock c s))) (s.loadBlock (nextBlock c s)).advanceCur) := by
  by_cases h : s.cur.toNat < c.blockLen
  · exact .inl ⟨h, ksByte_ready h⟩
  · by_cases hm : s.ctr = ctrMax
    · exact .inr (.inl ⟨by omega, hm, ksByte_exhausted (by omega) hm⟩)
    · exact .inr (.inr ⟨by omega, hm, ksByte_refill (by omega) hm⟩)

@[simp] theorem ksBytes_zero (c : Config) (s : State) : ksBytes c 0 s = .done [] s := rfl

theorem ksBytes_succ (c : Config) (k : Nat) (s : State) :
    ksBytes c (k + 1) s =
      (ksByte c s).bind fun b s1 => (ksBytes c k s1).bind fun bs s2 => .done (b :: bs) s2 := rfl

@[simp] theorem emit_zero (next : State → Attempt Byte) (s : State) : emit next 0 s = .done () s := rfl

theorem emit_succ (next : State → Attempt Byte) (k : Nat) (s : State) :
    emit next (k + 1) s = (next s).bind fun b s1 => emit next k (s1.outWrite b) := rfl

end Sys2Proof.Machine
end

