-- ==== Sys2Proof/Laws/Keystream.lean ====
section
/-! SUPPORT. The keystream in closed form: what `ksBytes` delivers and where it leaves the generator. -/

namespace Sys2Proof.Machine

/-! ### State.withKs and State.withOut -/

@[simp] theorem State.withKs_cmd (buf : List Byte) (cur : BitVec 16) (ctr : Word) (requests : List PortRequest) (s : State) :
    (s.withKs buf cur ctr requests).cmd = s.cmd := rfl
@[simp] theorem State.withKs_wgValid (buf : List Byte) (cur : BitVec 16) (ctr : Word) (requests : List PortRequest) (s : State) :
    (s.withKs buf cur ctr requests).wgValid = s.wgValid := rfl
@[simp] theorem State.withKs_wgDet (buf : List Byte) (cur : BitVec 16) (ctr : Word) (requests : List PortRequest) (s : State) :
    (s.withKs buf cur ctr requests).wgDet = s.wgDet := rfl
@[simp] theorem State.withKs_ksValid (buf : List Byte) (cur : BitVec 16) (ctr : Word) (requests : List PortRequest) (s : State) :
    (s.withKs buf cur ctr requests).ksValid = s.ksValid := rfl
@[simp] theorem State.withKs_ksDet (buf : List Byte) (cur : BitVec 16) (ctr : Word) (requests : List PortRequest) (s : State) :
    (s.withKs buf cur ctr requests).ksDet = s.ksDet := rfl
@[simp] theorem State.withKs_err (buf : List Byte) (cur : BitVec 16) (ctr : Word) (requests : List PortRequest) (s : State) :
    (s.withKs buf cur ctr requests).err = s.err := rfl
@[simp] theorem State.withKs_serr (buf : List Byte) (cur : BitVec 16) (ctr : Word) (requests : List PortRequest) (s : State) :
    (s.withKs buf cur ctr requests).serr = s.serr := rfl
@[simp] theorem State.withKs_res (buf : List Byte) (cur : BitVec 16) (ctr : Word) (requests : List PortRequest) (s : State) :
    (s.withKs buf cur ctr requests).res = s.res := rfl
@[simp] theorem State.withKs_outcnt (buf : List Byte) (cur : BitVec 16) (ctr : Word) (requests : List PortRequest) (s : State) :
    (s.withKs buf cur ctr requests).outcnt = s.outcnt := rfl
@[simp] theorem State.withKs_d (buf : List Byte) (cur : BitVec 16) (ctr : Word) (requests : List PortRequest) (s : State) :
    (s.withKs buf cur ctr requests).d = s.d := rfl
@[simp] theorem State.withKs_wg (buf : List Byte) (cur : BitVec 16) (ctr : Word) (requests : List PortRequest) (s : State) :
    (s.withKs buf cur ctr requests).wg = s.wg := rfl
@[simp] theorem State.withKs_key (buf : List Byte) (cur : BitVec 16) (ctr : Word) (requests : List PortRequest) (s : State) :
    (s.withKs buf cur ctr requests).key = s.key := rfl
@[simp] theorem State.withKs_nonce (buf : List Byte) (cur : BitVec 16) (ctr : Word) (requests : List PortRequest) (s : State) :
    (s.withKs buf cur ctr requests).nonce = s.nonce := rfl
@[simp] theorem State.withKs_ctr (buf : List Byte) (cur : BitVec 16) (ctr : Word) (requests : List PortRequest) (s : State) :
    (s.withKs buf cur ctr requests).ctr = ctr := rfl
@[simp] theorem State.withKs_cur (buf : List Byte) (cur : BitVec 16) (ctr : Word) (requests : List PortRequest) (s : State) :
    (s.withKs buf cur ctr requests).cur = cur := rfl
@[simp] theorem State.withKs_buf (buf : List Byte) (cur : BitVec 16) (ctr : Word) (requests : List PortRequest) (s : State) :
    (s.withKs buf cur ctr requests).buf = buf := rfl
@[simp] theorem State.withKs_acc (buf : List Byte) (cur : BitVec 16) (ctr : Word) (requests : List PortRequest) (s : State) :
    (s.withKs buf cur ctr requests).acc = s.acc := rfl
@[simp] theorem State.withKs_nb (buf : List Byte) (cur : BitVec 16) (ctr : Word) (requests : List PortRequest) (s : State) :
    (s.withKs buf cur ctr requests).nb = s.nb := rfl
@[simp] theorem State.withKs_out (buf : List Byte) (cur : BitVec 16) (ctr : Word) (requests : List PortRequest) (s : State) :
    (s.withKs buf cur ctr requests).out = s.out := rfl
@[simp] theorem State.withKs_inputs (buf : List Byte) (cur : BitVec 16) (ctr : Word) (requests : List PortRequest) (s : State) :
    (s.withKs buf cur ctr requests).inputs = s.inputs := rfl
@[simp] theorem State.withKs_readData (buf : List Byte) (cur : BitVec 16) (ctr : Word) (requests : List PortRequest) (s : State) :
    (s.withKs buf cur ctr requests).readData = s.readData := rfl
@[simp] theorem State.withKs_entropy (buf : List Byte) (cur : BitVec 16) (ctr : Word) (requests : List PortRequest) (s : State) :
    (s.withKs buf cur ctr requests).entropy = s.entropy := rfl
@[simp] theorem State.withKs_requests (buf : List Byte) (cur : BitVec 16) (ctr : Word) (requests : List PortRequest) (s : State) :
    (s.withKs buf cur ctr requests).requests = requests := rfl

@[simp] theorem State.withOut_cmd (o : List Byte) (s : State) :
    (s.withOut o).cmd = s.cmd := rfl
@[simp] theorem State.withOut_wgValid (o : List Byte) (s : State) :
    (s.withOut o).wgValid = s.wgValid := rfl
@[simp] theorem State.withOut_wgDet (o : List Byte) (s : State) :
    (s.withOut o).wgDet = s.wgDet := rfl
@[simp] theorem State.withOut_ksValid (o : List Byte) (s : State) :
    (s.withOut o).ksValid = s.ksValid := rfl
@[simp] theorem State.withOut_ksDet (o : List Byte) (s : State) :
    (s.withOut o).ksDet = s.ksDet := rfl
@[simp] theorem State.withOut_err (o : List Byte) (s : State) :
    (s.withOut o).err = s.err := rfl
@[simp] theorem State.withOut_serr (o : List Byte) (s : State) :
    (s.withOut o).serr = s.serr := rfl
@[simp] theorem State.withOut_res (o : List Byte) (s : State) :
    (s.withOut o).res = s.res := rfl
@[simp] theorem State.withOut_outcnt (o : List Byte) (s : State) :
    (s.withOut o).outcnt = s.outcnt := rfl
@[simp] theorem State.withOut_d (o : List Byte) (s : State) :
    (s.withOut o).d = s.d := rfl
@[simp] theorem State.withOut_wg (o : List Byte) (s : State) :
    (s.withOut o).wg = s.wg := rfl
@[simp] theorem State.withOut_key (o : List Byte) (s : State) :
    (s.withOut o).key = s.key := rfl
@[simp] theorem State.withOut_nonce (o : List Byte) (s : State) :
    (s.withOut o).nonce = s.nonce := rfl
@[simp] theorem State.withOut_ctr (o : List Byte) (s : State) :
    (s.withOut o).ctr = s.ctr := rfl
@[simp] theorem State.withOut_cur (o : List Byte) (s : State) :
    (s.withOut o).cur = s.cur := rfl
@[simp] theorem State.withOut_buf (o : List Byte) (s : State) :
    (s.withOut o).buf = s.buf := rfl
@[simp] theorem State.withOut_acc (o : List Byte) (s : State) :
    (s.withOut o).acc = s.acc := rfl
@[simp] theorem State.withOut_nb (o : List Byte) (s : State) :
    (s.withOut o).nb = s.nb := rfl
@[simp] theorem State.withOut_out (o : List Byte) (s : State) :
    (s.withOut o).out = o := rfl
@[simp] theorem State.withOut_inputs (o : List Byte) (s : State) :
    (s.withOut o).inputs = s.inputs := rfl
@[simp] theorem State.withOut_readData (o : List Byte) (s : State) :
    (s.withOut o).readData = s.readData := rfl
@[simp] theorem State.withOut_entropy (o : List Byte) (s : State) :
    (s.withOut o).entropy = s.entropy := rfl
@[simp] theorem State.withOut_requests (o : List Byte) (s : State) :
    (s.withOut o).requests = s.requests := rfl
/-! ### Where the keystream stands -/

theorem ctrMax_toNat : ctrMax.toNat = 2 ^ 64 - 1 := by decide

theorem ctr_le_ctrMax (a : Word) : a.toNat ≤ ctrMax.toNat := by
  rw [ctrMax_toNat]; have := a.isLt; omega

/-- The counter after `k` more refills, as long as it stays within its range. -/
theorem ctr_add_toNat {a : Word} {k : Nat} (h : a.toNat + k ≤ ctrMax.toNat) :
    (a + BitVec.ofNat 64 k).toNat = a.toNat + k := by
  rw [ctrMax_toNat] at h
  rw [BitVec.toNat_add, BitVec.toNat_ofNat]
  omega

theorem afterBytes_of_le {c : Config} {s : State} {n : Nat} (h : n ≤ inBuffer c s) :
    afterBytes c s n = s.withKs s.buf (s.cur + BitVec.ofNat 16 n) s.ctr s.requests := if_pos h

/-- Past the buffer by `j + 1` bytes. -/
theorem afterBytes_of_gt {c : Config} {s : State} {n j : Nat} (h : n = inBuffer c s + (j + 1)) :
    afterBytes c s n =
      s.withKs
        ((List.range c.blockLen).map (c.blockFn s.key s.nonce (s.ctr + BitVec.ofNat 64 (j / c.blockLen))))
        (BitVec.ofNat 16 (j % c.blockLen + 1))
        (s.ctr + BitVec.ofNat 64 (j / c.blockLen + 1))
        (s.requests ++ blockRequests s (j / c.blockLen + 1)) := by
  have h1 : ¬ n ≤ inBuffer c s := by omega
  have h2 : n - inBuffer c s - 1 = j := by omega
  simp only [afterBytes, if_neg h1, h2]

theorem afterBytes_zero (c : Config) (s : State) : afterBytes c s 0 = s := by
  rw [afterBytes_of_le (Nat.zero_le _)]; simp [State.withKs]

theorem blockRequests_succ (s : State) (k : Nat) :
    blockRequests s (k + 1) = blockRequests s k ++ [.block s.key s.nonce (s.ctr + BitVec.ofNat 64 k)] := by
  simp [blockRequests, List.range_succ]

theorem comingByte_of_lt {c : Config} {s : State} {n : Nat} (h : n < inBuffer c s) :
    comingByte c s n = s.buf.getD (s.cur.toNat + n) 0 := if_pos h

theorem comingByte_of_ge {c : Config} {s : State} {n j : Nat} (h : n = inBuffer c s + j) :
    comingByte c s n = c.blockFn s.key s.nonce (s.ctr + BitVec.ofNat 64 (j / c.blockLen)) (j % c.blockLen) := by
  have h1 : ¬ n < inBuffer c s := by omega
  have h2 : n - inBuffer c s = j := by omega
  simp only [comingByte, if_neg h1, h2]

/-- A byte of the block in the buffer. -/
theorem bufRead_block {f : Nat → Byte} {s : State} {L i : Nat} (h : s.buf = (List.range L).map f) (hi : i < L) :
    bufRead i s = f i := by
  simp [bufRead, h, List.getD, hi]

/-- One byte at a time: `n` bytes into the keystream, byte `n` is delivered while bytes are left. -/
theorem ksByte_afterBytes {c : Config} {s : State} {n : Nat} (hL : 1 ≤ c.blockLen)
    (hL' : c.blockLen < 2 ^ 16) (hcur : s.cur.toNat ≤ c.blockLen) (hn : n < bytesLeft c s) :
    ksByte c (afterBytes c s n) = .done (comingByte c s n) (afterBytes c s (n + 1)) := by
  have hcm := ctr_le_ctrMax s.ctr
  by_cases h1 : n < inBuffer c s
  · -- still in the buffer
    have hn' : s.cur.toNat + n < c.blockLen := by unfold inBuffer at h1; omega
    have hc : (s.cur + BitVec.ofNat 16 n).toNat = s.cur.toNat + n := by
      rw [BitVec.toNat_add, BitVec.toNat_ofNat]; omega
    rw [afterBytes_of_le h1.le, afterBytes_of_le (n := n + 1) h1, comingByte_of_lt h1,
      ksByte_ready (by simpa only [State.withKs_cur, hc] using hn')]
    simp only [State.withKs_cur, hc, bufRead, State.withKs_buf, Attempt.done.injEq, true_and]
    simp [State.withKs, State.advanceCur, BitVec.ofNat_add, BitVec.add_assoc]
  · by_cases h2 : n = inBuffer c s
    · -- the first refill
      have hctr : s.ctr.toNat < ctrMax.toNat := by
        by_contra hge
        have : ctrMax.toNat - s.ctr.toNat = 0 := by omega
        simp [bytesLeft, this] at hn; omega
      have hne : s.ctr ≠ ctrMax := fun h => by rw [h] at hctr; omega
      have hc : (s.cur + BitVec.ofNat 16 n).toNat = c.blockLen := by
        rw [BitVec.toNat_add, BitVec.toNat_ofNat, h2]; unfold inBuffer; omega
      rw [afterBytes_of_le h2.le, afterBytes_of_gt (n := n + 1) (j := 0) (by omega),
        comingByte_of_ge (j := 0) (by omega),
        ksByte_refill (s := s.withKs s.buf (s.cur + BitVec.ofNat 16 n) s.ctr s.requests) hc.ge hne,
        bufRead_block (L := c.blockLen) rfl (by omega)]
      simp [State.withKs, State.advanceCur, State.loadBlock, nextBlock, blockRequests]
    · -- beyond the buffer
      obtain ⟨j, hj⟩ : ∃ j, n = inBuffer c s + (j + 1) := ⟨n - inBuffer c s - 1, by omega⟩
      have hmod : j % c.blockLen < c.blockLen := Nat.mod_lt _ hL
      have hdm := Nat.div_add_mod j c.blockLen
      have hcl : (BitVec.ofNat 16 (j % c.blockLen + 1)).toNat = j % c.blockLen + 1 := by
        rw [BitVec.toNat_ofNat]; omega
      rw [afterBytes_of_gt hj, afterBytes_of_gt (n := n + 1) (j := j + 1) (by omega), comingByte_of_ge hj]
      by_cases hr : j % c.blockLen + 1 < c.blockLen
      · have h1L : 1 < c.blockLen := by omega
        have hm : (j + 1) % c.blockLen = j % c.blockLen + 1 := by
          rw [Nat.add_mod, Nat.mod_eq_of_lt h1L, Nat.mod_eq_of_lt hr]
        have hd : (j + 1) / c.blockLen = j / c.blockLen := by
          have hdm' := Nat.div_add_mod (j + 1) c.blockLen
          rw [hm] at hdm'
          exact Nat.eq_of_mul_eq_mul_left hL (by omega)
        rw [ksByte_ready (by simpa only [State.withKs_cur, hcl] using hr)]
        simp only [State.withKs_cur, hcl]
        rw [bufRead_block (L := c.blockLen) rfl hr, hd, hm]
        simp [State.withKs, State.advanceCur, BitVec.ofNat_add]
      · have hr' : j % c.blockLen + 1 = c.blockLen := by omega
        have hj1 : j + 1 = c.blockLen * (j / c.blockLen + 1) := by rw [Nat.mul_add]; omega
        have hd : (j + 1) / c.blockLen = j / c.blockLen + 1 := by
          rw [hj1]; exact Nat.mul_div_cancel_left _ hL
        have hm : (j + 1) % c.blockLen = 0 := by rw [hj1]; exact Nat.mul_mod_right _ _
        have hctr : s.ctr.toNat + (j / c.blockLen + 1) < ctrMax.toNat := by
          by_contra hge
          have h3 : ctrMax.toNat - s.ctr.toNat ≤ j / c.blockLen + 1 := by omega
          have h4 : (ctrMax.toNat - s.ctr.toNat) * c.blockLen ≤ c.blockLen * (j / c.blockLen + 1) := by
            rw [Nat.mul_comm]; exact Nat.mul_le_mul_left _ h3
          unfold bytesLeft at hn
          omega
        have hne : s.ctr + BitVec.ofNat 64 (j / c.blockLen + 1) ≠ ctrMax := fun h => by
          have := ctr_add_toNat (a := s.ctr) (k := j / c.blockLen + 1) hctr.le
          rw [h] at this; omega
        rw [ksByte_refill (by simp only [State.withKs_cur, hcl]; omega) hne,
          bufRead_block (L := c.blockLen) rfl (by omega), hd, hm]
        simp [State.withKs, State.advanceCur, State.loadBlock, nextBlock,
          blockRequests_succ s (j / c.blockLen + 1), BitVec.ofNat_add, BitVec.add_assoc]

/-- With every byte delivered, the machine is Exhausted at the counter's maximum (R251). -/
theorem afterBytes_bytesLeft {c : Config} {s : State} (hL : 1 ≤ c.blockLen)
    (hcur : s.cur.toNat ≤ c.blockLen) :
    (afterBytes c s (bytesLeft c s)).cur = BitVec.ofNat 16 c.blockLen ∧
    (afterBytes c s (bytesLeft c s)).ctr = ctrMax := by
  have hcm := ctr_le_ctrMax s.ctr
  rcases Nat.eq_zero_or_pos (ctrMax.toNat - s.ctr.toNat) with hz | hz
  · have hb : bytesLeft c s = inBuffer c s := by simp [bytesLeft, hz]
    rw [hb, afterBytes_of_le (le_refl _)]
    refine ⟨?_, BitVec.eq_of_toNat_eq (by simp only [State.withKs_ctr]; omega)⟩
    apply BitVec.eq_of_toNat_eq
    rw [State.withKs_cur, BitVec.toNat_add, BitVec.toNat_ofNat, BitVec.toNat_ofNat]; unfold inBuffer; omega
  · obtain ⟨m, hm⟩ : ∃ m, ctrMax.toNat - s.ctr.toNat = m + 1 := ⟨_, (Nat.succ_pred hz.ne').symm⟩
    have hj : bytesLeft c s = inBuffer c s + ((c.blockLen * m + (c.blockLen - 1)) + 1) := by
      simp only [bytesLeft, hm, Nat.add_mul, Nat.mul_comm m]; omega
    have hmod : (c.blockLen * m + (c.blockLen - 1)) % c.blockLen = c.blockLen - 1 := by
      rw [Nat.mul_add_mod, Nat.mod_eq_of_lt (by omega)]
    have hdiv : (c.blockLen * m + (c.blockLen - 1)) / c.blockLen = m := by
      rw [Nat.mul_add_div hL, Nat.div_eq_of_lt (by omega), Nat.add_zero]
    rw [afterBytes_of_gt hj, hmod, hdiv]
    refine ⟨?_, ?_⟩
    · rw [State.withKs_cur, Nat.sub_add_cancel hL]
    · apply BitVec.eq_of_toNat_eq
      rw [State.withKs_ctr, ctr_add_toNat (by omega)]; omega

/-! ### Bytes -/

/-- The keystream law (R154) from any point on: `k` bytes taken `n` bytes into the keystream. -/
theorem ksBytes_afterBytes {c : Config} {s : State} (hL : 1 ≤ c.blockLen) (hL' : c.blockLen < 2 ^ 16)
    (hcur : s.cur.toNat ≤ c.blockLen) (k : Nat) : ∀ n, n + k ≤ bytesLeft c s →
    ksBytes c k (afterBytes c s n) =
      .done ((List.range' n k).map (comingByte c s)) (afterBytes c s (n + k)) := by
  induction k with
  | zero => intro n _; simp
  | succ k ih =>
    intro n hn
    rw [ksBytes_succ, ksByte_afterBytes hL hL' hcur (by omega), Attempt.bind_done, ih (n + 1) (by omega)]
    simp [List.range'_succ, Nat.add_assoc, Nat.add_comm 1 k]

/-- The next `n` bytes, when they are there. -/
theorem ksBytes_done {c : Config} {s : State} (hL : 1 ≤ c.blockLen) (hL' : c.blockLen < 2 ^ 16)
    (hcur : s.cur.toNat ≤ c.blockLen) {n : Nat} (hn : n ≤ bytesLeft c s) :
    ksBytes c n s = .done (comingBytes c s n) (afterBytes c s n) := by
  have h := ksBytes_afterBytes hL hL' hcur n 0 (by omega)
  rw [afterBytes_zero, Nat.zero_add] at h
  rw [h, comingBytes, List.range_eq_range']

/-- More bytes than are left, `m` bytes into the keystream: every byte left is taken, and then the counter is
found exhausted (R155, R157). -/
theorem ksBytes_afterBytes_raised {c : Config} {s : State} (hL : 1 ≤ c.blockLen) (hL' : c.blockLen < 2 ^ 16)
    (hcur : s.cur.toNat ≤ c.blockLen) (e : Nat) : ∀ m, m ≤ bytesLeft c s → bytesLeft c s < m + e →
    ksBytes c e (afterBytes c s m) = .raised .counterExhausted (afterBytes c s (bytesLeft c s)) := by
  induction e with
  | zero => intro m h1 h2; omega
  | succ e ih =>
    intro m h1 h2
    rcases Nat.eq_or_lt_of_le h1 with rfl | hlt
    · obtain ⟨h3, h4⟩ := afterBytes_bytesLeft (s := s) hL hcur
      rw [ksBytes_succ, ksByte_exhausted ?_ h4, Attempt.bind_raised]
      rw [h3, BitVec.toNat_ofNat]; omega
    · rw [ksBytes_succ, ksByte_afterBytes hL hL' hcur hlt, Attempt.bind_done,
        ih (m + 1) hlt (by omega), Attempt.bind_raised]

/-- More bytes than are left. -/
theorem ksBytes_raised {c : Config} {s : State} (hL : 1 ≤ c.blockLen) (hL' : c.blockLen < 2 ^ 16)
    (hcur : s.cur.toNat ≤ c.blockLen) {n : Nat} (hn : bytesLeft c s < n) :
    ksBytes c n s = .raised .counterExhausted (afterBytes c s (bytesLeft c s)) := by
  have h := ksBytes_afterBytes_raised (s := s) hL hL' hcur n 0 (by omega) (by omega)
  rwa [afterBytes_zero] at h

end Sys2Proof.Machine
end

