-- ==== Sys2Proof/Laws/OutStream.lean ====
section
/-! SUPPORT. The loops that fill the OUT stream in closed form: `KS.FILL`'s bytes and `TX.TEXT`'s characters. -/

namespace Sys2Proof.Machine

/-! ### Fields the keystream does not look at -/

theorem afterBytes_withOut (c : Config) (s : State) (n : Nat) (o : List Byte) :
    afterBytes c (s.withOut o) n = (afterBytes c s n).withOut o := by
  by_cases h : n ≤ inBuffer c s
  · rw [afterBytes_of_le h, afterBytes_of_le (s := s.withOut o) h]; rfl
  · obtain ⟨j, hj⟩ : ∃ j, n = inBuffer c s + (j + 1) := ⟨n - inBuffer c s - 1, by omega⟩
    rw [afterBytes_of_gt hj, afterBytes_of_gt (s := s.withOut o) hj]; rfl

theorem afterBytes_setAcc (c : Config) (s : State) (n : Nat) (acc : BitVec 15) (nb : Nat) :
    afterBytes c (s.setAcc acc nb) n = (afterBytes c s n).setAcc acc nb := by
  by_cases h : n ≤ inBuffer c s
  · rw [afterBytes_of_le h, afterBytes_of_le (s := s.setAcc acc nb) h]; rfl
  · obtain ⟨j, hj⟩ : ∃ j, n = inBuffer c s + (j + 1) := ⟨n - inBuffer c s - 1, by omega⟩
    rw [afterBytes_of_gt hj, afterBytes_of_gt (s := s.setAcc acc nb) hj]; rfl

/-- Of the keystream's four fields the delivery writes nothing else (R153). -/
theorem afterBytes_frame (c : Config) (s : State) (n : Nat) :
    afterBytes c s n =
      s.withKs (afterBytes c s n).buf (afterBytes c s n).cur (afterBytes c s n).ctr
        (afterBytes c s n).requests := by
  by_cases h : n ≤ inBuffer c s
  · rw [afterBytes_of_le h]; rfl
  · obtain ⟨j, hj⟩ : ∃ j, n = inBuffer c s + (j + 1) := ⟨n - inBuffer c s - 1, by omega⟩
    rw [afterBytes_of_gt hj]; rfl

/-! ### `KS.FILL` -/

/-- `k` bytes to OUT, from `n` bytes into the keystream on. -/
theorem emit_ksByte_from {c : Config} {s : State} (hL : 1 ≤ c.blockLen) (hL' : c.blockLen < 2 ^ 16)
    (hcur : s.cur.toNat ≤ c.blockLen) (k : Nat) : ∀ n o e, n + k ≤ bytesLeft c s →
    emit (ksByte c) (k + e) ((afterBytes c s n).withOut o) =
      emit (ksByte c) e
        ((afterBytes c s (n + k)).withOut (o ++ (List.range' n k).map (comingByte c s))) := by
  induction k with
  | zero => intro n o e _; simp
  | succ k ih =>
    intro n o e hn
    have hb : ksByte c ((afterBytes c s n).withOut o) =
        .done (comingByte c s n) ((afterBytes c s (n + 1)).withOut o) := by
      rw [← afterBytes_withOut, ← afterBytes_withOut]
      exact ksByte_afterBytes (s := s.withOut o) hL hL' hcur (lt_of_lt_of_le (by omega) hn)
    have hw : ((afterBytes c s (n + 1)).withOut o).outWrite (comingByte c s n) =
        (afterBytes c s (n + 1)).withOut (o ++ [comingByte c s n]) := rfl
    rw [Nat.add_right_comm, emit_succ, hb, Attempt.bind_done, hw, ih (n + 1) _ e (by omega), List.range'_succ]
    simp [Nat.add_comm 1 k, Nat.add_assoc]

theorem withOut_self (s : State) : s.withOut s.out = s := rfl

/-- The next `n` bytes to OUT, when they are there (R158). -/
theorem emit_ksByte_done {c : Config} {s : State} (hL : 1 ≤ c.blockLen) (hL' : c.blockLen < 2 ^ 16)
    (hcur : s.cur.toNat ≤ c.blockLen) {n : Nat} (hn : n ≤ bytesLeft c s) :
    emit (ksByte c) n s = .done () ((afterBytes c s n).withOut (s.out ++ comingBytes c s n)) := by
  have h := emit_ksByte_from hL hL' hcur n 0 s.out 0 (by omega)
  rw [afterBytes_zero, withOut_self, Nat.add_zero, Nat.zero_add, emit_zero] at h
  rw [h, comingBytes, List.range_eq_range']

/-- More bytes than are left: those left go to OUT, and then the counter is found exhausted (R158, R251). -/
theorem emit_ksByte_raised {c : Config} {s : State} (hL : 1 ≤ c.blockLen) (hL' : c.blockLen < 2 ^ 16)
    (hcur : s.cur.toNat ≤ c.blockLen) {n : Nat} (hn : bytesLeft c s < n) :
    emit (ksByte c) n s =
      .raised .counterExhausted
        ((afterBytes c s (bytesLeft c s)).withOut (s.out ++ comingBytes c s (bytesLeft c s))) := by
  obtain ⟨e, rfl⟩ : ∃ e, n = bytesLeft c s + (e + 1) := ⟨n - bytesLeft c s - 1, by omega⟩
  have h := emit_ksByte_from hL hL' hcur (bytesLeft c s) 0 s.out (e + 1) (by omega)
  rw [afterBytes_zero, withOut_self, Nat.zero_add] at h
  obtain ⟨h1, h2⟩ := afterBytes_bytesLeft (s := s) hL hcur
  have hfull : c.blockLen ≤ (BitVec.ofNat 16 c.blockLen).toNat := by rw [BitVec.toNat_ofNat]; omega
  have hx : ∀ o, ksByte c ((afterBytes c s (bytesLeft c s)).withOut o) = .raised .counterExhausted _ :=
    fun o => ksByte_exhausted (h1 ▸ hfull) h2
  rw [h, emit_succ, hx, Attempt.bind_raised, comingBytes, List.range_eq_range']

/-! ### Bits and characters -/

theorem bitsValue_lt (f : Nat → Bool) (start n : Nat) : bitsValue f start n < 2 ^ n := by
  induction n with
  | zero => simp [bitsValue]
  | succ k ih =>
    have := Bool.toNat_le (f (start + k))
    simp only [bitsValue, pow_succ]; omega

theorem bitsValue_add (f : Nat → Bool) (start m n : Nat) :
    bitsValue f start (m + n) = 2 ^ n * bitsValue f start m + bitsValue f (start + m) n := by
  induction n with
  | zero => simp [bitsValue]
  | succ k ih => rw [← Nat.add_assoc, bitsValue, ih, bitsValue, pow_succ, Nat.add_assoc]; ring

/-- The eight bits of a byte make its value. -/
theorem bitsValue_byte (c : Config) (s : State) (m : Nat) :
    bitsValue (comingBit c s) (8 * m) 8 = (comingByte c s m).toNat := by
  have h : ∀ k, k < 8 → comingBit c s (8 * m + k) = (comingByte c s m).getLsbD (7 - k) := by
    intro k hk
    simp only [comingBit]
    congr 2 <;> omega
  have hv : ∀ b : Byte, 2 * (2 * (2 * (2 * (2 * (2 * (2 * (2 * 0 + (b.getLsbD 7).toNat) +
      (b.getLsbD 6).toNat) + (b.getLsbD 5).toNat) + (b.getLsbD 4).toNat) + (b.getLsbD 3).toNat) +
      (b.getLsbD 2).toNat) + (b.getLsbD 1).toNat) + (b.getLsbD 0).toNat = b.toNat := by decide
  simp only [bitsValue, h 0 (by omega), h 1 (by omega), h 2 (by omega), h 3 (by omega), h 4 (by omega),
    h 5 (by omega), h 6 (by omega), h 7 (by omega)]
  exact hv _

theorem lowMask_and (x : BitVec 15) (k : Nat) (hk : k ≤ 15) : (x &&& lowMask k).toNat = x.toNat % 2 ^ k := by
  have h2 : 2 ^ k ≤ 2 ^ 15 := Nat.pow_le_pow_right (by omega) hk
  have h1 : 0 < 2 ^ k := Nat.pow_pos (by omega)
  rw [lowMask, BitVec.toNat_and, BitVec.toNat_ofNat, Nat.mod_eq_of_lt (by omega), Nat.and_two_pow_sub_one_eq_mod]

/-! ### `TX.TEXT` -/

/-- The state after `i` characters of a text that began in `s`, `o` being what OUT then holds. -/
def textState (c : Config) (a : Alphabet) (s : State) (i : Nat) (o : List Byte) : State :=
  ((afterBytes c s (textBytes a i)).setAcc
    (BitVec.ofNat 15 (bitsValue (comingBit c s) (i * a.bits) (8 * textBytes a i - i * a.bits)))
    (8 * textBytes a i - i * a.bits)).withOut o

/-- A keystream byte in the middle of a text. -/
theorem ksByte_inText {c : Config} {s : State} {n : Nat} (hL : 1 ≤ c.blockLen) (hL' : c.blockLen < 2 ^ 16)
    (hcur : s.cur.toNat ≤ c.blockLen) (hn : n < bytesLeft c s) (o : List Byte) (acc : BitVec 15) (nb : Nat) :
    ksByte c (((afterBytes c s n).setAcc acc nb).withOut o) =
      .done (comingByte c s n) (((afterBytes c s (n + 1)).setAcc acc nb).withOut o) := by
  rw [← afterBytes_setAcc, ← afterBytes_setAcc, ← afterBytes_withOut, ← afterBytes_withOut]
  exact ksByte_afterBytes (s := (s.setAcc acc nb).withOut o) hL hL' hcur hn

/-- A byte goes into the accumulator below the bits that are left over in it (R214). -/
theorem acc_topUp {c : Config} {s : State} {st nb m : Nat} (hnb : nb ≤ 7) (hst : st + nb = 8 * m) :
    (BitVec.ofNat 15 (bitsValue (comingBit c s) st nb) <<< 8) ||| (comingByte c s m).setWidth 15 =
      BitVec.ofNat 15 (bitsValue (comingBit c s) st (nb + 8)) := by
  have hlow := bitsValue_lt (comingBit c s) st nb
  have hp : 2 ^ nb ≤ 2 ^ 7 := Nat.pow_le_pow_right (by omega) hnb
  have hby := (comingByte c s m).isLt
  apply BitVec.eq_of_toNat_eq
  rw [bitsValue_add, hst, bitsValue_byte, BitVec.toNat_or, BitVec.toNat_shiftLeft,
    BitVec.toNat_ofNat, BitVec.toNat_setWidth, BitVec.toNat_ofNat, Nat.shiftLeft_eq,
    Nat.mod_eq_of_lt (by omega : bitsValue (comingBit c s) st nb < 2 ^ 15),
    Nat.mod_eq_of_lt (by omega : bitsValue (comingBit c s) st nb * 2 ^ 8 < 2 ^ 15),
    Nat.mod_eq_of_lt (by omega : (comingByte c s m).toNat < 2 ^ 15), Nat.mul_comm _ (2 ^ 8),
    ← Nat.two_pow_add_eq_or_of_lt hby, Nat.mod_eq_of_lt (by omega)]

/-- The oldest `b` bits of an accumulator of `b + r` bits. -/
theorem acc_oldest {f : Nat → Bool} {st b r : Nat} (h : b + r ≤ 15) :
    ((BitVec.ofNat 15 (bitsValue f st (b + r)) >>> r) &&& lowMask b).toNat = bitsValue f st b := by
  have hval := bitsValue_lt f st (b + r)
  have hp : 2 ^ (b + r) ≤ 2 ^ 15 := Nat.pow_le_pow_right (by omega) h
  have hr0 : 0 < 2 ^ r := Nat.pow_pos (by omega)
  rw [lowMask_and _ _ (by omega), BitVec.toNat_ushiftRight, BitVec.toNat_ofNat,
    Nat.mod_eq_of_lt (by omega : bitsValue f st (b + r) < 2 ^ 15), Nat.shiftRight_eq_div_pow, bitsValue_add,
    Nat.mul_add_div hr0, Nat.div_eq_of_lt (bitsValue_lt _ _ _), Nat.add_zero,
    Nat.mod_eq_of_lt (bitsValue_lt _ _ _)]

/-- The bits left over in an accumulator of `b + r` bits when the oldest `b` are taken. -/
theorem acc_rest {f : Nat → Bool} {st b r : Nat} (h : b + r ≤ 15) :
    BitVec.ofNat 15 (bitsValue f st (b + r)) &&& lowMask r = BitVec.ofNat 15 (bitsValue f (st + b) r) := by
  have hval := bitsValue_lt f st (b + r)
  have hrest := bitsValue_lt f (st + b) r
  have hp : 2 ^ (b + r) ≤ 2 ^ 15 := Nat.pow_le_pow_right (by omega) h
  have hp' : 2 ^ r ≤ 2 ^ 15 := Nat.pow_le_pow_right (by omega) (by omega)
  apply BitVec.eq_of_toNat_eq
  rw [lowMask_and _ _ (by omega), BitVec.toNat_ofNat, BitVec.toNat_ofNat,
    Nat.mod_eq_of_lt (by omega : bitsValue f st (b + r) < 2 ^ 15),
    Nat.mod_eq_of_lt (by omega : bitsValue f (st + b) r < 2 ^ 15), bitsValue_add,
    Nat.mul_add_mod, Nat.mod_eq_of_lt hrest]

/-- Topping up before character `i`: the accumulator then holds the character's bits and `r` more. -/
theorem topUp_textState {c : Config} {a : Alphabet} {s : State} {i : Nat} (hL : 1 ≤ c.blockLen)
    (hL' : c.blockLen < 2 ^ 16) (hcur : s.cur.toNat ≤ c.blockLen) (ha8 : a.bits ≤ 8)
    (hn : textBytes a (i + 1) ≤ bytesLeft c s) (o : List Byte) :
    ∃ r, r < 8 ∧ 8 * textBytes a (i + 1) = i * a.bits + a.bits + r ∧
      topUp c a (textState c a s i o) = .done ()
        (((afterBytes c s (textBytes a (i + 1))).setAcc
          (BitVec.ofNat 15 (bitsValue (comingBit c s) (i * a.bits) (a.bits + r))) (a.bits + r)).withOut o) := by
  have hsucc : (i + 1) * a.bits = i * a.bits + a.bits := by ring
  have hm8 : i * a.bits ≤ 8 * textBytes a i ∧ 8 * textBytes a i < i * a.bits + 8 := by rw [textBytes]; omega
  by_cases hlt : 8 * textBytes a i - i * a.bits < a.bits
  · have hm1 : textBytes a (i + 1) = textBytes a i + 1 := by simp only [textBytes, hsucc] at *; omega
    have hbr : a.bits + (8 * textBytes a i - i * a.bits + 8 - a.bits) = 8 * textBytes a i - i * a.bits + 8 := by
      omega
    refine ⟨8 * textBytes a i - i * a.bits + 8 - a.bits, by omega, by omega, ?_⟩
    have hlt' : (textState c a s i o).nb < a.bits := hlt
    rw [topUp, if_pos hlt', textState, ksByte_inText hL hL' hcur (by omega), Attempt.bind_done, hbr, hm1,
      ← acc_topUp (c := c) (s := s) (m := textBytes a i) (by omega) (by omega)]
    rfl
  · have hm1 : textBytes a (i + 1) = textBytes a i := by simp only [textBytes, hsucc] at *; omega
    have hbr : a.bits + (8 * textBytes a i - i * a.bits - a.bits) = 8 * textBytes a i - i * a.bits := by omega
    have hge : ¬ (textState c a s i o).nb < a.bits := hlt
    exact ⟨8 * textBytes a i - i * a.bits - a.bits, by omega, by omega, by
      rw [topUp, if_neg hge, hbr, hm1, textState]⟩

/-- Character `i` of a text, as long as its bytes are there (R214). -/
theorem nextChar_textState {c : Config} {a : Alphabet} {s : State} {i : Nat} (hL : 1 ≤ c.blockLen)
    (hL' : c.blockLen < 2 ^ 16) (hcur : s.cur.toNat ≤ c.blockLen) (ha8 : a.bits ≤ 8)
    (hn : textBytes a (i + 1) ≤ bytesLeft c s) (o : List Byte) :
    nextChar c a (textState c a s i o) = .done (comingChar c a s i) (textState c a s (i + 1) o) := by
  obtain ⟨r, hr8, hend, htop⟩ := topUp_textState hL hL' hcur ha8 hn o
  have hsucc : (i + 1) * a.bits = i * a.bits + a.bits := by ring
  have hrest : 8 * textBytes a (i + 1) - (i + 1) * a.bits = r := by omega
  rw [nextChar, htop, Attempt.bind_done, charIndex, comingChar]
  simp only [State.withOut_nb, State.withOut_acc, State.setAcc_nb, State.setAcc_acc, Nat.add_sub_cancel_left]
  rw [acc_oldest (by omega), acc_rest (by omega), textState, hrest, hsucc]
  rfl

theorem textBytes_mono (a : Alphabet) {i j : Nat} (h : i ≤ j) : textBytes a i ≤ textBytes a j := by
  have := Nat.mul_le_mul_right a.bits h
  simp only [textBytes]; omega

/-- `k` characters to OUT, from character `i` on. -/
theorem emit_nextChar_from {c : Config} {a : Alphabet} {s : State} (hL : 1 ≤ c.blockLen)
    (hL' : c.blockLen < 2 ^ 16) (hcur : s.cur.toNat ≤ c.blockLen) (ha8 : a.bits ≤ 8)
    (k : Nat) : ∀ i o e, textBytes a (i + k) ≤ bytesLeft c s →
    emit (nextChar c a) (k + e) (textState c a s i o) =
      emit (nextChar c a) e (textState c a s (i + k) (o ++ (List.range' i k).map (comingChar c a s))) := by
  induction k with
  | zero => intro i o e _; simp
  | succ k ih =>
    intro i o e hn
    have h1 := nextChar_textState (i := i) hL hL' hcur ha8
      (le_trans (textBytes_mono a (by omega)) hn) o
    have hw : (textState c a s (i + 1) o).outWrite (comingChar c a s i) =
        textState c a s (i + 1) (o ++ [comingChar c a s i]) := rfl
    rw [Nat.add_right_comm, emit_succ, h1, Attempt.bind_done, hw,
      ih (i + 1) _ e (by rwa [Nat.add_assoc, Nat.add_comm 1 k]), List.range'_succ]
    simp [Nat.add_comm 1 k, Nat.add_assoc]

theorem textState_zero (c : Config) (a : Alphabet) (s : State) :
    textState c a s 0 s.out = s.setAcc 0 0 := by
  simp [textState, textBytes, afterBytes_zero, bitsValue, State.setAcc, State.withOut]

/-- A whole text, when its bytes are there (R215). -/
theorem emit_nextChar_done {c : Config} {a : Alphabet} {s : State} (hL : 1 ≤ c.blockLen)
    (hL' : c.blockLen < 2 ^ 16) (hcur : s.cur.toNat ≤ c.blockLen) (ha8 : a.bits ≤ 8)
    {n : Nat} (hn : textBytes a n ≤ bytesLeft c s) :
    emit (nextChar c a) n (s.setAcc 0 0) =
      .done () (textState c a s n (s.out ++ (List.range n).map (comingChar c a s))) := by
  have h := emit_nextChar_from hL hL' hcur ha8 n 0 s.out 0 (by rwa [Nat.zero_add])
  rw [textState_zero, Nat.add_zero, Nat.zero_add, emit_zero] at h
  rw [h, List.range_eq_range']

/-- A text cut short: the characters whose bits are all there go to OUT, every byte is taken, and then the
counter is found exhausted (R215, R251). -/
theorem emit_nextChar_raised {c : Config} {a : Alphabet} {s : State} (hL : 1 ≤ c.blockLen)
    (hL' : c.blockLen < 2 ^ 16) (hcur : s.cur.toNat ≤ c.blockLen) (ha1 : 1 ≤ a.bits) (ha8 : a.bits ≤ 8)
    {n : Nat} (hn : bytesLeft c s < textBytes a n) :
    emit (nextChar c a) n (s.setAcc 0 0) =
      .raised .counterExhausted
        (textState c a s (charsLeft c a s)
          (s.out ++ (List.range (charsLeft c a s)).map (comingChar c a s))) := by
  have hk1 : charsLeft c a s * a.bits ≤ 8 * bytesLeft c s := Nat.div_mul_le_self _ _
  have hk2 : 8 * bytesLeft c s < charsLeft c a s * a.bits + a.bits := by
    have := Nat.lt_div_mul_add (a := 8 * bytesLeft c s) (b := a.bits) ha1
    simpa [charsLeft] using this
  have hmk : textBytes a (charsLeft c a s) = bytesLeft c s := by rw [textBytes]; omega
  have hlt : charsLeft c a s < n := by
    by_contra hge
    have := textBytes_mono a (Nat.le_of_not_lt hge)
    omega
  obtain ⟨e, rfl⟩ : ∃ e, n = charsLeft c a s + (e + 1) := ⟨n - charsLeft c a s - 1, by omega⟩
  have h := emit_nextChar_from hL hL' hcur ha8 (charsLeft c a s) 0 s.out (e + 1) (by rw [Nat.zero_add, hmk])
  rw [textState_zero, Nat.zero_add, ← List.range_eq_range'] at h
  obtain ⟨h1, h2⟩ := afterBytes_bytesLeft (s := s) hL hcur
  rw [← hmk] at h1 h2
  have hfull : c.blockLen ≤ (BitVec.ofNat 16 c.blockLen).toNat := by rw [BitVec.toNat_ofNat]; omega
  have hx : ∀ o, ksByte c (textState c a s (charsLeft c a s) o) = .raised .counterExhausted _ :=
    fun o => ksByte_exhausted (h1 ▸ hfull) h2
  have hlow : ∀ o, (textState c a s (charsLeft c a s) o).nb < a.bits := by
    intro o
    have : (textState c a s (charsLeft c a s) o).nb =
      8 * textBytes a (charsLeft c a s) - charsLeft c a s * a.bits := rfl
    omega
  rw [h, emit_succ, nextChar, topUp, if_pos (hlow _), hx, Attempt.bind_raised, Attempt.bind_raised,
    Attempt.bind_raised]

/-! ### Distinct bits, distinct characters -/

/-- A number of `n` bits gives back its bits. -/
theorem bitsValue_inj {f g : Nat → Bool} {start n : Nat} (h : bitsValue f start n = bitsValue g start n) :
    ∀ k, k < n → f (start + k) = g (start + k) := by
  induction n with
  | zero => intro k hk; omega
  | succ n ih =>
    have hf := Bool.toNat_lt (f (start + n))
    have hg := Bool.toNat_lt (g (start + n))
    rw [bitsValue, bitsValue] at h
    intro k hk
    rcases Nat.lt_succ_iff_lt_or_eq.mp hk with hk | rfl
    · exact ih (by omega) k hk
    · cases h1 : f (start + k) <;> cases h2 : g (start + k) <;> simp [h1, h2] at h ⊢ <;> omega

/-- The map from index to character of a well-formed alphabet is injective (R217). -/
theorem char_inj {a : Alphabet} (ha : a.WellFormed) {i j : Nat} (hi : i < 2 ^ a.bits) (hj : j < 2 ^ a.bits)
    (h : a.chars.getD i 0 = a.chars.getD j 0) : i = j := by
  rw [← ha.2.2.1] at hi hj
  rw [List.getD_eq_getElem _ _ hi, List.getD_eq_getElem _ _ hj] at h
  exact (List.Nodup.getElem_inj_iff ha.2.2.2).mp h

end Sys2Proof.Machine
end

