-- ==== Sys2Proof/Laws/Sampler.lean ====
section
/-! SUPPORT. Draws from either word source and the rejection loop, in terms of the words still to come. -/

namespace Sys2Proof.Machine

theorem wgAfter_succ (c : Config) (k : Nat) : ∀ q, wgAfter c q (k + 1) = wgSucc c (wgAfter c q k) := by
  induction k with
  | zero => intro q; rfl
  | succ k ih => intro q; rw [wgAfter, ih (wgSucc c q)]; rfl

/-- What a draw can do (R181): from the Word Generator it delivers; from the keystream it is `KsWord()`. -/
theorem draw_wg (c : Config) (s : State) :
    draw c .wg s = .done (wgWord c s.wg 0) (s.setWg (wgSucc c s.wg)) := rfl

@[simp] theorem afterDraws_wg (c : Config) (s : State) (k : Nat) :
    afterDraws c .wg s k = s.setWg (wgAfter c s.wg k) := rfl

@[simp] theorem afterDraws_ks (c : Config) (s : State) (k : Nat) :
    afterDraws c .ks s k = afterBytes c s (8 * k) := rfl

@[simp] theorem comingDraw_wg (c : Config) (s : State) (k : Nat) :
    comingDraw c .wg s k = wgWord c s.wg k := rfl

@[simp] theorem comingDraw_ks (c : Config) (s : State) (k : Nat) :
    comingDraw c .ks s k = comingWord c s k := rfl

theorem afterDraws_zero (c : Config) (src : Src) (s : State) : afterDraws c src s 0 = s := by
  cases src with
  | wg => rfl
  | ks => exact afterBytes_zero c s

/-- Draw number `k`, when it can be made. -/
theorem draw_afterDraws {c : Config} {src : Src} {s : State} {k : Nat} (hL : 1 ≤ c.blockLen)
    (hL' : c.blockLen < 2 ^ 16) (hcur : s.cur.toNat ≤ c.blockLen) (hk : canDrawTo c src s k) :
    draw c src (afterDraws c src s k) = .done (comingDraw c src s k) (afterDraws c src s (k + 1)) := by
  cases src with
  | wg =>
    simp only [afterDraws, wgAfter_succ]
    rfl
  | ks =>
    have hk' : 8 * (k + 1) ≤ bytesLeft c s := hk
    have h := ksBytes_afterBytes hL hL' hcur 8 (8 * k) (by omega)
    have hl : (List.range' (8 * k) 8).map (comingByte c s) =
        (List.range 8).map fun j => comingByte c s (8 * k + j) := by
      simp [List.range_eq_range', List.range']
    simp only [draw, ksWord, afterDraws, comingDraw, comingWord, h, Attempt.bind_done, hl]
    congr 2

/-- One word that can be drawn. -/
theorem draw_done {c : Config} {src : Src} {s : State} (hL : 1 ≤ c.blockLen) (hL' : c.blockLen < 2 ^ 16)
    (hcur : s.cur.toNat ≤ c.blockLen) (hk : canDrawTo c src s 0) :
    draw c src s = .done (comingDraw c src s 0) (afterDraws c src s 1) := by
  have h := draw_afterDraws (src := src) hL hL' hcur hk
  rwa [afterDraws_zero] at h

/-- A word that cannot be drawn: the bytes left are taken, and the counter is found exhausted (R157). -/
theorem draw_raised {c : Config} {s : State} (hL : 1 ≤ c.blockLen) (hL' : c.blockLen < 2 ^ 16)
    (hcur : s.cur.toNat ≤ c.blockLen) (hk : bytesLeft c s < 8) :
    draw c .ks s = .raised .counterExhausted (afterBytes c s (bytesLeft c s)) := by
  simp [draw, ksWord, ksBytes_raised hL hL' hcur hk]

/-! ### The product -/

theorem mulHi_toNat (x n : Word) : (mulHi x n).toNat = x.toNat * n.toNat / 2 ^ 64 := by
  have hx := x.isLt; have hn := n.isLt
  have : x.toNat * n.toNat < 2 ^ 128 := by nlinarith
  simp [mulHi, BitVec.extractLsb'_toNat, Nat.shiftRight_eq_div_pow]
  omega

theorem mulLo_toNat (x n : Word) : (mulLo x n).toNat = x.toNat * n.toNat % 2 ^ 64 := by
  have hx := x.isLt; have hn := n.isLt
  have : x.toNat * n.toNat < 2 ^ 128 := by nlinarith
  simp [mulLo, BitVec.extractLsb'_toNat]

/-- The upper half of a product is below the factor it is scaled by (R183). -/
theorem mulHi_lt (x : Word) {n : Word} (h : n ≠ 0) : (mulHi x n).toNat < n.toNat := by
  have hx := x.isLt
  have h0 : 0 < n.toNat := by
    rcases Nat.eq_zero_or_pos n.toNat with h' | h'
    · exact absurd (BitVec.eq_of_toNat_eq h') h
    · exact h'
  rw [mulHi_toNat]
  exact Nat.div_lt_of_lt_mul (by nlinarith)

/-! ### The loop -/

theorem boundLoop_zero (c : Config) (src : Src) (n : Word) (s : State) : boundLoop c src n 0 s = .hung := rfl

theorem boundLoop_succ (c : Config) (src : Src) (n : Word) (k : Nat) (s : State) :
    boundLoop c src n (k + 1) s =
      (draw c src s).bind fun x s1 =>
        if thresh n ≤ mulLo x n then .done (mulHi x n) s1 else boundLoop c src n k s1 := rfl

/-- The loop after `k` rejected words (R183). -/
theorem boundLoop_rejects {c : Config} {src : Src} {n : Word} {s : State} (hL : 1 ≤ c.blockLen)
    (hL' : c.blockLen < 2 ^ 16) (hcur : s.cur.toNat ≤ c.blockLen) (k : Nat) : ∀ i f,
    (∀ j, j < i + k → canDrawTo c src s j) →
    (∀ j, i ≤ j → j < i + k → accepted n (comingDraw c src s j) = false) →
    boundLoop c src n (f + k) (afterDraws c src s i) = boundLoop c src n f (afterDraws c src s (i + k)) := by
  induction k with
  | zero => intro i f _ _; rfl
  | succ k ih =>
    intro i f hd hr
    have hrej := hr i (le_refl i) (by omega)
    have hnot : ¬ thresh n ≤ mulLo (comingDraw c src s i) n := by simpa [accepted] using hrej
    rw [← Nat.add_assoc, boundLoop_succ, draw_afterDraws hL hL' hcur (hd i (by omega)), Attempt.bind_done,
      if_neg hnot, ih (i + 1) f (fun j hj => hd j (by omega)) (fun j h1 h2 => hr j (by omega) (by omega))]
    congr 2; omega

/-- The loop ends with the first accepted word (R183), whatever the fuel beyond it. -/
theorem boundLoop_accepts {c : Config} {src : Src} {n : Word} {s : State} {k fuel : Nat} (hL : 1 ≤ c.blockLen)
    (hL' : c.blockLen < 2 ^ 16) (hcur : s.cur.toNat ≤ c.blockLen) (hfuel : k < fuel)
    (hd : ∀ j, j ≤ k → canDrawTo c src s j)
    (hr : ∀ j, j < k → accepted n (comingDraw c src s j) = false)
    (ha : accepted n (comingDraw c src s k) = true) :
    boundLoop c src n fuel s =
      .done (mulHi (comingDraw c src s k) n) (afterDraws c src s (k + 1)) := by
  obtain ⟨f, rfl⟩ : ∃ f, fuel = (f + 1) + k := ⟨fuel - k - 1, by omega⟩
  have h := boundLoop_rejects (n := n) (src := src) hL hL' hcur k 0 (f + 1)
    (fun j hj => hd j (by omega)) (fun j _ h2 => hr j (by omega))
  rw [afterDraws_zero, Nat.zero_add] at h
  have hyes : thresh n ≤ mulLo (comingDraw c src s k) n := by simpa [accepted] using ha
  rw [h, boundLoop_succ, draw_afterDraws hL hL' hcur (hd k (le_refl k)), Attempt.bind_done, if_pos hyes]

/-- What the loop can answer: a value below the bound's range made of an accepted word, or a fault of the keystream. -/
theorem boundLoop_cases {c : Config} {src : Src} {n : Word} (fuel : Nat) : ∀ s,
    (∃ x t, boundLoop c src n fuel s = .done (mulHi x n) t ∧ accepted n x = true) ∨
    (∃ why t, boundLoop c src n fuel s = .raised why t) ∨ boundLoop c src n fuel s = .hung := by
  induction fuel with
  | zero => intro s; exact .inr (.inr rfl)
  | succ k ih =>
    intro s
    rw [boundLoop_succ]
    cases draw c src s with
    | done x s1 =>
      simp only [Attempt.bind_done]
      split
      · rename_i h
        exact .inl ⟨x, s1, rfl, by simpa [accepted] using h⟩
      · exact ih s1
    | raised why s1 => exact .inr (.inl ⟨why, s1, rfl⟩)
    | hung => exact .inr (.inr rfl)

end Sys2Proof.Machine
end

