-- ==== Sys2Proof/Laws/Frames.lean ====
section
/-! SUPPORT. What a command can do to the state, whatever the state: the relations `KsMoved`, `Drawn` and
`TextMoved` between the state a procedure begins in and the one it ends in. -/

namespace Sys2Proof.Machine

/-! ### Where the keystream can move -/

/-- `t` is `s` after some keystream bytes: only `BUF`, `CUR`, `CTR` and the record of requests differ, the
counter by the number of refills, without a wrap (R153, R155, R162). -/
def KsMoved (c : Config) (s t : State) : Prop :=
  ∃ buf cur k, t = s.withKs buf cur (s.ctr + BitVec.ofNat 64 k) (s.requests ++ blockRequests s k) ∧
    s.ctr.toNat + k ≤ ctrMax.toNat ∧
    (s.cur.toNat ≤ c.blockLen → cur.toNat ≤ c.blockLen) ∧
    (s.buf.length = c.blockLen → buf.length = c.blockLen)

/-- The machine is Exhausted with the counter at its maximum (R251). -/
def Spent (c : Config) (t : State) : Prop := c.blockLen ≤ t.cur.toNat ∧ t.ctr = ctrMax

theorem blockRequests_add (s : State) (j k : Nat) :
    blockRequests s (j + k) = blockRequests s j ++
      (List.range k).map fun i => .block s.key s.nonce (s.ctr + BitVec.ofNat 64 j + BitVec.ofNat 64 i) := by
  simp [blockRequests, List.range_add, BitVec.ofNat_add, BitVec.add_assoc]

theorem KsMoved.refl (c : Config) (s : State) : KsMoved c s s :=
  ⟨s.buf, s.cur, 0, by simp [State.withKs, blockRequests], ctr_le_ctrMax s.ctr, id, id⟩

theorem KsMoved.trans {c : Config} {s t u : State} (h1 : KsMoved c s t) (h2 : KsMoved c t u) :
    KsMoved c s u := by
  obtain ⟨buf, cur, j, rfl, hj, hc, hb⟩ := h1
  obtain ⟨buf', cur', k, rfl, hk, hc', hb'⟩ := h2
  have hj' := ctr_add_toNat hj
  rw [State.withKs_ctr, hj'] at hk
  refine ⟨buf', cur', j + k, ?_, by omega, fun h => hc' (hc h), fun h => hb' (hb h)⟩
  rw [blockRequests_add]
  simp [State.withKs, blockRequests, BitVec.ofNat_add, BitVec.add_assoc]

/-- The cursor stays in its range (R40). -/
theorem KsMoved.cur_le {c : Config} {s u : State} (h : KsMoved c s u) (hc : s.cur.toNat ≤ c.blockLen) :
    u.cur.toNat ≤ c.blockLen := by
  obtain ⟨_, _, _, rfl, _, h, _⟩ := h; exact h hc

/-- A refill (R153). -/
theorem KsMoved.refill {c : Config} {s : State} (hm : s.ctr ≠ ctrMax) (cur : BitVec 16)
    (hc : cur.toNat ≤ c.blockLen) :
    KsMoved c s (s.withKs (nextBlock c s) cur (s.ctr + 1) (s.requests ++ [.block s.key s.nonce s.ctr])) := by
  refine ⟨nextBlock c s, cur, 1, by simp [blockRequests], ?_, fun _ => hc, fun _ => by simp [nextBlock]⟩
  have h := ctr_le_ctrMax s.ctr
  have hne : s.ctr.toNat ≠ ctrMax.toNat := fun h => hm (BitVec.eq_of_toNat_eq h)
  omega

/-! ### How a procedure can end -/

/-- A procedure ends with a value and a state that `R` allows, or it raises `CounterExhausted` in a spent
machine whose state `F` allows, or it hangs. -/
def Attempt.Ends {α : Type} (c : Config) (R : α → State → Prop) (F : State → Prop) (x : Attempt α) : Prop :=
  match x with
  | .done a t => R a t
  | .raised why t => why = .counterExhausted ∧ Spent c t ∧ F t
  | .hung => True

theorem Attempt.Ends.bind {α β : Type} {c : Config} {R : α → State → Prop} {F F' : State → Prop}
    {R' : β → State → Prop} {x : Attempt α} {f : α → State → Attempt β} (hx : x.Ends c R F)
    (hf : ∀ a t, R a t → (f a t).Ends c R' F') (hF : ∀ t, F t → F' t) : (x.bind f).Ends c R' F' := by
  cases x with
  | done a t => exact hf a t hx
  | raised why t => exact ⟨hx.1, hx.2.1, hF t hx.2.2⟩
  | hung => trivial

theorem Attempt.Ends.mono {α : Type} {c : Config} {R R' : α → State → Prop} {F F' : State → Prop}
    {x : Attempt α} (hx : x.Ends c R F) (hR : ∀ a t, R a t → R' a t) (hF : ∀ t, F t → F' t) :
    x.Ends c R' F' := by
  cases x with
  | done a t => exact hR a t hx
  | raised why t => exact ⟨hx.1, hx.2.1, hF t hx.2.2⟩
  | hung => trivial

/-- A keystream byte only moves the keystream (R153). -/
theorem ksByte_ends {c : Config} (hL : 1 ≤ c.blockLen) (hL' : c.blockLen < 2 ^ 16) (s : State) :
    (ksByte c s).Ends c (fun _ t => KsMoved c s t) (fun t => t = s) := by
  rcases ksByte_cases c s with ⟨h, hr⟩ | ⟨h, hm, hr⟩ | ⟨_, hm, hr⟩ <;> rw [hr]
  · refine ⟨s.buf, s.cur + 1, 0, by simp [State.withKs, State.advanceCur, blockRequests],
      ctr_le_ctrMax s.ctr, fun _ => ?_, id⟩
    rw [BitVec.toNat_add]; simp; omega
  · exact ⟨rfl, ⟨h, hm⟩, rfl⟩
  · have h := KsMoved.refill (c := c) hm 1 (by simpa using hL)
    simpa [Attempt.Ends, State.withKs, State.loadBlock, State.advanceCur] using h

theorem ksBytes_ends {c : Config} (hL : 1 ≤ c.blockLen) (hL' : c.blockLen < 2 ^ 16) (n : Nat) : ∀ s,
    (ksBytes c n s).Ends c (fun _ t => KsMoved c s t) (fun t => KsMoved c s t) := by
  induction n with
  | zero => exact fun s => KsMoved.refl c s
  | succ k ih =>
    intro s
    rw [ksBytes_succ]
    refine (ksByte_ends hL hL' s).bind (fun b t ht => ?_) (fun t ht => ht ▸ KsMoved.refl c s)
    exact (ih t).bind (fun bs u hu => ht.trans hu) (fun u hu => ht.trans hu)

theorem ksWord_ends {c : Config} (hL : 1 ≤ c.blockLen) (hL' : c.blockLen < 2 ^ 16) (s : State) :
    (ksWord c s).Ends c (fun _ t => KsMoved c s t) (fun t => KsMoved c s t) :=
  (ksBytes_ends hL hL' 8 s).bind (fun _ _ h => h) (fun _ h => h)

/-! ### Draws -/

/-- `t` is `s` after some draws from `src`: the other source is untouched (R3, R181). -/
def Drawn (c : Config) (src : Src) (s t : State) : Prop :=
  match src with
  | .wg => ∃ k, t = s.setWg (wgAfter c s.wg k)
  | .ks => KsMoved c s t

theorem Drawn.refl (c : Config) (src : Src) (s : State) : Drawn c src s s := by
  cases src with
  | wg => exact ⟨0, rfl⟩
  | ks => exact KsMoved.refl c s

theorem wgAfter_add (c : Config) (j k : Nat) : ∀ q, wgAfter c (wgAfter c q j) k = wgAfter c q (j + k) := by
  induction j with
  | zero => intro q; simp [wgAfter]
  | succ j ih => intro q; rw [wgAfter, ih, Nat.add_right_comm]; rfl

theorem Drawn.trans {c : Config} {src : Src} {s t u : State} (h1 : Drawn c src s t) (h2 : Drawn c src t u) :
    Drawn c src s u := by
  cases src with
  | wg =>
    obtain ⟨j, rfl⟩ := h1
    obtain ⟨k, rfl⟩ := h2
    exact ⟨j + k, by rw [← wgAfter_add]; rfl⟩
  | ks => exact KsMoved.trans h1 h2

theorem draw_ends {c : Config} (hL : 1 ≤ c.blockLen) (hL' : c.blockLen < 2 ^ 16) (src : Src) (s : State) :
    (draw c src s).Ends c (fun _ t => Drawn c src s t) (fun t => src = .ks ∧ Drawn c src s t) := by
  cases src with
  | wg => exact ⟨1, rfl⟩
  | ks => exact (ksWord_ends hL hL' s).mono (fun _ _ h => h) (fun _ h => ⟨rfl, h⟩)

/-- The rejection loop only draws, and its value is made of an accepted word (R183). -/
theorem boundLoop_ends {c : Config} (hL : 1 ≤ c.blockLen) (hL' : c.blockLen < 2 ^ 16) (src : Src) (n : Word)
    (fuel : Nat) : ∀ s,
    (boundLoop c src n fuel s).Ends c
      (fun v t => (∃ x, v = mulHi x n ∧ accepted n x = true) ∧ Drawn c src s t)
      (fun t => src = .ks ∧ Drawn c src s t) := by
  induction fuel with
  | zero => exact fun s => trivial
  | succ k ih =>
    intro s
    rw [boundLoop_succ]
    refine (draw_ends hL hL' src s).bind (fun x t ht => ?_) (fun _ h => h)
    split
    · rename_i h
      exact ⟨⟨x, rfl, by simpa [accepted] using h⟩, ht⟩
    · exact (ih t).mono (fun v u h => ⟨h.1, ht.trans h.2⟩) (fun u h => ⟨h.1, ht.trans h.2⟩)

/-! ### Writing to OUT -/

/-- `t` is `s` after some keystream bytes and the bytes `text` written to OUT. The accumulator may differ,
unless `keep`. -/
def TextMoved (c : Config) (keep : Prop) (text : List Byte) (s t : State) : Prop :=
  ∃ u acc nb, KsMoved c s u ∧ t = (u.withOut (s.out ++ text)).setAcc acc nb ∧
    (keep → acc = s.acc ∧ nb = s.nb)

theorem KsMoved.ofText {c : Config} {s t : State} {o : List Byte} {acc : BitVec 15} {nb : Nat}
    (h : KsMoved c ((s.withOut o).setAcc acc nb) t) :
    ∃ u, KsMoved c s u ∧ t = (u.withOut o).setAcc acc nb := by
  obtain ⟨buf, cur, k, rfl, hk⟩ := h
  exact ⟨_, ⟨buf, cur, k, rfl, hk⟩, rfl⟩

theorem KsMoved.out {c : Config} {s t : State} (h : KsMoved c s t) : t.out = s.out := by
  obtain ⟨buf, cur, k, rfl, _⟩ := h; rfl

theorem KsMoved.acc {c : Config} {s t : State} (h : KsMoved c s t) : t.acc = s.acc ∧ t.nb = s.nb := by
  obtain ⟨buf, cur, k, rfl, _⟩ := h; exact ⟨rfl, rfl⟩

theorem TextMoved.refl (c : Config) (keep : Prop) (s : State) : TextMoved c keep [] s s :=
  ⟨s, s.acc, s.nb, KsMoved.refl c s, by simp [State.withOut, State.setAcc], fun _ => ⟨rfl, rfl⟩⟩

theorem TextMoved.trans {c : Config} {keep : Prop} {a b : List Byte} {s t u : State}
    (h1 : TextMoved c keep a s t) (h2 : TextMoved c keep b t u) : TextMoved c keep (a ++ b) s u := by
  obtain ⟨v, acc, nb, hv, rfl, hk⟩ := h1
  obtain ⟨w, acc', nb', hw, rfl, hk'⟩ := h2
  obtain ⟨x, hx, rfl⟩ := hw.ofText
  exact ⟨x, acc', nb', hv.trans hx, by simp [State.withOut, State.setAcc],
    fun h => ⟨(hk' h).1.trans (hk h).1, (hk' h).2.trans (hk h).2⟩⟩

theorem TextMoved.of_ksMoved {c : Config} (keep : Prop) {s t : State} (h : KsMoved c s t) :
    TextMoved c keep [] s t :=
  ⟨t, t.acc, t.nb, h, by simp [State.withOut, State.setAcc, ← h.out], fun _ => h.acc⟩

theorem TextMoved.out_eq {c : Config} {keep : Prop} {text : List Byte} {s t : State}
    (h : TextMoved c keep text s t) : t.out = s.out ++ text := by
  obtain ⟨u, acc, nb, _, rfl, _⟩ := h; rfl

theorem TextMoved.write {c : Config} {keep : Prop} {text : List Byte} {s t : State}
    (h : TextMoved c keep text s t) (b : Byte) : TextMoved c keep (text ++ [b]) s (t.outWrite b) := by
  obtain ⟨u, acc, nb, hu, rfl, hk⟩ := h
  exact ⟨u, acc, nb, hu, by simp [State.withOut, State.setAcc, State.outWrite], hk⟩

/-- The loop over OUT (R158, R215): done, it has written `n` bytes, each one the procedure's. -/
theorem emit_ends {c : Config} {keep : Prop} {next : State → Attempt Byte} {Q : Byte → Prop}
    (hnext : ∀ s, (next s).Ends c (fun b t => Q b ∧ TextMoved c keep [] s t) (fun t => TextMoved c keep [] s t))
    (n : Nat) : ∀ s, (emit next n s).Ends c
      (fun _ t => ∃ text, (text.length = n ∧ ∀ b ∈ text, Q b) ∧ TextMoved c keep text s t)
      (fun t => ∃ text, TextMoved c keep text s t) := by
  induction n with
  | zero => exact fun s => ⟨[], ⟨rfl, by simp⟩, TextMoved.refl c keep s⟩
  | succ k ih =>
    intro s
    rw [emit_succ]
    refine (hnext s).bind (fun b t ht => ?_) (fun t ht => ⟨[], ht⟩)
    have ht' := ht.2.write b
    refine (ih _).mono (fun _ u hu => ?_) (fun u hu => ?_)
    · obtain ⟨text, ⟨hl, hq⟩, hm⟩ := hu
      exact ⟨b :: text, ⟨by simpa using hl, by simpa using ⟨ht.1, hq⟩⟩, by simpa using ht'.trans hm⟩
    · obtain ⟨text, hm⟩ := hu
      exact ⟨b :: text, by simpa using ht'.trans hm⟩

theorem ksByte_fills {c : Config} (hL : 1 ≤ c.blockLen) (hL' : c.blockLen < 2 ^ 16) (s : State) :
    (ksByte c s).Ends c (fun _ t => True ∧ TextMoved c True [] s t) (fun t => TextMoved c True [] s t) :=
  (ksByte_ends hL hL' s).mono (fun _ _ h => ⟨trivial, TextMoved.of_ksMoved True h⟩)
    (fun _ h => h ▸ TextMoved.refl c True s)

theorem charIndex_lt {a : Alphabet} (ha : a.bits ≤ 8) (s : State) : charIndex a s < 2 ^ a.bits := by
  rw [charIndex, lowMask_and _ _ (by omega)]
  exact Nat.mod_lt _ (Nat.two_pow_pos _)

/-- A character is one of the alphabet's (R214, R217). -/
theorem nextChar_ends {c : Config} {a : Alphabet} (hL : 1 ≤ c.blockLen) (hL' : c.blockLen < 2 ^ 16)
    (ha : a.WellFormed) (s : State) :
    (nextChar c a s).Ends c (fun b t => b ∈ a.chars ∧ TextMoved c False [] s t)
      (fun t => TextMoved c False [] s t) := by
  have htop : (topUp c a s).Ends c (fun _ t => TextMoved c False [] s t) (fun t => TextMoved c False [] s t) := by
    unfold topUp
    split
    · refine (ksByte_ends hL hL' s).bind (fun b t ht => ?_) (fun t ht => ht ▸ TextMoved.refl c False s)
      exact ⟨t, (t.acc <<< 8) ||| b.setWidth 15, t.nb + 8, ht,
        by simp [State.withOut, State.setAcc, ← ht.out], False.elim⟩
    · exact TextMoved.refl c False s
  refine htop.bind (fun _ t ht => ⟨?_, ?_⟩) (fun _ h => h)
  · have hlt : charIndex a t < a.chars.length := ha.2.2.1 ▸ charIndex_lt ha.2.1 t
    rw [List.getD_eq_getElem _ _ hlt]
    exact List.getElem_mem hlt
  · obtain ⟨u, acc, nb, hu, rfl, _⟩ := ht
    exact ⟨u, _, _, hu, rfl, False.elim⟩

end Sys2Proof.Machine
end

