-- ==== Sys2Proof/Laws/Commands.lean ====
section
/-! SUPPORT. What each command can answer, for any configuration whose sizes fit: one inversion lemma for each
command with more than one ending, and `execWith_performed`, which says it for all of them at once. A claim over
all commands is a case analysis of `Performed` and unfolds no meaning. `exec` is `execWith config` (`exec_eq`),
and `config_sizesFit` is the hypothesis of the lemmas at `config`. -/

namespace Sys2Proof.Machine

/-- The meanings of `exec` are those of the default configuration (log entry 3). -/
theorem exec_eq (i : Instr) (s : State) : exec i s = execWith config i s := by
  cases i <;> rfl

/-- The default sizes and tables fit (R6, R7). -/
theorem config_sizesFit : config.SizesFit := by decide

variable {c : Config}

/-- A command without operands or faults has one ending. -/
theorem execWith_nop (s : State) : execWith c .nop s = .next (s.complete .ok 0) := rfl

theorem execWith_clrerr (s : State) : execWith c .clrerr s = .next (s.clearSticky.complete .ok 0) := rfl

theorem execWith_wgSeed (s : State) :
    execWith c .wgSeed s =
      .next ((s.seedWg (zeroGuard c (c.seedMix (seedWords s))) true).complete .ok 0) := rfl

theorem execWith_wgDrop (s : State) : execWith c .wgDrop s = .next (s.dropWg.complete .ok 0) := rfl

theorem execWith_ksSeed (s : State) :
    execWith c .ksSeed s = .next ((s.seedKs c (keyPart c (keyNonceOperand c s))
      (noncePart c (keyNonceOperand c s)) (counterOperand c s) true).complete .ok 0) := rfl

theorem execWith_ksDrop (s : State) : execWith c .ksDrop s = .next ((s.dropKs c).complete .ok 0) := rfl

/-- `WG.SEEDE` fails at the port, or seeds with the answer (R125). -/
theorem execWith_wgSeede_next {s t : State} (h : execWith c .wgSeede s = .next t) :
    (entropyAnswer 32 s = none ∧ t = (s.noteEntropy 32).complete .entropyUnavailable 0) ∨
    ∃ e, entropyAnswer 32 s = some e ∧
      t = ((s.noteEntropy 32).seedWg (zeroGuard c (entropyWords e)) false).complete .ok 0 := by
  have h' : wgSeede c s = t := by simpa [execWith] using h
  subst h'
  unfold wgSeede
  cases entropyAnswer 32 s with
  | none => exact .inl ⟨rfl, rfl⟩
  | some e => exact .inr ⟨e, rfl, rfl⟩

/-- `WG.NEXT` finds the Word Generator unseeded, or delivers (R124). -/
theorem execWith_wgNext_next {s t : State} (h : execWith c .wgNext s = .next t) :
    (s.wgValid = false ∧ t = s.complete .notSeeded 0) ∨
    (s.wgValid = true ∧
      t = ((s.setWg (wgSucc c s.wg)).setRes (wgWord c s.wg 0)).complete .ok 0) := by
  have h' : wgNext c s = t := by simpa [execWith] using h
  subst h'
  unfold wgNext
  cases hv : s.wgValid with
  | false => exact .inl ⟨rfl, rfl⟩
  | true => exact .inr ⟨rfl, rfl⟩

/-- `WG.JUMP` finds the Word Generator unseeded, or jumps (R129). -/
theorem execWith_wgJump_next {s t : State} (h : execWith c .wgJump s = .next t) :
    (s.wgValid = false ∧ t = s.complete .notSeeded 0) ∨
    (s.wgValid = true ∧ t = (s.setWg (jumpState c s.wg)).complete .ok 0) := by
  have h' : wgJump c s = t := by simpa [execWith] using h
  subst h'
  unfold wgJump
  cases hv : s.wgValid with
  | false => exact .inl ⟨rfl, rfl⟩
  | true => exact .inr ⟨rfl, rfl⟩

/-- `KS.SEEDE` fails at the port, or seeds with the answer (R159). -/
theorem execWith_ksSeede_next {s t : State} (h : execWith c .ksSeede s = .next t) :
    (entropyAnswer (c.keyLen + c.nonceLen) s = none ∧ t = (s.noteEntropy (c.keyLen + c.nonceLen)).complete .entropyUnavailable 0) ∨
    ∃ e, entropyAnswer (c.keyLen + c.nonceLen) s = some e ∧
      t = ((s.noteEntropy (c.keyLen + c.nonceLen)).seedKs c (keyPart c e) (noncePart c e) 0 false).complete .ok 0 := by
  have h' : ksSeede c s = t := by simpa [execWith] using h
  subst h'
  unfold ksSeede
  cases entropyAnswer (c.keyLen + c.nonceLen) s with
  | none => exact .inl ⟨rfl, rfl⟩
  | some e => exact .inr ⟨e, rfl, rfl⟩

/-- A command that delivers a result in `RES`, from a procedure whose endings are known. -/
theorem finishResult_ends {R : Word → State → Prop} {F : State → Prop} {x : Attempt Word} {t : State}
    (hx : x.Ends c R F) (h : finishResult x = .next t) :
    (∃ r u, R r u ∧ t = (u.setRes r).complete .ok 0) ∨
    (∃ u, Spent c u ∧ F u ∧ t = u.complete .counterExhausted 0) := by
  rcases finishResult_next h with ⟨r, u, rfl, ht⟩ | ⟨why, u, rfl, ht⟩
  · exact .inl ⟨r, u, hx, ht⟩
  · obtain ⟨rfl, hs, hf⟩ := hx
    exact .inr ⟨u, hs, hf, ht⟩

/-- `KS.NEXT` finds the Keystream Generator unseeded, or delivers, or exhausts the counter (R156). -/
theorem execWith_ksNext_next (hc : c.SizesFit) {s t : State} (h : execWith c .ksNext s = .next t) :
    (s.ksValid = false ∧ t = s.complete .notSeeded 0) ∨
    (s.ksValid = true ∧
      ((∃ r u, KsMoved c s u ∧ t = (u.setRes r).complete .ok 0) ∨
       (∃ u, Spent c u ∧ KsMoved c s u ∧ t = u.complete .counterExhausted 0))) := by
  have h' : ksNext c s = .next t := h
  unfold ksNext at h'
  cases hv : s.ksValid with
  | false => rw [hv] at h'; exact .inl ⟨rfl, by simpa using h'.symm⟩
  | true =>
    rw [hv, if_pos rfl] at h'
    exact .inr ⟨rfl, finishResult_ends (ksWord_ends hc.1 hc.2.1 s) h'⟩

theorem emitted_of_textMoved {c : Config} {keep : Prop} {text : List Byte} {s u : State}
    (h : TextMoved c keep text s u) : emitted s u = text.length := by
  simp [emitted, h.out_eq]

/-- A command that writes OUT, from a procedure whose endings are known: the bytes written are counted. -/
theorem finishOut_ends {keep : Prop} {Q : List Byte → Prop} {s t : State} {x : Attempt Unit}
    (hx : x.Ends c (fun _ u => ∃ text, Q text ∧ TextMoved c keep text s u)
      (fun u => ∃ text, TextMoved c keep text s u))
    (h : finishOut s x = .next t) :
    (∃ text u, Q text ∧ x = .done () u ∧ TextMoved c keep text s u ∧ t = u.complete .ok text.length) ∨
    (∃ text u, Spent c u ∧ x = .raised .counterExhausted u ∧ TextMoved c keep text s u ∧
      t = u.complete .counterExhausted text.length) := by
  rcases finishOut_next h with ⟨u, rfl, ht⟩ | ⟨why, u, rfl, ht⟩
  · obtain ⟨text, hq, hm⟩ := hx
    exact .inl ⟨text, u, hq, rfl, hm, by rw [ht, emitted_of_textMoved hm]⟩
  · obtain ⟨rfl, hs, text, hm⟩ := hx
    exact .inr ⟨text, u, hs, rfl, hm, by rw [ht, emitted_of_textMoved hm]⟩

/-- `KS.FILL` finds the Keystream Generator unseeded, or writes bytes to OUT, all of them or fewer (R158). -/
theorem execWith_ksFill_next (hc : c.SizesFit) {s t : State} (h : execWith c .ksFill s = .next t) :
    (s.ksValid = false ∧ t = s.complete .notSeeded 0) ∨
    (s.ksValid = true ∧
      ((∃ text u, text.length = (s.data 0).toNat ∧ TextMoved c True text s u ∧
          t = u.complete .ok text.length) ∨
       (∃ text u, Spent c u ∧ TextMoved c True text s u ∧
          t = u.complete .counterExhausted text.length))) := by
  have h' : ksFill c s = .next t := h
  unfold ksFill at h'
  cases hv : s.ksValid with
  | false => rw [hv] at h'; exact .inl ⟨rfl, by simpa using h'.symm⟩
  | true =>
    rw [hv, if_pos rfl] at h'
    refine .inr ⟨rfl, ?_⟩
    rcases finishOut_ends
      (emit_ends (ksByte_fills hc.1 hc.2.1) (s.data 0).toNat s) h'
      with ⟨text, u, hq, _, hm, ht⟩ | ⟨text, u, hs, _, hm, ht⟩
    · exact .inl ⟨text, u, hq.1, hm, ht⟩
    · exact .inr ⟨text, u, hs, hm, ht⟩

/-- The alphabets of a configuration whose sizes fit are well formed (R7, R211). -/
theorem alphabet_wellFormed (hc : c.SizesFit) {i : Nat} {a : Alphabet} (h : c.alphabets[i]? = some a) :
    a.WellFormed :=
  hc.2.2.2.2.2.1 a (List.mem_of_getElem? h)

/-- Emptying the accumulator changes nothing that `TextMoved` speaks of, but makes it empty. -/
theorem discardBits_ends {text : List Byte → Prop} {s : State} {x : Attempt Unit}
    (hx : x.Ends c (fun _ u => ∃ l, text l ∧ TextMoved c False l (s.setAcc 0 0) u)
      (fun u => ∃ l, TextMoved c False l (s.setAcc 0 0) u)) :
    (discardBits x).Ends c
      (fun _ u => ∃ l, (text l ∧ u.acc = 0 ∧ u.nb = 0) ∧ TextMoved c False l s u)
      (fun u => (u.acc = 0 ∧ u.nb = 0) ∧ ∃ l, TextMoved c False l s u) := by
  have key : ∀ l u, TextMoved c False l (s.setAcc 0 0) u → TextMoved c False l s (u.setAcc 0 0) := by
    rintro l u ⟨v, acc, nb, hv, rfl, _⟩
    have hv' : KsMoved c ((s.withOut s.out).setAcc 0 0) v := hv
    obtain ⟨w, hw, rfl⟩ := hv'.ofText
    exact ⟨w, 0, 0, hw, rfl, False.elim⟩
  cases x with
  | done a u =>
    obtain ⟨l, hl, hm⟩ := hx
    exact ⟨l, ⟨hl, rfl, rfl⟩, key l u hm⟩
  | raised why u =>
    obtain ⟨rfl, hs, l, hm⟩ := hx
    exact ⟨rfl, hs, ⟨rfl, rfl⟩, l, key l u hm⟩
  | hung => trivial

/-- `TX.TEXT` names no alphabet, or finds the Keystream Generator unseeded or the length too short, or writes
characters to OUT, all of them or fewer; then the accumulator is empty (R215). -/
theorem execWith_txText_next (hc : c.SizesFit) {alpha : BitVec 4} {s t : State} (h : execWith c (.txText alpha) s = .next t) :
    (c.alphabets[alpha.toNat]? = none ∧ t = s.complete .illegalCommand 0) ∨
    ∃ a, c.alphabets[alpha.toNat]? = some a ∧
      ((s.ksValid = false ∧ t = s.complete .notSeeded 0) ∨
       (s.ksValid = true ∧ (s.data 0).toNat < minLen a ∧ t = s.complete .lengthTooShort 0) ∨
       (s.ksValid = true ∧ minLen a ≤ (s.data 0).toNat ∧
        ((∃ text u, (text.length = (s.data 0).toNat ∧ ∀ b ∈ text, b ∈ a.chars) ∧
            (u.acc = 0 ∧ u.nb = 0) ∧ TextMoved c False text s u ∧ t = u.complete .ok text.length) ∨
         (∃ text u, Spent c u ∧
            (u.acc = 0 ∧ u.nb = 0) ∧ TextMoved c False text s u ∧
            t = u.complete .counterExhausted text.length)))) := by
  have h' : txText c alpha s = .next t := h
  unfold txText at h'
  have hal : alphabetOf c alpha = c.alphabets[alpha.toNat]? := rfl
  rw [hal] at h'
  cases ha : c.alphabets[alpha.toNat]? with
  | none => rw [ha] at h'; exact .inl ⟨rfl, by simpa using h'.symm⟩
  | some a =>
    rw [ha] at h'
    refine .inr ⟨a, rfl, ?_⟩
    simp only at h'
    cases hv : s.ksValid with
    | false => rw [hv] at h'; exact .inl ⟨rfl, by simpa using h'.symm⟩
    | true =>
      rw [hv, if_pos rfl] at h'
      by_cases hl : (s.data 0).toNat < minLen a
      · rw [if_pos hl] at h'; exact .inr (.inl ⟨rfl, hl, by simpa using h'.symm⟩)
      · rw [if_neg hl] at h'
        refine .inr (.inr ⟨rfl, by omega, ?_⟩)
        have he := discardBits_ends (emit_ends (nextChar_ends hc.1 hc.2.1
          (alphabet_wellFormed hc ha)) (s.data 0).toNat (s.setAcc 0 0))
        rcases finishOut_next h' with ⟨u, hx, ht⟩ | ⟨why, u, hx, ht⟩ <;> rw [hx] at he
        · obtain ⟨text, ⟨hq, hz⟩, hm⟩ := he
          exact .inl ⟨text, u, hq, hz, hm, by rw [ht, emitted_of_textMoved hm]⟩
        · obtain ⟨rfl, hs, hz, text, hm⟩ := he
          exact .inr ⟨text, u, hs, hz, hm, by rw [ht, emitted_of_textMoved hm]⟩

/-- How a sampler command that has passed its checks ends: it delivers, or exhausts the counter of the keystream. -/
def SampleEnds (c : Config) (src : Src) (R : Word → Prop) (s t : State) : Prop :=
  (∃ r u, R r ∧ Drawn c src s u ∧ t = (u.setRes r).complete .ok 0) ∨
  (∃ u, src = .ks ∧ Spent c u ∧ Drawn c src s u ∧ t = u.complete .counterExhausted 0)

theorem sampleEnds_of {src : Src} {R : Word → Prop} {s t : State} {x : Attempt Word}
    (hx : x.Ends c (fun r u => R r ∧ Drawn c src s u) (fun u => src = .ks ∧ Drawn c src s u))
    (h : finishResult x = .next t) : SampleEnds c src R s t := by
  rcases finishResult_ends hx h with ⟨r, u, hr, ht⟩ | ⟨u, hs, hf, ht⟩
  · exact .inl ⟨r, u, hr.1, hr.2, ht⟩
  · exact .inr ⟨u, hf.1, hs, hf.2, ht⟩

theorem boundSample_ends (hc : c.SizesFit) (src : Src) (n : Word) (s : State) :
    (boundSample c src n s).Ends c
      (fun v t => (∃ x, v = mulHi x n ∧ accepted n x = true) ∧ Drawn c src s t)
      (fun t => src = .ks ∧ Drawn c src s t) :=
  boundLoop_ends hc.1 hc.2.1 src n drawLimit s

/-- `U.BOUND` (R184). -/
theorem execWith_uBound_next (hc : c.SizesFit) {src : Src} {s t : State} (h : execWith c (.uBound src) s = .next t) :
    (seeded src s = false ∧ t = s.complete .notSeeded 0) ∨
    (seeded src s = true ∧ s.data 0 = 0 ∧ t = s.complete .invalidBound 0) ∨
    (seeded src s = true ∧ s.data 0 ≠ 0 ∧
      SampleEnds c src (fun r => ∃ x, r = mulHi x (s.data 0) ∧ accepted (s.data 0) x = true) s t) := by
  have h' : uBound c src s = .next t := h
  unfold uBound at h'
  cases hv : seeded src s with
  | false => rw [hv] at h'; exact .inl ⟨rfl, by simpa using h'.symm⟩
  | true =>
    rw [hv, if_pos rfl] at h'
    by_cases h0 : s.data 0 = 0
    · rw [if_pos h0] at h'; exact .inr (.inl ⟨rfl, h0, by simpa using h'.symm⟩)
    · rw [if_neg h0] at h'
      exact .inr (.inr ⟨rfl, h0, sampleEnds_of (boundSample_ends hc src _ s) h'⟩)

/-- `U.RANGE` (R186). -/
theorem execWith_uRange_next (hc : c.SizesFit) {src : Src} {s t : State} (h : execWith c (.uRange src) s = .next t) :
    (seeded src s = false ∧ t = s.complete .notSeeded 0) ∨
    (seeded src s = true ∧ (s.data 0).slt (s.data 1) = false ∧ t = s.complete .invalidRange 0) ∨
    (seeded src s = true ∧ (s.data 0).slt (s.data 1) = true ∧
      SampleEnds c src (fun r => ∃ x, r = s.data 0 + mulHi x (s.data 1 - s.data 0) ∧
        accepted (s.data 1 - s.data 0) x = true) s t) := by
  have h' : uRange c src s = .next t := h
  unfold uRange at h'
  cases hv : seeded src s with
  | false => rw [hv] at h'; exact .inl ⟨rfl, by simpa using h'.symm⟩
  | true =>
    rw [hv, if_pos rfl] at h'
    cases h0 : (s.data 0).slt (s.data 1) with
    | false => rw [h0] at h'; exact .inr (.inl ⟨rfl, rfl, by simpa using h'.symm⟩)
    | true =>
      rw [h0, if_pos rfl] at h'
      refine .inr (.inr ⟨rfl, rfl, sampleEnds_of ?_ h'⟩)
      refine (boundSample_ends hc src _ s).bind (fun v u hv => ?_) (fun _ hf => hf)
      obtain ⟨⟨x, rfl, hx⟩, hd⟩ := hv
      exact ⟨⟨x, rfl, hx⟩, hd⟩

/-- `U.F64` (R188). -/
theorem execWith_uF64_next (hc : c.SizesFit) {src : Src} {s t : State} (h : execWith c (.uF64 src) s = .next t) :
    (seeded src s = false ∧ t = s.complete .notSeeded 0) ∨
    (seeded src s = true ∧ SampleEnds c src (fun r => ∃ x : Word, r = f64Bits (x >>> 11)) s t) := by
  have h' : uF64 c src s = .next t := h
  unfold uF64 at h'
  cases hv : seeded src s with
  | false => rw [hv] at h'; exact .inl ⟨rfl, by simpa using h'.symm⟩
  | true =>
    rw [hv, if_pos rfl] at h'
    refine .inr ⟨rfl, sampleEnds_of ?_ h'⟩
    exact (draw_ends hc.1 hc.2.1 src s).bind
      (fun x u hd => ⟨⟨x, rfl⟩, hd⟩) (fun _ hf => hf)

/-- `U.BOOL` (R190). -/
theorem execWith_uBool_next (hc : c.SizesFit) {src : Src} {s t : State} (h : execWith c (.uBool src) s = .next t) :
    (seeded src s = false ∧ t = s.complete .notSeeded 0) ∨
    (seeded src s = true ∧
      SampleEnds c src (fun r => ∃ x : Word, r = (x.extractLsb' 63 1).setWidth 64) s t) := by
  have h' : uBool c src s = .next t := h
  unfold uBool at h'
  cases hv : seeded src s with
  | false => rw [hv] at h'; exact .inl ⟨rfl, by simpa using h'.symm⟩
  | true =>
    rw [hv, if_pos rfl] at h'
    refine .inr ⟨rfl, sampleEnds_of ?_ h'⟩
    exact (draw_ends hc.1 hc.2.1 src s).bind
      (fun x u hd => ⟨⟨x, rfl⟩, hd⟩) (fun _ hf => hf)

/-- `U.DIGIT` (R191). -/
theorem execWith_uDigit_next (hc : c.SizesFit) {src : Src} {s t : State} (h : execWith c (.uDigit src) s = .next t) :
    (seeded src s = false ∧ t = s.complete .notSeeded 0) ∨
    (seeded src s = true ∧
      SampleEnds c src (fun r => ∃ x, r = 0x30 + mulHi x 10 ∧ accepted 10 x = true) s t) := by
  have h' : uDigit c src s = .next t := h
  unfold uDigit at h'
  cases hv : seeded src s with
  | false => rw [hv] at h'; exact .inl ⟨rfl, by simpa using h'.symm⟩
  | true =>
    rw [hv, if_pos rfl] at h'
    refine .inr ⟨rfl, sampleEnds_of ?_ h'⟩
    refine (boundSample_ends hc src _ s).bind (fun v u hv => ?_) (fun _ hf => hf)
    obtain ⟨⟨x, rfl, hx⟩, hd⟩ := hv
    exact ⟨⟨x, rfl, hx⟩, hd⟩

/-! ### All commands -/

/-- The commands that deliver a word in `RES` (R24). -/
def Delivers (i : Instr) : Prop :=
  i = .wgNext ∨ i = .ksNext ∨
    ∃ src, i = .uBound src ∨ i = .uRange src ∨ i = .uF64 src ∨ i = .uBool src ∨ i = .uDigit src

/-- The state a command brings about before its completion is written (R250), with its completion code and
the bytes it wrote to OUT. -/
inductive Performed (c : Config) (i : Instr) (s : State) : Completion → List Byte → State → Prop where
  | stopped (why : Completion) (h : why ≠ .ok) (h' : why ≠ .counterExhausted) : Performed c i s why [] s
  | noEntropy (n : Nat) (hi : i = .wgSeede ∨ i = .ksSeede) :
      Performed c i s .entropyUnavailable [] (s.noteEntropy n)
  | nop (hi : i = .nop) : Performed c i s .ok [] s
  | clrerr (hi : i = .clrerr) : Performed c i s .ok [] s.clearSticky
  | wgSeede (hi : i = .wgSeede) (e : List Byte) (he : entropyAnswer 32 s = some e) :
      Performed c i s .ok [] ((s.noteEntropy 32).seedWg (zeroGuard c (entropyWords e)) false)
  | wgSeed (hi : i = .wgSeed) :
      Performed c i s .ok [] (s.seedWg (zeroGuard c (c.seedMix (seedWords s))) true)
  | wgJump (hi : i = .wgJump) (hv : s.wgValid = true) (q : Quad) (hq : jumpState c s.wg = q) :
      Performed c i s .ok [] (s.setWg q)
  | wgDrop (hi : i = .wgDrop) : Performed c i s .ok [] s.dropWg
  | ksSeede (hi : i = .ksSeede) (e : List Byte) (he : entropyAnswer (c.keyLen + c.nonceLen) s = some e) :
      Performed c i s .ok [] ((s.noteEntropy (c.keyLen + c.nonceLen)).seedKs c (keyPart c e) (noncePart c e) 0 false)
  | ksSeed (hi : i = .ksSeed) :
      Performed c i s .ok [] (s.seedKs c (keyPart c (keyNonceOperand c s))
        (noncePart c (keyNonceOperand c s)) (counterOperand c s) true)
  | ksDrop (hi : i = .ksDrop) : Performed c i s .ok [] (s.dropKs c)
  | delivered (hi : Delivers i) (src : Src) (hn : needs i = some src) (hv : seeded src s = true) (r : Word)
      (u : State) (hu : Drawn c src s u) : Performed c i s .ok [] (u.setRes r)
  | spent (hi : Delivers i) (hn : needs i = some .ks) (hv : s.ksValid = true) (u : State)
      (hs : Spent c u) (hu : KsMoved c s u) : Performed c i s .counterExhausted [] u
  | filled (hi : i = .ksFill) (hv : s.ksValid = true) (why : Completion) (hw : why = .ok ∨ why = .counterExhausted)
      (text : List Byte) (u : State) (hs : why = .counterExhausted → Spent c u)
      (hu : TextMoved c True text s u) : Performed c i s why text u
  | texted (alpha : BitVec 4) (hi : i = .txText alpha) (hv : s.ksValid = true) (why : Completion)
      (hw : why = .ok ∨ why = .counterExhausted) (text : List Byte) (u : State)
      (hs : why = .counterExhausted → Spent c u) (ha : u.acc = 0 ∧ u.nb = 0)
      (hu : TextMoved c False text s u) : Performed c i s why text u

theorem SampleEnds.performed {i : Instr} {src : Src} {R : Word → Prop} {s t : State} (hi : Delivers i)
    (hn : needs i = some src) (hv : seeded src s = true) (h : SampleEnds c src R s t) :
    ∃ why text u, Performed c i s why text u ∧ t = u.complete why text.length := by
  rcases h with ⟨r, u, _, hd, ht⟩ | ⟨u, rfl, hs, hd, ht⟩
  · exact ⟨_, [], _, .delivered hi src hn hv r u hd, ht⟩
  · exact ⟨_, [], _, .spent hi hn hv u hs hd, ht⟩

/-- What `execWith` can do, for every command. -/
theorem execWith_performed (hc : c.SizesFit) {i : Instr} {s t : State} (h : execWith c i s = .next t) :
    ∃ why text u, Performed c i s why text u ∧ t = u.complete why text.length := by
  have stop : ∀ why, why ≠ .ok → why ≠ .counterExhausted → t = s.complete why 0 →
      ∃ why text u, Performed c i s why text u ∧ t = u.complete why text.length :=
    fun why h1 h2 ht => ⟨why, [], s, .stopped why h1 h2, ht⟩
  cases i with
  | nop => exact ⟨_, [], _, .nop rfl, by cases h; rfl⟩
  | clrerr => exact ⟨_, [], _, .clrerr rfl, by cases h; rfl⟩
  | wgSeede =>
    rcases execWith_wgSeede_next h with ⟨_, ht⟩ | ⟨e, he, ht⟩
    · exact ⟨_, [], _, .noEntropy 32 (.inl rfl), ht⟩
    · exact ⟨_, [], _, .wgSeede rfl e he, ht⟩
  | wgSeed => exact ⟨_, [], _, .wgSeed rfl, by cases h; rfl⟩
  | wgNext =>
    rcases execWith_wgNext_next h with ⟨_, ht⟩ | ⟨hv, ht⟩
    · exact stop _ (by simp) (by simp) ht
    · exact ⟨_, [], _, .delivered (.inl rfl) .wg rfl hv _ _ ⟨1, rfl⟩, ht⟩
  | wgJump =>
    rcases execWith_wgJump_next h with ⟨_, ht⟩ | ⟨hv, ht⟩
    · exact stop _ (by simp) (by simp) ht
    · exact ⟨_, [], _, .wgJump rfl hv _ rfl, ht⟩
  | wgDrop => exact ⟨_, [], _, .wgDrop rfl, by cases h; rfl⟩
  | ksSeede =>
    rcases execWith_ksSeede_next h with ⟨_, ht⟩ | ⟨e, he, ht⟩
    · exact ⟨_, [], _, .noEntropy _ (.inr rfl), ht⟩
    · exact ⟨_, [], _, .ksSeede rfl e he, ht⟩
  | ksSeed => exact ⟨_, [], _, .ksSeed rfl, by cases h; rfl⟩
  | ksNext =>
    rcases execWith_ksNext_next hc h with ⟨_, ht⟩ | ⟨hv, ⟨r, u, hd, ht⟩ | ⟨u, hs, hd, ht⟩⟩
    · exact stop _ (by simp) (by simp) ht
    · exact ⟨_, [], _, .delivered (.inr (.inl rfl)) .ks rfl hv r u hd, ht⟩
    · exact ⟨_, [], _, .spent (.inr (.inl rfl)) rfl hv u hs hd, ht⟩
  | ksFill =>
    rcases execWith_ksFill_next hc h with ⟨_, ht⟩ | ⟨hv, ⟨text, u, _, hd, ht⟩ | ⟨text, u, hs, hd, ht⟩⟩
    · exact stop _ (by simp) (by simp) ht
    · exact ⟨_, text, _, .filled rfl hv _ (.inl rfl) text u (fun h => by simp at h) hd, ht⟩
    · exact ⟨_, text, _, .filled rfl hv _ (.inr rfl) text u (fun _ => hs) hd, ht⟩
  | ksDrop => exact ⟨_, [], _, .ksDrop rfl, by cases h; rfl⟩
  | uBound src =>
    rcases execWith_uBound_next hc h with ⟨_, ht⟩ | ⟨_, _, ht⟩ | ⟨hv, _, hd⟩
    · exact stop _ (by simp) (by simp) ht
    · exact stop _ (by simp) (by simp) ht
    · exact hd.performed (.inr (.inr ⟨src, by simp⟩)) rfl hv
  | uRange src =>
    rcases execWith_uRange_next hc h with ⟨_, ht⟩ | ⟨_, _, ht⟩ | ⟨hv, _, hd⟩
    · exact stop _ (by simp) (by simp) ht
    · exact stop _ (by simp) (by simp) ht
    · exact hd.performed (.inr (.inr ⟨src, by simp⟩)) rfl hv
  | uF64 src =>
    rcases execWith_uF64_next hc h with ⟨_, ht⟩ | ⟨hv, hd⟩
    · exact stop _ (by simp) (by simp) ht
    · exact hd.performed (.inr (.inr ⟨src, by simp⟩)) rfl hv
  | uBool src =>
    rcases execWith_uBool_next hc h with ⟨_, ht⟩ | ⟨hv, hd⟩
    · exact stop _ (by simp) (by simp) ht
    · exact hd.performed (.inr (.inr ⟨src, by simp⟩)) rfl hv
  | uDigit src =>
    rcases execWith_uDigit_next hc h with ⟨_, ht⟩ | ⟨hv, hd⟩
    · exact stop _ (by simp) (by simp) ht
    · exact hd.performed (.inr (.inr ⟨src, by simp⟩)) rfl hv
  | txText alpha =>
    rcases execWith_txText_next hc h with ⟨_, ht⟩ | ⟨a, _, ⟨_, ht⟩ | ⟨_, _, ht⟩ |
      ⟨hv, _, ⟨text, u, _, hz, hd, ht⟩ | ⟨text, u, hs, hz, hd, ht⟩⟩⟩
    · exact stop _ (by simp) (by simp) ht
    · exact stop _ (by simp) (by simp) ht
    · exact stop _ (by simp) (by simp) ht
    · exact ⟨_, text, _, .texted alpha rfl hv _ (.inl rfl) text u (fun h => by simp at h) hz hd, ht⟩
    · exact ⟨_, text, _, .texted alpha rfl hv _ (.inr rfl) text u (fun _ => hs) hz hd, ht⟩

/-- What `exec` can do, for every command. -/
theorem exec_performed {i : Instr} {s t : State} (h : exec i s = .next t) :
    ∃ why text u, Performed config i s why text u ∧ t = u.complete why text.length :=
  execWith_performed config_sizesFit (exec_eq i s ▸ h)

end Sys2Proof.Machine
end

