-- ==== Sys2Proof/Laws/Orbit.lean ====
section
/-! SUPPORT. Why the fuel of the rejection loop bounds nothing (R289, log entry 7): a Word Generator that is ever
to deliver a word with some property does so within `drawLimit` draws, because it has no more states. -/

namespace Sys2Proof.Machine

/-- The words of a state, as one number. -/
def Quad.toNat (q : Quad) : Nat :=
  q.w0.toNat + 2 ^ 64 * (q.w1.toNat + 2 ^ 64 * (q.w2.toNat + 2 ^ 64 * q.w3.toNat))

theorem Quad.toNat_lt (q : Quad) : Quad.toNat q < drawLimit := by
  have h0 := q.w0.isLt; have h1 := q.w1.isLt; have h2 := q.w2.isLt; have h3 := q.w3.isLt
  unfold Quad.toNat drawLimit
  omega

theorem Quad.toNat_inj {p q : Quad} (h : Quad.toNat p = Quad.toNat q) : p = q := by
  have h0 := p.w0.isLt; have h1 := p.w1.isLt; have h2 := p.w2.isLt
  have k0 := q.w0.isLt; have k1 := q.w1.isLt; have k2 := q.w2.isLt
  unfold Quad.toNat at h
  obtain ⟨a, b, c, d⟩ := p
  obtain ⟨e, f, g, i⟩ := q
  simp only at *
  have e0 : a.toNat = e.toNat := by omega
  have e1 : b.toNat = f.toNat := by omega
  have e2 : c.toNat = g.toNat := by omega
  have e3 : d.toNat = i.toNat := by omega
  rw [BitVec.eq_of_toNat_eq e0, BitVec.eq_of_toNat_eq e1, BitVec.eq_of_toNat_eq e2, BitVec.eq_of_toNat_eq e3]

/-- What a sequence of successors is ever to meet, it meets before it has been in every state. -/
theorem exists_lt_drawLimit {p : Quad → Prop} {c : Config} {q : Quad} {k : Nat} (h : p (wgAfter c q k)) :
    ∃ j, j < drawLimit ∧ j ≤ k ∧ p (wgAfter c q j) := by
  classical
  have hex : ∃ j, p (wgAfter c q j) := ⟨k, h⟩
  refine ⟨Nat.find hex, ?_, Nat.find_le h, Nat.find_spec hex⟩
  by_contra hge
  have hinj : ∀ i j, i < j → j ≤ Nat.find hex → wgAfter c q i ≠ wgAfter c q j := by
    intro i j hij hj he
    have hp := Nat.find_spec hex
    obtain ⟨d, hd⟩ : ∃ d, Nat.find hex = j + d := ⟨Nat.find hex - j, by omega⟩
    rw [hd, ← wgAfter_add, ← he, wgAfter_add] at hp
    exact Nat.find_min hex (by omega) hp
  let f : Fin (drawLimit + 1) → Fin drawLimit := fun i => ⟨Quad.toNat (wgAfter c q i), Quad.toNat_lt _⟩
  obtain ⟨i, j, hne, hfe⟩ := Fintype.exists_ne_map_eq_of_card_lt f (by simp)
  have he : wgAfter c q i = wgAfter c q j := Quad.toNat_inj (congrArg Fin.val hfe)
  have hi := i.isLt; have hj := j.isLt
  rcases Nat.lt_or_gt_of_ne (fun h => hne (Fin.ext h)) with hlt | hlt
  · exact hinj i j hlt (by omega) he
  · exact hinj j i hlt (by omega) he.symm

/-- The keystream is finite (R155). -/
theorem bytesLeft_le {c : Config} (hs : c.SizesFit) (s : State) :
    bytesLeft c s ≤ 2 ^ 16 + (2 ^ 64 - 1) * 2 ^ 16 := by
  have hL := hs.2.1
  unfold bytesLeft inBuffer
  rw [ctrMax_toNat]
  exact Nat.add_le_add (by omega) (Nat.mul_le_mul (Nat.sub_le _ _) hL.le)

/-- The number of draws before the first accepted word is below the fuel, from either source. -/
theorem first_accepted_lt {c : Config} (hs : c.SizesFit) {src : Src} {n : Word} {s : State} {k : Nat} (hk : canDrawTo c src s k)
    (hr : ∀ j, j < k → accepted n (comingDraw c src s j) = false)
    (ha : accepted n (comingDraw c src s k) = true) : k < drawLimit := by
  cases src with
  | wg =>
    obtain ⟨j, hj, hjk, hp⟩ := exists_lt_drawLimit
      (p := fun q => accepted n (c.wgStep q).1 = true) (c := c) (q := s.wg) (k := k) ha
    rcases Nat.lt_or_ge j k with h | h
    · have hrj : accepted n (c.wgStep (wgAfter c s.wg j)).1 = false := hr j h
      rw [hrj] at hp; cases hp
    · omega
  | ks =>
    have h : 8 * (k + 1) ≤ bytesLeft c s := hk
    have hb := bytesLeft_le hs s
    unfold drawLimit
    omega

/-- The loop ends with the first accepted word, however many are rejected before it (R183, R192). -/
theorem boundSample_done {c : Config} (hs : c.SizesFit) {src : Src} {n : Word} {s : State} {k : Nat} (hc : s.cur.toNat ≤ c.blockLen)
    (hd : canDrawTo c src s k)
    (hr : ∀ j, j < k → accepted n (comingDraw c src s j) = false)
    (ha : accepted n (comingDraw c src s k) = true) :
    boundSample c src n s =
      .done (mulHi (comingDraw c src s k) n) (afterDraws c src s (k + 1)) := by
  refine boundLoop_accepts hs.1 hs.2.1 hc (first_accepted_lt hs hd hr ha) ?_ hr ha
  intro j hj
  cases src with
  | wg => trivial
  | ks =>
    have h : 8 * (k + 1) ≤ bytesLeft c s := hd
    show 8 * (j + 1) ≤ bytesLeft c s
    omega

/-- The loop over a keystream whose every word that can still be drawn is rejected: all bytes left are taken, and
the counter is found exhausted (R183, R251). -/
theorem boundSample_raised {c : Config} (hs : c.SizesFit) {n : Word} {s : State}
    (hc : s.cur.toNat ≤ c.blockLen)
    (hr : ∀ k, canDrawTo c .ks s k → accepted n (comingDraw c .ks s k) = false) :
    boundSample c .ks n s = .raised .counterExhausted (afterBytes c s (bytesLeft c s)) := by
  have hdraw : ∀ j, j < bytesLeft c s / 8 → canDrawTo c .ks s j := fun j hj =>
    show 8 * (j + 1) ≤ bytesLeft c s by omega
  obtain ⟨f, hf⟩ : ∃ f, drawLimit = (f + 1) + bytesLeft c s / 8 := by
    have hb := bytesLeft_le hs s
    refine ⟨drawLimit - 1 - bytesLeft c s / 8, ?_⟩
    unfold drawLimit
    omega
  have h := boundLoop_rejects (n := n) (src := .ks) hs.1 hs.2.1 hc (bytesLeft c s / 8) 0 (f + 1)
    (fun j hj => hdraw j (by omega)) (fun j _ hj => hr j (hdraw j (by omega)))
  rw [afterDraws_zero, Nat.zero_add, ← hf, afterDraws_ks] at h
  rw [boundSample, h, boundLoop_succ, draw, ksWord,
    ksBytes_afterBytes_raised hs.1 hs.2.1 hc 8 _ (by omega) (by omega)]
  rfl

/-- The loop on the fast path ends unless no word that is to come is accepted (R289). -/
theorem boundSample_wg_hung_iff {c : Config} {n : Word} {s : State} :
    boundSample c .wg n s = .hung ↔ ∀ k, accepted n (wgWord c s.wg k) = false := by
  have hend : ∀ k s, (∀ j, j < k → accepted n (wgWord c s.wg j) = false) →
      boundLoop c .wg n k s = .hung := by
    intro k
    induction k with
    | zero => intro s _; rfl
    | succ k ih =>
      intro s h
      have h0 := h 0 (by omega)
      rw [boundLoop_succ, draw_wg, Attempt.bind_done, if_neg (by simpa [accepted] using h0)]
      exact ih _ fun j hj => h (j + 1) (by omega)
  constructor
  · intro h k
    by_contra hk
    obtain ⟨j, hj, _, hp⟩ := exists_lt_drawLimit
      (p := fun q => accepted n (c.wgStep q).1 = true) (c := c) (q := s.wg) (k := k)
      (show accepted n (wgWord c s.wg k) = true by simpa using hk)
    have key : ∀ j f s, j < f → accepted n (wgWord c s.wg j) = true →
        boundLoop c .wg n f s ≠ .hung := by
      intro j
      induction j with
      | zero =>
        intro f s hf ha
        obtain ⟨f, rfl⟩ : ∃ g, f = g + 1 := ⟨f - 1, by omega⟩
        rw [boundLoop_succ, draw_wg, Attempt.bind_done, if_pos (by simpa [accepted] using ha)]
        simp
      | succ j ih =>
        intro f s hf ha
        obtain ⟨f, rfl⟩ : ∃ g, f = g + 1 := ⟨f - 1, by omega⟩
        rw [boundLoop_succ, draw_wg, Attempt.bind_done]
        split
        · simp
        · exact ih f _ (by omega) ha
    exact key j drawLimit s hj hp h
  · exact fun h => hend drawLimit s fun j _ => h j

end Sys2Proof.Machine
end

