-- ==== Sys2Proof/Laws/Words.lean ====
section
/-! SUPPORT. Four words under exclusive or are a group in which every element is its own inverse: the sums of
the jump (R129) are rearranged with these. -/

namespace Sys2Proof

theorem Quad.xor_comm (p q : Quad) : p.xor q = q.xor p := by
  simp [Quad.xor, BitVec.xor_comm]

theorem Quad.xor_assoc (p q r : Quad) : (p.xor q).xor r = p.xor (q.xor r) := by
  simp [Quad.xor, BitVec.xor_assoc]

@[simp] theorem Quad.xor_zero (p : Quad) : p.xor Quad.zero = p := by
  simp [Quad.xor, Quad.zero]

@[simp] theorem Quad.zero_xor (p : Quad) : Quad.zero.xor p = p := by
  simp [Quad.xor, Quad.zero]

@[simp] theorem Quad.xor_self (p : Quad) : p.xor p = Quad.zero := by
  simp [Quad.xor, Quad.zero]

end Sys2Proof
end

