-- ==== Sys2Proof/Laws/Jump.lean ====
section
/-! SUPPORT. Polynomials of the state map over GF(2) (R130): `polyAct c p n` is the sum of the states after `k`
steps over the coefficients `p k = true` with `k < n`. For a linear state map it follows the algebra of
polynomials: sums, shifts and squares. -/

namespace Sys2Proof.Machine

/-- The state map is linear (R123, property 3). -/
def WgLinear (c : Config) : Prop := ∀ p q, wgSucc c (p.xor q) = (wgSucc c p).xor (wgSucc c q)

/-- The polynomial with coefficients `p`, cut off at degree `n`, applied to the state `q`. -/
def polyAct (c : Config) (p : Nat → Bool) (n : Nat) (q : Quad) : Quad :=
  match n with
  | 0 => Quad.zero
  | k + 1 => (polyAct c p k q).xor (if p k then wgAfter c q k else Quad.zero)

theorem Quad.xor_xor_cancel (p q r : Quad) : (p.xor q).xor (q.xor r) = p.xor r := by
  rw [Quad.xor_assoc, ← Quad.xor_assoc q q r, Quad.xor_self, Quad.zero_xor]

theorem Quad.xor_xor_xor_comm (p q r s : Quad) :
    (p.xor q).xor (r.xor s) = (p.xor r).xor (q.xor s) := by
  rw [Quad.xor_assoc, Quad.xor_assoc, ← Quad.xor_assoc q r s, Quad.xor_comm q r, Quad.xor_assoc]

/-! ### The state map -/

theorem wgSucc_zero {c : Config} (h : WgLinear c) : wgSucc c Quad.zero = Quad.zero := by
  have := h Quad.zero Quad.zero
  simpa using this

theorem wgAfter_xor {c : Config} (h : WgLinear c) (k : Nat) : ∀ p q,
    wgAfter c (p.xor q) k = (wgAfter c p k).xor (wgAfter c q k) := by
  induction k with
  | zero => intro p q; rfl
  | succ k ih => intro p q; rw [wgAfter, h, ih]; rfl

theorem wgAfter_zero {c : Config} (h : WgLinear c) (k : Nat) : wgAfter c Quad.zero k = Quad.zero := by
  induction k with
  | zero => rfl
  | succ k ih => rw [wgAfter, wgSucc_zero h, ih]

theorem wgAfter_eq_iterate (c : Config) (k : Nat) : ∀ q, wgAfter c q k = (wgSucc c)^[k] q := by
  induction k with
  | zero => intro q; rfl
  | succ k ih => intro q; rw [wgAfter, ih]; rfl

/-! ### Polynomials of it -/

theorem polyAct_congr {c : Config} {p r : Nat → Bool} {n : Nat} (q : Quad) (h : ∀ k, k < n → p k = r k) :
    polyAct c p n q = polyAct c r n q := by
  induction n with
  | zero => rfl
  | succ n ih => rw [polyAct, polyAct, ih fun k hk => h k (by omega), h n (by omega)]

/-- Coefficients that are 0 add nothing. -/
theorem polyAct_extend {c : Config} {p : Nat → Bool} {n : Nat} (q : Quad) (m : Nat)
    (h : ∀ k, n ≤ k → k < n + m → p k = false) : polyAct c p (n + m) q = polyAct c p n q := by
  induction m with
  | zero => rfl
  | succ m ih =>
    have hp : p (n + m) = false := h (n + m) (by omega) (by omega)
    rw [← Nat.add_assoc, polyAct, ih fun k h1 h2 => h k h1 (by omega), hp]
    simp

/-- The action is linear in the state. -/
theorem polyAct_state_xor {c : Config} (h : WgLinear c) (p : Nat → Bool) (n : Nat) (q r : Quad) :
    polyAct c p n (q.xor r) = (polyAct c p n q).xor (polyAct c p n r) := by
  induction n with
  | zero => simp [polyAct]
  | succ n ih =>
    rw [polyAct, polyAct, polyAct, ih, wgAfter_xor h, Quad.xor_xor_xor_comm]
    cases p n <;> simp

theorem polyAct_zero_state {c : Config} (h : WgLinear c) (p : Nat → Bool) (n : Nat) :
    polyAct c p n Quad.zero = Quad.zero := by
  have := polyAct_state_xor h p n Quad.zero Quad.zero
  simpa using this

/-- The sum of two polynomials. -/
theorem polyAct_poly_xor (c : Config) (p r : Nat → Bool) (n : Nat) (q : Quad) :
    polyAct c (fun k => xor (p k) (r k)) n q = (polyAct c p n q).xor (polyAct c r n q) := by
  induction n with
  | zero => simp [polyAct]
  | succ n ih =>
    rw [polyAct, polyAct, polyAct, ih, Quad.xor_xor_xor_comm]
    cases p n <;> cases r n <;> simp

/-- A polynomial commutes with the state map. -/
theorem polyAct_wgAfter {c : Config} (h : WgLinear c) (p : Nat → Bool) (n j : Nat) (q : Quad) :
    polyAct c p n (wgAfter c q j) = wgAfter c (polyAct c p n q) j := by
  induction n with
  | zero => exact (wgAfter_zero h j).symm
  | succ n ih =>
    rw [polyAct, polyAct, ih, wgAfter_xor h]
    cases p n with
    | false => simp [wgAfter_zero h]
    | true => simp [wgAfter_add, Nat.add_comm]

/-- Multiplication by `x^j`. -/
theorem polyAct_shift (c : Config) (p : Nat → Bool) (n j : Nat) (q : Quad) :
    polyAct c (fun k => decide (j ≤ k) && p (k - j)) (n + j) q = polyAct c p n (wgAfter c q j) := by
  induction n with
  | zero =>
    rw [Nat.zero_add]
    have := polyAct_extend (c := c) (p := fun k => decide (j ≤ k) && p (k - j)) (n := 0) q j
      (fun k _ h2 => by simp; omega)
    rwa [Nat.zero_add] at this
  | succ n ih =>
    rw [Nat.add_right_comm, polyAct, ih, polyAct, wgAfter_add]
    simp [Nat.add_comm]

/-- The square of a polynomial: over GF(2) the mixed terms cancel. -/
theorem polyAct_square {c : Config} (h : WgLinear c) (p : Nat → Bool) (n : Nat) (q : Quad) :
    polyAct c (fun k => decide (k % 2 = 0) && p (k / 2)) (2 * n) q = polyAct c p n (polyAct c p n q) := by
  induction n with
  | zero => rfl
  | succ n ih =>
    have e1 : (decide ((2 * n + 1) % 2 = 0) && p ((2 * n + 1) / 2)) = false := by simp
    have e0 : (decide ((2 * n) % 2 = 0) && p ((2 * n) / 2)) = p n := by simp
    rw [show 2 * (n + 1) = 2 * n + 1 + 1 by omega, polyAct, polyAct, ih, e1, e0]
    have hs : ∀ r, polyAct c p (n + 1) r =
        (polyAct c p n r).xor (if p n then wgAfter c r n else Quad.zero) := fun r => rfl
    rw [hs (polyAct c p (n + 1) q), hs q]
    cases p n with
    | false => simp
    | true =>
      simp only [if_true, Bool.false_eq_true, if_false, Quad.xor_zero]
      rw [polyAct_state_xor h, wgAfter_xor h, polyAct_wgAfter h, wgAfter_add, Quad.xor_xor_cancel,
        show n + n = 2 * n by omega]

/-! ### The loop of `WG.JUMP` -/

/-- A step first. -/
theorem polyAct_succ_left (c : Config) (p : Nat → Bool) (n : Nat) (q : Quad) :
    polyAct c p (n + 1) q =
      (if p 0 then q else Quad.zero).xor (polyAct c (fun k => p (k + 1)) n (wgSucc c q)) := by
  induction n with
  | zero => simp [polyAct, wgAfter]
  | succ n ih => rw [polyAct, ih, polyAct, Quad.xor_assoc]; rfl

/-- The loop of R129 adds up what its coefficients select. -/
theorem jumpLoop_eq (c : Config) (bits : List Bool) : ∀ acc q,
    jumpLoop c bits acc q = acc.xor (polyAct c (fun k => bits.getD k false) bits.length q) := by
  induction bits with
  | nil => intro acc q; simp [jumpLoop, polyAct]
  | cons b bs ih =>
    intro acc q
    have hs : polyAct c (fun k => (b :: bs).getD k false) (bs.length + 1) q =
        (if b then q else Quad.zero).xor (polyAct c (fun k => bs.getD k false) bs.length (wgSucc c q)) :=
      polyAct_succ_left c _ _ q
    rw [jumpLoop, ih, List.length_cons, hs, ← Quad.xor_assoc]
    cases b <;> simp [wgSucc]

/-- A polynomial that acts as `2^128` steps, on a linear permutation, makes the default configuration well
formed (R123, R130). -/
theorem config_wellFormed (hb : Function.Bijective (wgSucc config)) (hl : WgLinear config)
    (hj : ∀ q, jumpState config q = (wgSucc config)^[2 ^ 128] q) : config.WellFormed :=
  ⟨config_sizesFit, hb, hl, hj⟩

/-- A jump of a well-formed configuration leads from a state that is not zero to one that is not (R129). -/
theorem jumpState_ne_zero {c : Config} (hc : c.StepFits) {q : Quad} (hq : q ≠ Quad.zero) :
    jumpState c q ≠ Quad.zero := by
  intro h
  have hz : jumpState c Quad.zero = Quad.zero := by
    rw [hc.2.2, ← wgAfter_eq_iterate, wgAfter_zero hc.2.1]
  rw [← hz, hc.2.2, hc.2.2] at h
  exact hq (hc.1.1.iterate _ h)

end Sys2Proof.Machine
end

