-- ==== Sys2Proof/Laws/PerInstr.lean ====
section
/-! SUPPORT. The family `TableMatch`: the word of every command is one that its row of spec/opcode_table.json
selects (30_encoding.md, opening): its upper half is 0 and its lower half meets the row's mask and match. -/

namespace Sys2Proof.Laws.TableMatch

/-- The mask of the command's row. -/
def mask (i : Instr) : Word :=
  match i with
  | .nop => 0xFFFFFFFF
  | .clrerr => 0xFFFFFFFF
  | .wgSeede => 0xFFFFFFFF
  | .wgSeed => 0xFFFFFFFF
  | .wgNext => 0xFFFFFFFF
  | .wgJump => 0xFFFFFFFF
  | .wgDrop => 0xFFFFFFFF
  | .ksSeede => 0xFFFFFFFF
  | .ksSeed => 0xFFFFFFFF
  | .ksNext => 0xFFFFFFFF
  | .ksFill => 0xFFFFFFFF
  | .ksDrop => 0xFFFFFFFF
  | .uBound _ => 0xFFFFFEFF
  | .uRange _ => 0xFFFFFEFF
  | .uF64 _ => 0xFFFFFEFF
  | .uBool _ => 0xFFFFFEFF
  | .uDigit _ => 0xFFFFFEFF
  | .txText _ => 0xFFFF0FFF

/-- The match of the command's row. -/
def pattern (i : Instr) : Word :=
  match i with
  | .nop => 0x00000000
  | .clrerr => 0x00000001
  | .wgSeede => 0x00000010
  | .wgSeed => 0x00000011
  | .wgNext => 0x00000012
  | .wgJump => 0x00000013
  | .wgDrop => 0x00000014
  | .ksSeede => 0x00000020
  | .ksSeed => 0x00000021
  | .ksNext => 0x00000022
  | .ksFill => 0x00000023
  | .ksDrop => 0x00000024
  | .uBound _ => 0x00000030
  | .uRange _ => 0x00000031
  | .uF64 _ => 0x00000032
  | .uBool _ => 0x00000033
  | .uDigit _ => 0x00000034
  | .txText _ => 0x00000040

/-- The word of `i` is one of its row's. -/
def Statement (i : Instr) : Prop := encode i &&& (0xFFFFFFFF00000000 ||| mask i) = pattern i

theorem nop : Statement .nop := by unfold Statement; decide

theorem clrerr : Statement .clrerr := by unfold Statement; decide

theorem wgSeede : Statement .wgSeede := by unfold Statement; decide

theorem wgSeed : Statement .wgSeed := by unfold Statement; decide

theorem wgNext : Statement .wgNext := by unfold Statement; decide

theorem wgJump : Statement .wgJump := by unfold Statement; decide

theorem wgDrop : Statement .wgDrop := by unfold Statement; decide

theorem ksSeede : Statement .ksSeede := by unfold Statement; decide

theorem ksSeed : Statement .ksSeed := by unfold Statement; decide

theorem ksNext : Statement .ksNext := by unfold Statement; decide

theorem ksFill : Statement .ksFill := by unfold Statement; decide

theorem ksDrop : Statement .ksDrop := by unfold Statement; decide

theorem uBound (src : Src) : Statement (.uBound src) := by
  unfold Statement
  cases src <;> decide

theorem uRange (src : Src) : Statement (.uRange src) := by
  unfold Statement
  cases src <;> decide

theorem uF64 (src : Src) : Statement (.uF64 src) := by
  unfold Statement
  cases src <;> decide

theorem uBool (src : Src) : Statement (.uBool src) := by
  unfold Statement
  cases src <;> decide

theorem uDigit (src : Src) : Statement (.uDigit src) := by
  unfold Statement
  cases src <;> decide

theorem txText (alpha : BitVec 4) : Statement (.txText alpha) := by
  unfold Statement
  revert alpha
  decide

end Sys2Proof.Laws.TableMatch
end

