-- ==== Sys2Proof/Laws/Steps.lean ====
section
/-! SUPPORT. What one step can do: it takes the next input, and what it does with it is one of five things. -/

namespace Sys2Proof.Machine

/-- A step of `step` is one of `stepWith` at the default configuration (log entry 3). -/
theorem step_eq (s : State) : step s = stepWith config s := by
  unfold step stepWith
  rw [show exec = execWith config from funext fun i => funext (exec_eq i)]

/-- A step that goes on: with no input it is idle; a read is delivered; a write of another register is served;
the reset input is served; and a value written to `CMD` is latched and then refused or performed (R61, R62, R281). -/
theorem stepWith_next_cases {c : Config} {s t : State} (h : stepWith c s = .next t) :
    (s.inputs = [] ∧ t = s) ∨
    (∃ idx rest, s.inputs = .read idx :: rest ∧ t = (s.setInputs rest).deliver (hostRead c idx s)) ∨
    (∃ idx v rest, s.inputs = .write idx v :: rest ∧ idx ≠ 0 ∧ t = hostWrite c idx v (s.setInputs rest)) ∨
    (∃ rest, s.inputs = .reset :: rest ∧ t = (s.setInputs rest).resetInput c) ∨
    (∃ v rest, s.inputs = .write 0 v :: rest ∧
      ((∃ e, decodeWith c v = .error e ∧ t = illegalCommand ((s.setInputs rest).latchCommand v)) ∨
       (∃ i, decodeWith c v = .ok i ∧ execWith c i ((s.setInputs rest).latchCommand v) = .next t))) := by
  unfold stepWith stepBy serve at h
  cases hi : s.inputs with
  | nil => simp [hi] at h; exact .inl ⟨rfl, h.symm⟩
  | cons x rest =>
    cases x with
    | read idx => simp [hi] at h; exact .inr (.inl ⟨idx, rest, rfl, h.symm⟩)
    | reset => simp [hi] at h; exact .inr (.inr (.inr (.inl ⟨rest, rfl, h.symm⟩)))
    | write idx v =>
      by_cases h0 : idx = 0
      · subst h0
        simp [hi] at h
        refine .inr (.inr (.inr (.inr ⟨v, rest, rfl, ?_⟩)))
        cases hd : decodeWith c v with
        | ok i => rw [hd] at h; exact .inr ⟨i, rfl, h⟩
        | error e => rw [hd] at h; simp at h; exact .inl ⟨e, rfl, h.symm⟩
      · simp only [hi] at h
        rw [if_neg h0] at h
        simp at h
        exact .inr (.inr (.inl ⟨idx, v, rest, rfl, h0, h.symm⟩))

/-- The same of `step`. -/
theorem step_next_cases {s t : State} (h : step s = .next t) :
    (s.inputs = [] ∧ t = s) ∨
    (∃ idx rest, s.inputs = .read idx :: rest ∧ t = (s.setInputs rest).deliver (hostRead config idx s)) ∨
    (∃ idx v rest, s.inputs = .write idx v :: rest ∧ idx ≠ 0 ∧ t = hostWrite config idx v (s.setInputs rest)) ∨
    (∃ rest, s.inputs = .reset :: rest ∧ t = (s.setInputs rest).resetInput config) ∨
    (∃ v rest, s.inputs = .write 0 v :: rest ∧
      ((∃ e, decode v = .error e ∧ t = illegalCommand ((s.setInputs rest).latchCommand v)) ∨
       (∃ i, decode v = .ok i ∧ exec i ((s.setInputs rest).latchCommand v) = .next t))) := by
  simpa only [exec_eq, decode] using stepWith_next_cases (step_eq s ▸ h)

/-- The fields of a command word, side by side (R90). -/
theorem word_fields (v : Word) :
    v = fieldUpper v ++ fieldRsv2 v ++ fieldAlpha v ++ fieldRsv1 v ++ BitVec.ofBool (v.getLsbD 8) ++
      fieldOp v := by
  apply BitVec.eq_of_getLsbD_eq
  intro i hi
  simp only [fieldUpper, fieldRsv2, fieldAlpha, fieldRsv1, fieldOp, BitVec.getLsbD_append,
    BitVec.getLsbD_extractLsb', BitVec.getLsbD_ofBool]
  have key : ∀ (b : Bool) (j : Nat), b = true → j = i → v.getLsbD i = (b && v.getLsbD j) := by
    rintro b j rfl rfl
    rw [Bool.true_and]
  split_ifs <;> exact key _ _ (decide_eq_true (by omega)) (by omega)

end Sys2Proof.Machine
end

