-- ==== Sys2Proof/Tests/Slice0.lean ====
section
/-! SUPPORT. The model's own tests. Every expected value stands in spec/95_test_vectors.md (the vector is named) or
is worked out by hand from the rule named. After them, one witness for the hypotheses of each statement. -/

namespace Sys2Proof.Tests

open Sys2Proof.Machine

/-! ### Small states -/

/-- Test configuration T (95_test_vectors.md, section 1). -/
def configT : Config :=
  { config with
    blockLen := 16
    blockFn := fun key nonce c i =>
      key.getD (i % 32) 0 + nonce.getD (i % 8) 0 + 16 * c.setWidth 8 + BitVec.ofNat 8 i }

/-- A YRCORE with another `WG_STEP`, `JUMP_POLY`, `SEED_MIX` and alphabet table: the state words move round, which
four steps undo, so `2^128` steps leave the state as it is and the polynomial 1 is the jump's. -/
def configRound : Config :=
  { config with
    wgStep := fun q => (q.w0, ⟨q.w1, q.w2, q.w3, q.w0⟩)
    seedMix := fun q => ⟨q.w0 + 1, q.w1, q.w2, q.w3⟩
    jumpPoly := ⟨1, 0, 0, 0⟩
    alphabets := [⟨1, [0x2E#8, 0x23#8]⟩] }

/-- The state an outcome goes on in. -/
def after (o : Host.Outcome State Fault Refusal) : State :=
  match o with
  | .next s => s
  | .fault _ => State.reset
  | .refused _ => State.reset

/-- The outcome is a next state. -/
def goesOn (o : Host.Outcome State Fault Refusal) : Bool :=
  match o with
  | .next _ => true
  | .fault _ => false
  | .refused _ => false

/-- The Word Generator of V1's start. -/
def wg1234 : State := { State.reset with wg := ⟨1, 2, 3, 4⟩, wgValid := true }

/-- V28's start: the Word Generator after three words, and the bound. -/
def wgRejecting : State :=
  { State.reset with
    wg := ⟨0x0000C00018040002, 0x0000C00000000007, 0x0000C008000E0002, 0x8000A00000000300⟩, wgValid := true,
    d := [0x8000000000000001, 0, 0, 0, 0, 0] }

/-- Configuration T after `KS.SEED` with the zero key and counter `c0`. -/
def ksT (c0 : Word) : State := after (execWith configT .ksSeed ((State.resetWith configT).setData 5 c0))

/-- A seeded keystream with 64 bytes 00 01 02 .. in the buffer, the first `used` delivered, and counter `ctr`. -/
def ksReady (used : Nat) (ctr : Word) : State :=
  { State.reset with
    ksValid := true, buf := (List.range 64).map (BitVec.ofNat 8), cur := BitVec.ofNat 16 used, ctr := ctr }

/-- The bytes of a string of ASCII characters. -/
def ascii (text : String) : List Byte := text.toList.map fun c => BitVec.ofNat 8 c.toNat

/-! ### Encoding -/

theorem test_decode_control : decode 0x00000000 = .ok .nop ∧ decode 0x00000001 = .ok .clrerr := by decide

theorem test_decode_wordGenerator :
    decode 0x00000010 = .ok .wgSeede ∧ decode 0x00000011 = .ok .wgSeed ∧ decode 0x00000012 = .ok .wgNext ∧
    decode 0x00000013 = .ok .wgJump ∧ decode 0x00000014 = .ok .wgDrop := by decide

theorem test_decode_keystream :
    decode 0x00000020 = .ok .ksSeede ∧ decode 0x00000021 = .ok .ksSeed ∧ decode 0x00000022 = .ok .ksNext ∧
    decode 0x00000023 = .ok .ksFill ∧ decode 0x00000024 = .ok .ksDrop := by decide

theorem test_decode_sampler :
    decode 0x00000030 = .ok (.uBound .wg) ∧ decode 0x00000130 = .ok (.uBound .ks) ∧
    decode 0x00000031 = .ok (.uRange .wg) ∧ decode 0x00000131 = .ok (.uRange .ks) ∧
    decode 0x00000032 = .ok (.uF64 .wg) ∧ decode 0x00000132 = .ok (.uF64 .ks) ∧
    decode 0x00000033 = .ok (.uBool .wg) ∧ decode 0x00000133 = .ok (.uBool .ks) ∧
    decode 0x00000034 = .ok (.uDigit .wg) ∧ decode 0x00000134 = .ok (.uDigit .ks) := by decide

theorem test_decode_text :
    decode 0x00000040 = .ok (.txText 0) ∧ decode 0x00001040 = .ok (.txText 1) ∧
    decode 0x00002040 = .ok (.txText 2) ∧ decode 0x00003040 = .ok (.txText 3) := by decide

/-- `U.BOUND` from the keystream, its word laid out field by field as R90 draws it: upper half, RSV2, ALPHA,
RSV1, SRC, OP. -/
theorem test_decode_bit_by_bit :
    decode (0#32 ++ 0b0000000000000000#16 ++ 0b0000#4 ++ 0b000#3 ++ 0b1#1 ++ 0b00110000#8) =
      .ok (.uBound .ks) := by decide

/-- V52: one value for each test of R96. -/
theorem test_decode_refuses :
    decode 0x0000000100000012 = .error .upperHalf ∧ decode 0x00010012 = .error .reservedField ∧
    decode 0x00000212 = .error .reservedField ∧ decode 0x00000002 = .error .unassignedOp ∧
    decode 0x00000035 = .error .unassignedOp ∧ decode 0x000000FF = .error .unassignedOp ∧
    decode 0x00000112 = .error .srcNotUsed ∧ decode 0x00001012 = .error .alphaNotUsed ∧
    decode 0x00004040 = .error .alphaUndefined ∧ decode 0x00000140 = .error .srcNotUsed := by decide

theorem test_decodeTableWord : decodeTableWord 32 0x3040 = some (.txText 3) := by decide

/-! ### Well-formedness: the one check of a command, and each check of a configuration -/

theorem test_txText_wellFormed : (Instr.txText 3).WellFormed config := by decide
theorem test_txText_illFormed : ¬ (Instr.txText 4).WellFormed config := by decide
theorem test_config_sizesFit : config.SizesFit := by decide
theorem test_configT_sizesFit : configT.SizesFit := by decide
theorem test_config_blockLen_zero : ¬ ({ config with blockLen := 0 } : Config).SizesFit := by decide
theorem test_config_blockLen_large : ¬ ({ config with blockLen := 65536 } : Config).SizesFit := by decide
theorem test_config_keyLen_zero : ¬ ({ config with keyLen := 0 } : Config).SizesFit := by decide
theorem test_config_operands_too_many : ¬ ({ config with nonceLen := 1945 } : Config).SizesFit := by decide
theorem test_config_alphabets_too_many :
    ¬ ({ config with alphabets := List.replicate 17 alphabetB32 } : Config).SizesFit := by decide
theorem test_config_mixer_zero : ¬ ({ config with seedMix := id } : Config).SizesFit := by decide
theorem test_alphabet_ten_characters : ¬ (⟨4, digitChars⟩ : Alphabet).WellFormed := by decide
theorem test_alphabet_repeated_character : ¬ (⟨1, [0x30#8, 0x30#8]⟩ : Alphabet).WellFormed := by decide
theorem test_alphabet_no_bits : ¬ (⟨0, [0x30#8]⟩ : Alphabet).WellFormed := by decide
theorem test_alphabet_nine_bits : ¬ (⟨9, List.replicate 512 0x30#8⟩ : Alphabet).WellFormed := by decide +kernel

theorem test_configRound_wellFormed : configRound.WellFormed := by
  have h4 : (wgSucc configRound)^[4] = id := rfl
  have hj : ∀ q, (wgSucc configRound)^[jumpDist] q = q := fun q => by
    rw [show jumpDist = 4 * 2 ^ 126 by norm_num [jumpDist], Function.iterate_mul, h4, Function.iterate_id, id]
  refine ⟨by decide, ⟨?_, ?_⟩, fun _ _ => rfl, fun q => ?_⟩
  · rintro ⟨a, b, c, d⟩ ⟨e, f, g, h⟩ hx
    simpa [wgSucc, configRound, and_comm, and_assoc, and_left_comm] using hx
  · exact fun q => ⟨⟨q.w3, q.w0, q.w1, q.w2⟩, rfl⟩
  · rw [hj, jumpState, jumpLoop_eq, Quad.zero_xor]
    have hp : ∀ k, k < 256 → (polyBits configRound.jumpPoly).getD k false = decide (k = 0) := by decide +kernel
    rw [show (polyBits configRound.jumpPoly).length = 1 + 255 by decide +kernel,
      polyAct_extend q 255 fun k h1 h2 => by rw [hp k h2]; exact decide_eq_false (by omega)]
    exact Quad.zero_xor q

theorem test_config_step_not_a_permutation :
    ¬ ({ config with wgStep := fun q => (q.w0, Quad.zero) } : Config).StepFits := by
  rintro ⟨⟨h, _⟩, _⟩
  exact absurd (@h ⟨1, 0, 0, 0⟩ ⟨2, 0, 0, 0⟩ rfl) (by decide)

theorem test_config_step_not_linear :
    ¬ ({ config with wgStep := fun q => (q.w0, ⟨q.w0 + 1, q.w1, q.w2, q.w3⟩) } : Config).StepFits := by
  rintro ⟨_, h, _⟩
  exact absurd (h Quad.zero Quad.zero) (by decide)

/-- `JUMP_POLY` must be that of `WG_STEP` (R130). -/
theorem test_config_jump_of_another_step :
    ¬ ({ configRound with jumpPoly := ⟨2, 0, 0, 0⟩ } : Config).StepFits := by
  rintro ⟨_, _, h⟩
  have h1 := h ⟨1, 0, 0, 0⟩
  rw [show jumpDist = 4 * 2 ^ 126 by norm_num [jumpDist], Function.iterate_mul,
    show (wgSucc { configRound with jumpPoly := ⟨2, 0, 0, 0⟩ })^[4] = id from rfl, Function.iterate_id] at h1
  revert h1
  decide +kernel

/-! ### Reset and the host port -/

/-- V51. -/
theorem test_reset_reads :
    (after (stepWith configT { State.resetWith configT with inputs := [.read 1] })).readData = [0] ∧
    (after (stepWith configT { State.resetWith configT with inputs := [.read 4] })).readData = [16] ∧
    (after (stepWith configT { State.resetWith configT with inputs := [.read 6] })).readData =
      [0x0106040080200010] ∧
    (after (stepWith configT { State.resetWith configT with inputs := [.read 14] })).readData = [0] := by decide

/-- R21: the step of a YRCORE with its own `WG_STEP` and alphabet table: the word delivered is `S[0]`, the text is
the bits of the first block, here `0x01 ..`, and alphabet 1 is not defined. -/
theorem test_another_configuration :
    (after (stepWith configRound (wg1234.withFetchWord 32 0x12))).res = 1 ∧
    (after (stepWith configRound (wg1234.withFetchWord 32 0x12))).wg = ⟨2, 3, 4, 1⟩ ∧
    ((after (stepWith configRound (((ksReady 1 0).setData 0 128).withFetchWord 32 0x40))).out.take 8 =
      ascii ".......#") ∧
    (after (stepWith configRound ((ksReady 1 0).withFetchWord 32 0x1040))).err = .illegalCommand := by
  decide +kernel

/-- V51: a write of a register that is none, or is read-only, changes nothing. -/
theorem test_hostWrite_ignored :
    [1, 7, 14].all (fun idx => hostWrite config idx 0x1234 wg1234 = wg1234) = true := by decide

/-- R60: index 13 is the last data register. -/
theorem test_hostWrite_data : (hostWrite config 13 0x1234 State.reset).d = [0, 0, 0, 0, 0, 0x1234] := by decide

/-- V52: `CMD` reads as the value written, and the sticky bit 22 is set. -/
theorem test_illegal_command :
    (after (step { State.reset with inputs := [.write 0 0x100000012] })).cmd = 0x100000012 ∧
    statusWord config (after (step { State.reset with inputs := [.write 0 0x100000012] })) = 0x400600 := by
  decide

theorem test_step_runs_the_table_word :
    (after (step (wg1234.withFetchWord 32 0x12))).res = 0x0000000002800001 := by decide

/-- R281. -/
theorem test_reset_input :
    (after (step { wg1234 with inputs := [.reset], out := [1#8] })).wg = Quad.zero ∧
    (after (step { wg1234 with inputs := [.reset], out := [1#8] })).out = [] := by decide

/-! ### Control -/

/-- V54. -/
theorem test_nop_keeps_sticky :
    statusWord config (after (exec .nop { ksReady 64 0 with wgValid := true, err := .invalidBound, serr := 2 })) =
      0x40005 := by decide

/-- V54. -/
theorem test_clrerr :
    statusWord config (after (exec .clrerr { ksReady 64 0 with wgValid := true, err := .invalidBound, serr := 2 })) =
      0x5 := by decide

/-! ### Word Generator -/

/-- V1, V3: the entropy bytes of 1, 2, 3, 4. -/
theorem test_wgSeede :
    (after (exec .wgSeede { State.reset with
      entropy := [.ok ((List.range 32).map fun j => if j % 8 = 0 then BitVec.ofNat 8 (j / 8 + 1) else 0)] })).wg =
      ⟨1, 2, 3, 4⟩ := by decide

/-- V4: 32 zero bytes. -/
theorem test_wgSeede_zero :
    (after (exec .wgSeede { State.reset with entropy := [.ok (List.replicate 32 0)] })).wg =
      ⟨0xE220A8397B1DCDAF, 0x6E789E6AA1B965F4, 0x06C45D188009454F, 0xF88BB8A8724C81EC⟩ := by decide

/-- V6. -/
theorem test_wgSeed :
    (after (exec .wgSeed { State.reset with d := [1, 2, 3, 4, 0, 0] })).wg =
      ⟨0x910A2DEC89025CC1, 0xBFC846100BFC1E42, 0x9CEBE8A6D050DD01, 0x7DE4EB0C26F3F89E⟩ := by decide

/-- V8: the operands that the mixer maps to zero. -/
theorem test_wgSeed_guard :
    (after (exec .wgSeed { State.reset with
      d := [0x61C8864680B583EB, 0xC3910C8D016B07D6, 0x255992D382208BC1, 0x8722191A02D60FAC, 0, 0] })).wg =
      ⟨0xE220A8397B1DCDAF, 0x6E789E6AA1B965F4, 0x06C45D188009454F, 0xF88BB8A8724C81EC⟩ := by decide

/-- V1, V2. -/
theorem test_wgNext :
    (after (exec .wgNext wg1234)).res = 0x0000000002800001 ∧
    (after (exec .wgNext wg1234)).wg = ⟨7, 0, 0x40002, 0x0000C00000000000⟩ := by decide

/-- V9. -/
theorem test_wgJump :
    (after (exec .wgJump wg1234)).wg =
      ⟨0x8C7A153956B5F3D1, 0x701F1A713401D85E, 0x6527F66A65469085, 0x8386B786C4408050⟩ := by decide +kernel

/-- V12. -/
theorem test_wgDrop :
    statusWord config (after (exec .wgNext (after (exec .wgDrop wg1234)))) = 0x800700 := by decide

/-! ### Keystream Generator, configuration T -/

/-- V17. -/
theorem test_ksSeede :
    (after (execWith configT .ksNext (after (execWith configT .ksSeede { State.resetWith configT with
      entropy := [.ok (List.replicate 32 0xA5 ++ [1, 2, 3, 4, 5, 6, 7, 8])] })))).res =
      0xB4B2B0AEACAAA8A6 := by decide +kernel

/-- V18: a failure leaves a seeded generator as it was. -/
theorem test_ksSeede_fails :
    (after (exec .ksSeede { ksReady 5 9 with entropy := [.fail] })).ctr = 9 ∧
    statusWord config (after (exec .ksSeede { ksReady 5 9 with entropy := [.fail] })) = 0x20114 := by decide

/-- V16. -/
theorem test_ksSeed :
    (after (execWith configT .ksNext (after (execWith configT .ksSeed { State.resetWith configT with
      d := [0xA5A5A5A5A5A5A5A5, 0xA5A5A5A5A5A5A5A5, 0xA5A5A5A5A5A5A5A5, 0xA5A5A5A5A5A5A5A5,
            0x0807060504030201, 5] })))).res = 0x040200FEFCFAF8F6 := by decide +kernel

/-- V14: across a block boundary. -/
theorem test_ksNext :
    (after (execWith configT .ksNext (after (execWith configT .ksFill ((ksT 0).setData 0 13))))).res = 0x14131211100F0E0D := by
  decide +kernel

/-- V21: the bytes before the failing refill are consumed and lost. -/
theorem test_ksNext_cut_short :
    (after (execWith configT .ksNext (after (execWith configT .ksFill ((ksT 0xFFFFFFFFFFFFFFFE).setData 0 12))))).cur = 16 ∧
    (after (execWith configT .ksNext (after (execWith configT .ksFill ((ksT 0xFFFFFFFFFFFFFFFE).setData 0 12))))).err =
      .counterExhausted := by decide +kernel

/-- V14. -/
theorem test_ksFill :
    (after (execWith configT .ksFill ((ksT 0).setData 0 13))).out = [0, 1, 2, 3, 4, 5, 6, 7, 8, 9, 10, 11, 12] := by
  decide +kernel

/-- V20. -/
theorem test_ksFill_cut_short :
    (after (execWith configT .ksFill ((ksT 0xFFFFFFFFFFFFFFFE).setData 0 20))).outcnt = 16 ∧
    (after (execWith configT .ksFill ((ksT 0xFFFFFFFFFFFFFFFE).setData 0 20))).ctr = 0xFFFFFFFFFFFFFFFF := by
  decide +kernel

/-- R161. -/
theorem test_ksDrop :
    (after (exec .ksDrop (ksReady 5 9))).buf = List.replicate 64 0 ∧
    (after (exec .ksDrop (ksReady 5 9))).cur = 64 := by decide

/-! ### Uniform Sampler -/

/-- V28: two words rejected. -/
theorem test_uBound_rejects :
    (after (exec (.uBound .wg) wgRejecting)).res = 0x4534CBC566F719DD := by decide +kernel

/-- V29: no word is drawn. -/
theorem test_uBound_zero :
    statusWord config (after (exec (.uBound .wg) wg1234)) = 0x40201 ∧
    (after (exec (.uBound .wg) wg1234)).wg = ⟨1, 2, 3, 4⟩ := by decide

/-- V33: the widest span. -/
theorem test_uRange_widest :
    (after (exec (.uRange .wg) { wg1234 with
      d := [0x8000000000000000, 0x7FFFFFFFFFFFFFFF, 0, 0, 0, 0] })).res = 0x8000000002800000 := by decide +kernel

/-- V34: the comparison is signed. -/
theorem test_uRange_signed :
    statusWord config (after (exec (.uRange .wg) { wg1234 with d := [5, 0xFFFFFFFFFFFFFFFB, 0, 0, 0, 0] })) =
      0x80301 := by decide

/-- V35. -/
theorem test_f64Bits :
    f64Bits 0 = 0 ∧ f64Bits 1 = 0x3CA0000000000000 ∧ f64Bits 3 = 0x3CB8000000000000 ∧
    f64Bits 0x1FFFFFFFFFFFFF = 0x3FEFFFFFFFFFFFFF ∧ f64Bits 0x1AC4522E7113A = 0x3FAAC4522E7113A0 := by decide

/-- V38. -/
theorem test_uF64_keystream : (after (execWith configT (.uF64 .ks) (ksT 0))).res = 0x3F9C1814100C0800 := by decide +kernel

/-- V36: the fifth word of V1 has its top bit set. -/
theorem test_uBool :
    (after (exec (.uBool .wg) wg1234)).res = 0 ∧
    (after (exec (.uBool .wg) { wg1234 with
      wg := ⟨0x8000A00018040305, 0x0000C008180A0007, 0x8000000818040000, 0x0060F0000C000000⟩ })).res = 1 := by
  decide

/-- V37: the second word from the state of V6. -/
theorem test_uDigit :
    (after (exec (.uDigit .wg) { State.reset with
      wgValid := true,
      wg := ⟨0x532680F0A40DBA1D, 0xB229835A52AE9F82, 0x81C1D2B265D681C0, 0xFCDB984595A385A1⟩ })).res = 0x39 := by
  decide +kernel

/-- V40: words the bound 10 and the bound 2^63 + 1 reject, and words they accept. -/
theorem test_accepted :
    accepted 10 0x999999999999999A = false ∧ accepted 10 0x1999999999999999 = true ∧
    mulHi 0x8000000000000001 10 = 5 ∧ accepted 0x8000000000000001 0x8000000000000001 = false ∧
    mulHi 0xFFFFFFFFFFFFFFFF 0x8000000000000001 = 0x8000000000000000 := by decide

/-! ### Text Encoder, configuration T -/

/-- V44: characters that do not align with bytes. -/
theorem test_txText_base64 :
    (after (execWith configT (.txText 3) ((ksT 0).setData 0 22))).out = ascii "AAECAwQFBgcICQoLDA0ODx" := by decide +kernel

/-- V49: a text cut short. -/
theorem test_txText_cut_short :
    (after (execWith configT (.txText 3) ((ksT 0xFFFFFFFFFFFFFFFE).setData 0 22))).out = ascii "4OHi4-Tl5ufo6err7O3u7" ∧
    (after (execWith configT (.txText 3) ((ksT 0xFFFFFFFFFFFFFFFE).setData 0 22))).outcnt = 21 := by decide +kernel

/-- R212: the alphabets as the table writes them, and their minimum lengths. -/
theorem test_alphabets :
    alphabetHexU.chars = ascii "0123456789ABCDEF" ∧ alphabetHexL.chars = ascii "0123456789abcdef" ∧
    alphabetB32.chars = ascii "ABCDEFGHIJKLMNOPQRSTUVWXYZ234567" ∧
    alphabetB64Url.chars = ascii "ABCDEFGHIJKLMNOPQRSTUVWXYZabcdefghijklmnopqrstuvwxyz0123456789-_" ∧
    defaultAlphabets.map minLen = [32, 32, 26, 22] := by decide +kernel

/-! ### Witnesses: each statement's hypotheses met together, each clause at the ends of its range -/

theorem test_witness_CommandWriteRunsTheDecodedCommand :
    ({ State.reset with inputs := [.write 0 0x12, .read 2] } : State).inputs = .write 0 0x12 :: [.read 2] ∧
    decode 0x12 = .ok .wgNext ∧ decodeWith configRound 0x12 = .ok .wgNext := by decide

theorem test_witness_IllegalCommandChangesOnlyStatus :
    ({ State.reset with inputs := [.write 0 0x4040] } : State).inputs = .write 0 0x4040 :: [] ∧
    ∀ i : Instr, i.WellFormed config → (0x4040 : Word) ≠ encode i := by
  refine ⟨rfl, fun i hi => ?_⟩
  cases i with
  | txText alpha =>
    have h : ∀ a : BitVec 4, a.toNat < 4 → (0x4040 : Word) ≠ encode (.txText a) := by decide
    exact h alpha hi
  | uBound src => cases src <;> decide
  | uRange src => cases src <;> decide
  | uF64 src => cases src <;> decide
  | uBool src => cases src <;> decide
  | uDigit src => cases src <;> decide
  | _ => decide

/-- Every index at which the outcome changes: each register, the hole, the first and last data register, the rest. -/
theorem test_witness_HostReadDeliversTheRegister :
    ∀ idx ∈ ([0, 1, 2, 3, 4, 5, 6, 7, 8, 13, 14, 255] : List (BitVec 8)),
      ({ wg1234 with inputs := [.read idx] } : State).inputs = .read idx :: [] ∧
      goesOn (step { wg1234 with inputs := [.read idx] }) = true := by decide

theorem test_witness_HostWriteSetsDataRegistersOnly :
    ∀ idx ∈ ([1, 7, 8, 13, 14, 255] : List (BitVec 8)),
      ({ wg1234 with inputs := [.write idx 9] } : State).inputs = .write idx 9 :: [] ∧ idx ≠ 0 := by decide

theorem test_witness_ResetInputRestoresTheResetState :
    ({ wg1234 with inputs := [.reset, .read 2] } : State).inputs = .reset :: [.read 2] := rfl

/-- For the three statements about `WG.JUMP`, `WgNextDeliversTheNextWord` and the hypotheses of `WgNonzero`. -/
theorem test_witness_wgValid : wg1234.wgValid = true ∧ wg1234.wg ≠ Quad.zero := by decide

/-- Both clauses, and both values of the zero guard. -/
theorem test_witness_WgSeedeTakesTheEntropyBytes :
    ∀ b ∈ ([0, 1, 255] : List Byte),
      entropyAnswer 32 { State.reset with entropy := [.ok (List.replicate 32 b)] } = some (List.replicate 32 b) ∧
      ({ State.reset with entropy := [.ok (List.replicate 32 b)] } : State).entropy =
        .ok (List.replicate 32 b) :: [] ∧
      (List.replicate 32 b).length = 32 := by
  intro b _
  exact ⟨Sys2Proof.Machine.entropyAnswer_listed rfl rfl, rfl, rfl⟩

theorem test_witness_KsSeedeTakesKeyThenNonce :
    entropyAnswer 40 { State.reset with entropy := [.ok (List.replicate 40 7)] } = some (List.replicate 40 7) ∧
    ({ State.reset with entropy := [.ok (List.replicate 40 7)] } : State).entropy =
      .ok (List.replicate 40 7) :: [] ∧
    (List.replicate 40 (7 : Byte)).length = 40 :=
  ⟨Sys2Proof.Machine.entropyAnswer_listed rfl rfl, rfl, rfl⟩

theorem test_witness_EntropyFailureSeedsNothing :
    (Instr.wgSeede = .wgSeede ∧ (32 : Nat) = 32 ∨ Instr.wgSeede = .ksSeede ∧ (32 : Nat) = 40) ∧
    (Instr.ksSeede = .wgSeede ∧ (40 : Nat) = 32 ∨ Instr.ksSeede = .ksSeede ∧ (40 : Nat) = 40) ∧
    entropyAnswer 32 { State.reset with entropy := [.fail] } = none ∧
    entropyAnswer 40 { State.reset with entropy := [.fail] } = none ∧
    ({ State.reset with entropy := [.fail] } : State).entropy = .fail :: [] := by decide

/-- The last byte of the buffer; the last refill that is made; the refill that is refused. -/
theorem test_witness_KeystreamByteRefillsWhenExhausted :
    (ksReady 63 0).cur.toNat < 64 ∧
    ((ksReady 64 0xFFFFFFFFFFFFFFFE).cur.toNat = 64 ∧ (ksReady 64 0xFFFFFFFFFFFFFFFE).ctr.toNat < 2 ^ 64 - 1) ∧
    ((ksReady 64 0xFFFFFFFFFFFFFFFF).cur.toNat = 64 ∧ (ksReady 64 0xFFFFFFFFFFFFFFFF).ctr.toNat = 2 ^ 64 - 1) := by
  decide

/-- Exactly eight bytes left in all; a word over a block boundary. -/
theorem test_witness_KsNextDeliversTheNextWord :
    ((ksReady 56 ctrMax).ksValid = true ∧ (ksReady 56 ctrMax).cur.toNat ≤ 64 ∧
      8 ≤ bytesLeft config (ksReady 56 ctrMax)) ∧
    ((ksReady 61 0).ksValid = true ∧ (ksReady 61 0).cur.toNat ≤ 64 ∧ 8 ≤ bytesLeft config (ksReady 61 0)) := by
  decide

/-- Seven bytes left and none, for each of the commands. -/
theorem test_witness_SecureWordsEndWithTheCounter :
    ∀ used ∈ [57, 64],
      ((ksReady used ctrMax).setData 1 1).ksValid = true ∧ ((ksReady used ctrMax).setData 1 1).cur.toNat ≤ 64 ∧
      bytesLeft config ((ksReady used ctrMax).setData 1 1) < 8 ∧
      ((ksReady used ctrMax).setData 0 1).d.getD 0 0 ≠ 0 ∧
      (((ksReady used ctrMax).setData 1 1).d.getD 0 0).toInt <
        (((ksReady used ctrMax).setData 1 1).d.getD 1 0).toInt := by decide

/-- A keystream whose last bytes are zeros, and two operands. -/
def ksZeros (used : Nat) (d0 d1 : Word) : State :=
  { ksReady used ctrMax with buf := List.replicate 64 0, d := [d0, d1, 0, 0, 0, 0] }

/-- Every word that can still be drawn is rejected. -/
def AllRejected (n : Word) (s : State) : Prop :=
  ∀ k, 8 * (k + 1) ≤ bytesLeft config s → accepted n (comingWord config s k) = false

/-- With fewer than sixteen bytes left there is one word to look at, or none. -/
theorem allRejected_of {n : Word} {s : State}
    (h : bytesLeft config s < 8 ∨ bytesLeft config s < 16 ∧ accepted n (comingWord config s 0) = false) :
    AllRejected n s := by
  intro k hk
  rcases h with h | ⟨h1, h2⟩
  · omega
  · obtain rfl : k = 0 := by omega
    exact h2

/-- Fifteen and eight zero bytes left, whose one word each of the three loops rejects; and no byte left. -/
theorem test_witness_SecureWordsEndWithTheCounter_uBound :
    ∀ used ∈ [49, 56, 64],
      (ksZeros used 0x8000000000000001 0).ksValid = true ∧ (ksZeros used 0x8000000000000001 0).cur.toNat ≤ 64 ∧
      (ksZeros used 0x8000000000000001 0).d.getD 0 0 = 0x8000000000000001 ∧
      AllRejected 0x8000000000000001 (ksZeros used 0x8000000000000001 0) := by
  intro used hu
  refine ⟨rfl, ?_, ?_, allRejected_of ?_⟩ <;> fin_cases hu <;> decide +kernel

theorem test_witness_SecureWordsEndWithTheCounter_uRange :
    ∀ used ∈ [49, 56, 64],
      (ksZeros used 0 0x7FFFFFFFFFFFFFFF).ksValid = true ∧ (ksZeros used 0 0x7FFFFFFFFFFFFFFF).cur.toNat ≤ 64 ∧
      ((ksZeros used 0 0x7FFFFFFFFFFFFFFF).d.getD 0 0).toInt <
        ((ksZeros used 0 0x7FFFFFFFFFFFFFFF).d.getD 1 0).toInt ∧
      AllRejected 0x7FFFFFFFFFFFFFFF (ksZeros used 0 0x7FFFFFFFFFFFFFFF) := by
  intro used hu
  refine ⟨rfl, ?_, ?_, allRejected_of ?_⟩ <;> fin_cases hu <;> decide +kernel

theorem test_witness_SecureWordsEndWithTheCounter_uDigit :
    ∀ used ∈ [49, 56, 64],
      (ksZeros used 0 0).ksValid = true ∧ (ksZeros used 0 0).cur.toNat ≤ 64 ∧ AllRejected 10 (ksZeros used 0 0) := by
  intro used hu
  refine ⟨rfl, ?_, allRejected_of ?_⟩ <;> fin_cases hu <;> decide +kernel

/-- No byte, every byte left in the buffer, and one byte of the next block. -/
theorem test_witness_KsFillWritesTheNextBytes :
    ∀ n ∈ ([0, 64, 65] : List Word),
      ((ksReady 0 0).setData 0 n).ksValid = true ∧ ((ksReady 0 0).setData 0 n).cur.toNat ≤ 64 ∧
      (((ksReady 0 0).setData 0 n).d.getD 0 0).toNat ≤ bytesLeft config ((ksReady 0 0).setData 0 n) := by
  intro n hn
  fin_cases hn <;> decide

theorem test_witness_KsFillCutShortByTheCounter :
    ∀ n ∈ ([65, 0xFFFFFFFFFFFFFFFF] : List Word),
      ((ksReady 0 ctrMax).setData 0 n).ksValid = true ∧ ((ksReady 0 ctrMax).setData 0 n).cur.toNat ≤ 64 ∧
      bytesLeft config ((ksReady 0 ctrMax).setData 0 n) < (((ksReady 0 ctrMax).setData 0 n).d.getD 0 0).toNat := by
  intro n hn
  fin_cases hn <;> decide

/-- No byte, and the last byte there is, from the last counter value that makes a block. -/
theorem test_witness_KeystreamLaw :
    ∀ n ∈ [0, 64],
      exec .ksSeed (State.reset.setData 5 0xFFFFFFFFFFFFFFFE) =
        .next (after (exec .ksSeed (State.reset.setData 5 0xFFFFFFFFFFFFFFFE))) ∧
      n ≤ (2 ^ 64 - 1 - ((State.reset.setData 5 0xFFFFFFFFFFFFFFFE).d.getD 5 0).toNat) * 64 := by
  intro n hn
  refine ⟨rfl, ?_⟩
  revert n
  decide

theorem test_witness_FillOfEightBytesEqualsOneWord :
    ((ksReady 60 5).setData 0 8).ksValid = true ∧ ((ksReady 60 5).setData 0 8).cur.toNat ≤ 64 ∧
    8 ≤ bytesLeft config ((ksReady 60 5).setData 0 8) ∧ ((ksReady 60 5).setData 0 8).d.getD 0 0 = 8 := by decide

/-- A word that needs one refill. -/
theorem test_witness_BlockRequestsFollowTheCounter :
    Instr.ksNext ≠ .wgSeede ∧ reseedsKs .ksNext = false ∧
    ∃ t, exec .ksNext (ksReady 64 3) = .next t := ⟨by decide, by decide, _, rfl⟩

theorem test_witness_ThreshIsTwoPow64ModN : ∀ n ∈ ([1, 10, 0xFFFFFFFFFFFFFFFF] : List Word), n ≠ 0 := by
  intro n hn
  fin_cases hn <;> decide

theorem test_witness_AcceptedWordsAreUniform :
    (0 : Word).toNat < (1 : Word).toNat ∧ (0xFFFFFFFFFFFFFFFE : Word).toNat < (0xFFFFFFFFFFFFFFFF : Word).toNat := by
  decide

/-- From the Word Generator after two rejected words (V28). -/
theorem test_witness_UBoundDeliversTheFirstAcceptedWord :
    seeded .wg wgRejecting = true ∧ wgRejecting.cur.toNat ≤ 64 ∧ wgRejecting.d.getD 0 0 ≠ 0 ∧
    canDrawTo config .wg wgRejecting 2 ∧
    (∀ j, j < 2 → accepted (wgRejecting.d.getD 0 0) (comingDraw config .wg wgRejecting j) = false) ∧
    accepted (wgRejecting.d.getD 0 0) (comingDraw config .wg wgRejecting 2) = true :=
  ⟨by decide, by decide, by decide, trivial, by decide, by decide⟩

/-- From the last eight bytes of the keystream. -/
theorem test_witness_UBoundDeliversTheFirstAcceptedWord_ks :
    seeded .ks ((ksReady 56 ctrMax).setData 0 10) = true ∧ ((ksReady 56 ctrMax).setData 0 10).cur.toNat ≤ 64 ∧
    ((ksReady 56 ctrMax).setData 0 10).d.getD 0 0 ≠ 0 ∧
    canDrawTo config .ks ((ksReady 56 ctrMax).setData 0 10) 0 ∧
    (∀ j, j < 0 → accepted (((ksReady 56 ctrMax).setData 0 10).d.getD 0 0)
      (comingDraw config .ks ((ksReady 56 ctrMax).setData 0 10) j) = false) ∧
    accepted (((ksReady 56 ctrMax).setData 0 10).d.getD 0 0)
      (comingDraw config .ks ((ksReady 56 ctrMax).setData 0 10) 0) = true :=
  ⟨by decide, by decide, by decide,
    show 8 * (0 + 1) ≤ bytesLeft config ((ksReady 56 ctrMax).setData 0 10) by decide, by decide,
    by decide +kernel⟩

/-- Bound 10 and bound 2^64 - 1. -/
theorem test_witness_UBoundResultIsBelowTheBound :
    ∀ n ∈ ([10, 0xFFFFFFFFFFFFFFFF] : List Word), ∃ t,
      exec (.uBound .wg) (wg1234.setData 0 n) = .next t ∧ t.err = .ok := by
  have h : ∀ n ∈ ([10, 0xFFFFFFFFFFFFFFFF] : List Word),
      goesOn (exec (.uBound .wg) (wg1234.setData 0 n)) = true ∧
      (after (exec (.uBound .wg) (wg1234.setData 0 n))).err = .ok := by
    intro n hn
    fin_cases hn <;> decide +kernel
  intro n hn
  obtain ⟨h1, h2⟩ := h n hn
  cases hx : exec (.uBound .wg) (wg1234.setData 0 n) with
  | next t => rw [hx] at h2; exact ⟨t, rfl, h2⟩
  | fault r => rw [hx] at h1; cases h1
  | refused r => rw [hx] at h1; cases h1

theorem test_witness_UBoundOfOneTakesOneWord :
    (seeded .wg (wg1234.setData 0 1) = true ∧ (wg1234.setData 0 1).cur.toNat ≤ 64 ∧
      (wg1234.setData 0 1).d.getD 0 0 = 1 ∧ canDrawTo config .wg (wg1234.setData 0 1) 0) ∧
    (seeded .ks ((ksReady 56 ctrMax).setData 0 1) = true ∧ ((ksReady 56 ctrMax).setData 0 1).cur.toNat ≤ 64 ∧
      ((ksReady 56 ctrMax).setData 0 1).d.getD 0 0 = 1 ∧
      canDrawTo config .ks ((ksReady 56 ctrMax).setData 0 1) 0) ∧
    (seeded .ks ((ksReady 57 ctrMax).setData 0 1) = true ∧ ((ksReady 57 ctrMax).setData 0 1).cur.toNat ≤ 64 ∧
      ((ksReady 57 ctrMax).setData 0 1).d.getD 0 0 = 1 ∧
      bytesLeft config ((ksReady 57 ctrMax).setData 0 1) < 8) :=
  ⟨⟨by decide, by decide, by decide, trivial⟩, ⟨by decide, by decide, by decide,
    show 8 * (0 + 1) ≤ bytesLeft config ((ksReady 56 ctrMax).setData 0 1) by decide⟩, by decide⟩

/-- The range from -2^63 to 2^63 - 1. -/
def wideRange : State := { wg1234 with d := [0x8000000000000000, 0x7FFFFFFFFFFFFFFF, 0, 0, 0, 0] }

theorem test_witness_URangeAddsTheBoundedSpan :
    seeded .wg wideRange = true ∧ wideRange.cur.toNat ≤ 64 ∧
    (wideRange.d.getD 0 0).toInt < (wideRange.d.getD 1 0).toInt ∧ canDrawTo config .wg wideRange 0 ∧
    (∀ j, j < 0 →
      accepted (wideRange.d.getD 1 0 - wideRange.d.getD 0 0) (comingDraw config .wg wideRange j) = false) ∧
    accepted (wideRange.d.getD 1 0 - wideRange.d.getD 0 0) (comingDraw config .wg wideRange 0) = true :=
  ⟨by decide, by decide, by decide, trivial, by decide, by decide⟩

theorem test_witness_URangeResultIsInTheRange :
    ∃ t, exec (.uRange .wg) wideRange = .next t ∧ t.err = .ok := by
  have h1 : goesOn (exec (.uRange .wg) wideRange) = true := by decide +kernel
  have h2 : (after (exec (.uRange .wg) wideRange)).err = .ok := by decide +kernel
  cases hx : exec (.uRange .wg) wideRange with
  | next t => rw [hx] at h2; exact ⟨t, rfl, h2⟩
  | fault r => rw [hx] at h1; cases h1
  | refused r => rw [hx] at h1; cases h1

/-- Each clause; an empty range both with equal ends and with ends in the wrong order. -/
theorem test_witness_InvalidOperandsDrawNoWord :
    seeded .wg wg1234 = true ∧ wg1234.d.getD 0 0 = 0 ∧ (wg1234.d.getD 1 0).toInt ≤ (wg1234.d.getD 0 0).toInt ∧
    ((wg1234.setData 1 0xFFFFFFFFFFFFFFFF).d.getD 1 0).toInt ≤
      ((wg1234.setData 1 0xFFFFFFFFFFFFFFFF).d.getD 0 0).toInt := by decide

/-- For `UF64DeliversTheTop53Bits` and `UBoolDeliversTheTopBit`, from both sources. -/
theorem test_witness_oneDraw :
    (seeded .wg wg1234 = true ∧ wg1234.cur.toNat ≤ 64 ∧ canDrawTo config .wg wg1234 0) ∧
    (seeded .ks (ksReady 56 ctrMax) = true ∧ (ksReady 56 ctrMax).cur.toNat ≤ 64 ∧
      canDrawTo config .ks (ksReady 56 ctrMax) 0) :=
  ⟨⟨by decide, by decide, trivial⟩, by decide, by decide,
    show 8 * (0 + 1) ≤ bytesLeft config (ksReady 56 ctrMax) by decide⟩

theorem test_witness_F64BitsEncodeTheScaledWord :
    ∀ m ∈ ([1, 0x1FFFFFFFFFFFFF] : List Word), 1 ≤ m.toNat ∧ m.toNat < 2 ^ 53 := by
  intro n hn
  fin_cases hn <;> decide

theorem test_witness_UDigitDeliversADigit :
    seeded .wg wg1234 = true ∧ wg1234.cur.toNat ≤ 64 ∧ canDrawTo config .wg wg1234 0 ∧
    (∀ j, j < 0 → accepted 10 (comingDraw config .wg wg1234 j) = false) ∧
    accepted 10 (comingDraw config .wg wg1234 0) = true :=
  ⟨by decide, by decide, trivial, by decide, by decide⟩

/-- Both sides of the equivalences are met: by the zero state, which no run reaches seeded (R35), and, as not
met, by V1's start; the bound and the span are 10, as `U.DIGIT`'s bound is. -/
theorem test_witness_UBoundHangsOnlyWhenNoWordIsAccepted :
    (({ State.reset with wgValid := true, d := [10, 0, 0, 0, 0, 0] } : State).wgValid = true ∧
      ({ State.reset with wgValid := true, d := [10, 0, 0, 0, 0, 0] } : State).d.getD 0 0 ≠ 0 ∧
      (({ State.reset with wgValid := true, d := [0, 10, 0, 0, 0, 0] } : State).d.getD 0 0).toInt <
        (({ State.reset with wgValid := true, d := [0, 10, 0, 0, 0, 0] } : State).d.getD 1 0).toInt ∧
      ∀ k, accepted 10 (wgWord config State.reset.wg k) = false) ∧
    ((wg1234.setData 0 10).wgValid = true ∧ (wg1234.setData 0 10).d.getD 0 0 ≠ 0 ∧
      ((wg1234.setData 1 10).d.getD 0 0).toInt < ((wg1234.setData 1 10).d.getD 1 0).toInt ∧
      accepted 10 (wgWord config wg1234.wg 0) = true) := by
  refine ⟨⟨rfl, by decide, by decide, fun k => ?_⟩, by decide, by decide, by decide, by decide⟩
  have h : wgAfter config State.reset.wg k = Quad.zero := by
    induction k with
    | zero => rfl
    | succ k ih => rw [Sys2Proof.Machine.wgAfter_succ, ih]; decide
  rw [wgWord, h]
  decide

theorem test_witness_OnlyTheFastRejectionLoopCanHang :
    Instr.uBound .ks ≠ .uBound .wg ∧ Instr.uBound .ks ≠ .uRange .wg ∧ Instr.uBound .ks ≠ .uDigit .wg := by decide

/-- Each alphabet at its minimum length, with a byte left over in the buffer. -/
theorem test_witness_TxTextWritesTheText :
    ∀ alpha ∈ ([0, 1, 2, 3] : List (BitVec 4)), ∃ a,
      defaultAlphabets[alpha.toNat]? = some a ∧
      ((ksReady 5 0).setData 0 (BitVec.ofNat 64 (minLen a))).ksValid = true ∧
      ((ksReady 5 0).setData 0 (BitVec.ofNat 64 (minLen a))).cur.toNat ≤ 64 ∧
      minLen a ≤ (((ksReady 5 0).setData 0 (BitVec.ofNat 64 (minLen a))).d.getD 0 0).toNat ∧
      textBytes a (((ksReady 5 0).setData 0 (BitVec.ofNat 64 (minLen a))).d.getD 0 0).toNat ≤
        bytesLeft config ((ksReady 5 0).setData 0 (BitVec.ofNat 64 (minLen a))) := by
  intro alpha h
  fin_cases h
  · exact ⟨alphabetHexU, by decide⟩
  · exact ⟨alphabetHexL, by decide⟩
  · exact ⟨alphabetB32, by decide⟩
  · exact ⟨alphabetB64Url, by decide⟩

/-- No byte left, and one byte too few. -/
theorem test_witness_TxTextCutShortByTheCounter :
    ∀ used ∈ [48, 64],
      defaultAlphabets[(3 : BitVec 4).toNat]? = some alphabetB64Url ∧
      ((ksReady used ctrMax).setData 0 22).ksValid = true ∧
      ((ksReady used ctrMax).setData 0 22).cur.toNat ≤ 64 ∧
      minLen alphabetB64Url ≤ (((ksReady used ctrMax).setData 0 22).d.getD 0 0).toNat ∧
      bytesLeft config ((ksReady used ctrMax).setData 0 22) <
        textBytes alphabetB64Url (((ksReady used ctrMax).setData 0 22).d.getD 0 0).toNat := by decide

/-- Length 0, and for each alphabet the longest length that is refused. -/
theorem test_witness_ShortTextsAreRefused :
    ∀ p ∈ ([(0, 0), (0, 31), (1, 31), (2, 25), (3, 21)] : List (BitVec 4 × Word)),
      p.1.toNat < 4 ∧ ((ksReady 5 0).setData 0 p.2).ksValid = true ∧
      (((ksReady 5 0).setData 0 p.2).d.getD 0 0).toNat < [32, 32, 26, 22].getD p.1.toNat 0 := by
  intro n hn
  fin_cases hn <;> decide

theorem test_witness_TextsHaveTheirLengthAndAlphabet :
    defaultAlphabets[(2 : BitVec 4).toNat]? = some alphabetB32 ∧
    ∃ t, exec (.txText 2) ((ksReady 5 0).setData 0 26) = .next t ∧ t.err = .ok := by
  refine ⟨by decide, ?_⟩
  have h1 : goesOn (exec (.txText 2) ((ksReady 5 0).setData 0 26)) = true := by decide +kernel
  have h2 : (after (exec (.txText 2) ((ksReady 5 0).setData 0 26))).err = .ok := by decide +kernel
  cases hx : exec (.txText 2) ((ksReady 5 0).setData 0 26) with
  | next t => rw [hx] at h2; exact ⟨t, rfl, h2⟩
  | fault r => rw [hx] at h1; cases h1
  | refused r => rw [hx] at h1; cases h1

/-- The clauses on well-formed alphabets: each default alphabet at a length it allows, and an alphabet of two
characters, whose texts of 128 characters are equal from two states that differ elsewhere. -/
theorem test_witness_TextsHaveTheirLengthAndAlphabet_alphabets :
    (∀ a ∈ defaultAlphabets, a.WellFormed ∧ minLen a ≤ 32) ∧
    (⟨1, [0x2E#8, 0x23#8]⟩ : Alphabet).WellFormed ∧ minLen ⟨1, [0x2E#8, 0x23#8]⟩ ≤ 128 ∧
    (List.range 128).map (comingChar config ⟨1, [0x2E#8, 0x23#8]⟩ (ksReady 5 0)) =
      (List.range 128).map (comingChar config ⟨1, [0x2E#8, 0x23#8]⟩ ((ksReady 5 0).setData 0 9)) :=
  ⟨by decide, by decide, by decide, rfl⟩

theorem test_witness_UnseededGeneratorsDeliverNothing :
    ((Instr.txText 3).WellFormed config ∧ needs (.txText 3) = some .ks ∧ seeded .ks wg1234 = false) ∧
    ((Instr.uF64 .wg).WellFormed config ∧ needs (.uF64 .wg) = some .wg ∧ seeded .wg (ksReady 5 0) = false) ∧
    ∃ t, exec (.uF64 .wg) (ksReady 5 0) = .next t ∧ t.err = .notSeeded :=
  ⟨by decide, by decide, _, rfl, by decide⟩

/-- A fault before anything is changed, and a fault in the middle of a command. -/
theorem test_witness_FaultsArePrecise :
    (∃ t, exec (.uBound .wg) wg1234 = .next t ∧ t.err ≠ .ok ∧ t.err ≠ .counterExhausted) ∧
    (∃ t, exec .ksNext (ksReady 60 ctrMax) = .next t ∧ t.err ≠ .ok ∧ t.err = .counterExhausted ∧
      (ksReady 60 ctrMax).cur.toNat ≤ 64) :=
  ⟨⟨_, rfl, by decide, by decide⟩, _, rfl, by decide, by decide, by decide⟩

/-- For `RegistersNoCommandWrites` (with its last premise), `StickyBitsStayUntilCleared`
and `OutcntCountsTheBytesAppended`. -/
theorem test_witness_next :
    ∃ t, exec .wgNext wg1234 = .next t ∧ t.res ≠ wg1234.res ∧ Instr.wgNext ≠ .clrerr :=
  ⟨_, rfl, by decide, by decide⟩

/-- OUT grows. -/
theorem test_witness_OutcntCountsTheBytesAppended :
    ∃ t, exec .ksFill ((ksReady 60 0).setData 0 3) = .next t ∧ t.out = [60, 61, 62] := ⟨_, rfl, by decide⟩

theorem test_witness_FastPathIgnoresTheKeystream :
    ∀ i ∈ [Instr.wgSeede, .wgSeed, .wgDrop, .wgNext, .wgJump, .uBound .wg, .uRange .wg, .uF64 .wg, .uBool .wg,
           .uDigit .wg],
      i = .wgSeede ∨ i = .wgSeed ∨ i = .wgDrop ∨ needs i = some .wg := by decide

theorem test_witness_SecurePathIgnoresTheWordGenerator :
    ∀ i ∈ [Instr.ksSeede, .ksSeed, .ksDrop, .ksNext, .ksFill, .uBound .ks, .uRange .ks, .uF64 .ks, .uBool .ks,
           .uDigit .ks, .txText 0],
      i = .ksSeede ∨ i = .ksSeed ∨ i = .ksDrop ∨ needs i = some .ks := by decide

theorem test_witness_StepKeepsTheInvariant :
    Inv config (State.reset.withFetchWord 32 0x21) ∧
    ∃ t, step (State.reset.withFetchWord 32 0x21) = .next t := ⟨by decide, _, rfl⟩

/-- The clause for every configuration, of configuration T; that of the two statements beside it is met by
`test_configT_sizesFit` too. -/
theorem test_witness_StepKeepsTheInvariant_configured :
    configT.SizesFit ∧ Inv configT ((State.resetWith configT).withFetchWord 32 0x21) ∧
    ∃ t, stepWith configT ((State.resetWith configT).withFetchWord 32 0x21) = .next t :=
  ⟨by decide, by decide, _, rfl⟩

theorem test_witness_StepKeepsTheWordGeneratorNonzero_configured :
    configRound.WellFormed ∧ WgNonzero (wg1234.withFetchWord 32 0x13) ∧
    ∃ t, stepWith configRound (wg1234.withFetchWord 32 0x13) = .next t :=
  ⟨test_configRound_wellFormed, by decide, _, rfl⟩

theorem test_witness_StepKeepsTheWordGeneratorNonzero :
    WgNonzero (wg1234.withFetchWord 32 0x12) ∧ (wg1234.withFetchWord 32 0x12).wgValid = true ∧
    ∃ t, step (wg1234.withFetchWord 32 0x12) = .next t := ⟨by decide, by decide, _, rfl⟩

end Sys2Proof.Tests
end

section
/-! The two paths do not see each other (R3). A command that is written with the named operations commutes with
any write `g` of the state those operations neither read nor write; `g` is then a write of everything the other
path's generator holds. -/

namespace Sys2Proof.Machine

/-! ### Procedures and outcomes under a write of the state -/

/-- What the procedure came to, with `g` applied to the state it ended in. -/
def Attempt.onState {α : Type} (g : State → State) (x : Attempt α) : Attempt α :=
  match x with
  | .done a s => .done a (g s)
  | .raised why s => .raised why (g s)
  | .hung => .hung

/-- The outcome, with `g` applied to the next state. -/
def onNext (g : State → State) (o : Host.Outcome State Fault Refusal) : Host.Outcome State Fault Refusal :=
  match o with
  | .next t => .next (g t)
  | .fault r => .fault r
  | .refused r => .refused r

/-- The procedure neither reads nor writes what `g` writes. -/
def Oblivious {α : Type} (g : State → State) (p : State → Attempt α) : Prop :=
  ∀ s, p (g s) = (p s).onState g

theorem Oblivious.bind {α β : Type} {g : State → State} {p : State → Attempt α} {f : α → State → Attempt β}
    (hp : Oblivious g p) (hf : ∀ a, Oblivious g (f a)) : Oblivious g fun s => (p s).bind f := by
  intro s
  simp only [hp s]
  cases p s with
  | done a t => exact hf a t
  | raised why t => rfl
  | hung => rfl

theorem Oblivious.boundLoop {g : State → State} {c : Config} {src : Src} (hd : Oblivious g (draw c src))
    (n : Word) (fuel : Nat) : Oblivious g (boundLoop c src n fuel) := by
  induction fuel with
  | zero => exact fun s => rfl
  | succ k ih =>
    refine hd.bind fun x s => ?_
    split
    · rfl
    · exact ih s

theorem Oblivious.emit {g : State → State} {next : State → Attempt Byte} (hnext : Oblivious g next)
    (hout : ∀ b s, (g s).outWrite b = g (s.outWrite b)) (n : Nat) : Oblivious g (emit next n) := by
  induction n with
  | zero => exact fun s => rfl
  | succ k ih =>
    refine hnext.bind fun b s => ?_
    rw [hout]
    exact ih (s.outWrite b)

/-! ### The sampler, which draws from either source -/

/-- The source `src` delivers its words, and a command reads its operands and completes, without a look at or a
change of what `g` writes. -/
structure Spares (g : State → State) (c : Config) (src : Src) : Prop where
  draw : Oblivious g (draw c src)
  seeded : ∀ s, seeded src (g s) = seeded src s
  data : ∀ s i, (g s).data i = s.data i
  setRes : ∀ v s, (g s).setRes v = g (s.setRes v)
  complete : ∀ why cnt s, (g s).complete why cnt = g (s.complete why cnt)

/-- The sampler commands that draw from `src` (R94). -/
def SamplesFrom (src : Src) (i : Instr) : Prop :=
  i = .uBound src ∨ i = .uRange src ∨ i = .uF64 src ∨ i = .uBool src ∨ i = .uDigit src

section
variable {g : State → State} {c : Config} {src : Src}

theorem Spares.finishResult (h : Spares g c src) {p : State → Attempt Word} (hp : Oblivious g p) (s : State) :
    finishResult (p (g s)) = onNext g (finishResult (p s)) := by
  rw [hp s]
  cases p s with
  | done r t => exact congrArg Host.Outcome.next (by rw [h.setRes, h.complete])
  | raised why t => exact congrArg Host.Outcome.next (h.complete why 0 t)
  | hung => rfl

/-- A command that completes at once, with nothing drawn. -/
theorem Spares.stop (h : Spares g c src) (why : Completion) (s : State) :
    Host.Outcome.next ((g s).complete why 0) = onNext g (.next (s.complete why 0)) :=
  congrArg Host.Outcome.next (h.complete why 0 s)

theorem Spares.uBound (h : Spares g c src) (s : State) : uBound c src (g s) = onNext g (uBound c src s) := by
  unfold Machine.uBound
  rw [h.seeded, h.data]
  split_ifs
  · exact h.stop _ s
  · exact h.finishResult (h.draw.boundLoop _ _) s
  · exact h.stop _ s

theorem Spares.uRange (h : Spares g c src) (s : State) : uRange c src (g s) = onNext g (uRange c src s) := by
  unfold Machine.uRange
  rw [h.seeded, h.data, h.data]
  split_ifs
  · exact h.finishResult ((h.draw.boundLoop _ _).bind fun _ _ => rfl) s
  · exact h.stop _ s
  · exact h.stop _ s

theorem Spares.uF64 (h : Spares g c src) (s : State) : uF64 c src (g s) = onNext g (uF64 c src s) := by
  unfold Machine.uF64
  rw [h.seeded]
  split_ifs
  · exact h.finishResult (h.draw.bind fun _ _ => rfl) s
  · exact h.stop _ s

theorem Spares.uBool (h : Spares g c src) (s : State) : uBool c src (g s) = onNext g (uBool c src s) := by
  unfold Machine.uBool
  rw [h.seeded]
  split_ifs
  · exact h.finishResult (h.draw.bind fun _ _ => rfl) s
  · exact h.stop _ s

theorem Spares.uDigit (h : Spares g c src) (s : State) : uDigit c src (g s) = onNext g (uDigit c src s) := by
  unfold Machine.uDigit
  rw [h.seeded]
  split_ifs
  · exact h.finishResult ((h.draw.boundLoop _ _).bind fun _ _ => rfl) s
  · exact h.stop _ s

theorem Spares.sampler (h : Spares g c src) {i : Instr} (hi : SamplesFrom src i) (s : State) :
    execWith c i (g s) = onNext g (execWith c i s) := by
  rcases hi with rfl | rfl | rfl | rfl | rfl
  · exact h.uBound s
  · exact h.uRange s
  · exact h.uF64 s
  · exact h.uBool s
  · exact h.uDigit s

end

/-- The commands that need a generator seeded (R248): the generator's own, and the samplers that draw from it. -/
theorem needs_cases {i : Instr} {src : Src} (h : needs i = some src) :
    SamplesFrom src i ∨ (src = .wg ∧ (i = .wgNext ∨ i = .wgJump)) ∨
    (src = .ks ∧ (i = .ksNext ∨ i = .ksFill ∨ ∃ alpha, i = .txText alpha)) := by
  cases i with
  | nop | clrerr | wgSeede | wgSeed | wgDrop | ksSeede | ksSeed | ksDrop => cases h
  | wgNext => cases h; exact .inr (.inl ⟨rfl, .inl rfl⟩)
  | wgJump => cases h; exact .inr (.inl ⟨rfl, .inr rfl⟩)
  | ksNext => cases h; exact .inr (.inr ⟨rfl, .inl rfl⟩)
  | ksFill => cases h; exact .inr (.inr ⟨rfl, .inr (.inl rfl)⟩)
  | txText alpha => cases h; exact .inr (.inr ⟨rfl, .inr (.inr ⟨alpha, rfl⟩)⟩)
  | uBound | uRange | uF64 | uBool | uDigit => cases h; exact .inl (by simp [SamplesFrom])

/-! ### The fast path -/

/-- Everything the Keystream Generator holds is replaced. -/
def State.withKeystream (key nonce buf : List Byte) (ctr : Word) (cur : BitVec 16) (valid det : Bool) (s : State) :
    State :=
  { s with key := key, nonce := nonce, buf := buf, ctr := ctr, cur := cur, ksValid := valid, ksDet := det }

section
variable {key nonce buf : List Byte} {ctr : Word} {cur : BitVec 16} {valid det : Bool}

@[simp] theorem State.withKeystream_wgValid (s : State) :
    (s.withKeystream key nonce buf ctr cur valid det).wgValid = s.wgValid := rfl

@[simp] theorem State.withKeystream_wg (s : State) :
    (s.withKeystream key nonce buf ctr cur valid det).wg = s.wg := rfl

theorem State.withKeystream_setWg (q : Quad) (s : State) :
    (s.withKeystream key nonce buf ctr cur valid det).setWg q =
      (s.setWg q).withKeystream key nonce buf ctr cur valid det := rfl

@[simp] theorem entropyAnswer_withKeystream (n : Nat) (s : State) :
    entropyAnswer n (s.withKeystream key nonce buf ctr cur valid det) = entropyAnswer n s := rfl

theorem spares_withKeystream (c : Config) :
    Spares (State.withKeystream key nonce buf ctr cur valid det) c .wg where
  draw _ := rfl
  seeded _ := rfl
  data _ _ := rfl
  setRes _ _ := rfl
  complete _ _ _ := rfl

theorem wgSeede_withKeystream (c : Config) (s : State) :
    wgSeede c (s.withKeystream key nonce buf ctr cur valid det) =
      (wgSeede c s).withKeystream key nonce buf ctr cur valid det := by
  unfold wgSeede
  rw [entropyAnswer_withKeystream]
  cases entropyAnswer 32 s <;> rfl

theorem wgNext_withKeystream (c : Config) (s : State) :
    wgNext c (s.withKeystream key nonce buf ctr cur valid det) =
      (wgNext c s).withKeystream key nonce buf ctr cur valid det := by
  unfold wgNext
  rw [State.withKeystream_wgValid]
  split_ifs <;> rfl

theorem wgJump_withKeystream (c : Config) (s : State) :
    wgJump c (s.withKeystream key nonce buf ctr cur valid det) =
      (wgJump c s).withKeystream key nonce buf ctr cur valid det := by
  unfold wgJump
  rw [State.withKeystream_wgValid, State.withKeystream_wg]
  split_ifs
  · rw [State.withKeystream_setWg, (spares_withKeystream c).complete]
  · rfl

/-- R3, of every configuration. -/
theorem execWith_withKeystream (c : Config) {i : Instr}
    (hi : i = .wgSeede ∨ i = .wgSeed ∨ i = .wgDrop ∨ needs i = some .wg) (s : State) :
    execWith c i (s.withKeystream key nonce buf ctr cur valid det) =
      onNext (State.withKeystream key nonce buf ctr cur valid det) (execWith c i s) := by
  rcases hi with rfl | rfl | rfl | hn
  · exact congrArg Host.Outcome.next (wgSeede_withKeystream c s)
  · rfl
  · rfl
  · rcases needs_cases hn with hs | ⟨_, rfl | rfl⟩ | ⟨hks, _⟩
    · exact (spares_withKeystream c).sampler hs s
    · exact congrArg Host.Outcome.next (wgNext_withKeystream c s)
    · exact congrArg Host.Outcome.next (wgJump_withKeystream c s)
    · cases hks

end

/-- Settles O56: every operation a fast-path command is made of commutes with a write of the keystream's state. -/
theorem fastPathIgnoresTheKeystream : Obligations.FastPathIgnoresTheKeystream := by
  intro i s key nonce buf ctr cur valid det hi
  rw [exec_eq, exec_eq]
  exact execWith_withKeystream config hi s

/-! ### The secure path -/

/-- Everything the Word Generator holds is replaced. -/
def State.withWordGenerator (q : Quad) (valid det : Bool) (s : State) : State :=
  { s with wg := q, wgValid := valid, wgDet := det }

section
variable {q : Quad} {valid det : Bool}

@[simp] theorem State.withWordGenerator_ksValid (s : State) :
    (s.withWordGenerator q valid det).ksValid = s.ksValid := rfl

@[simp] theorem State.withWordGenerator_nb (s : State) : (s.withWordGenerator q valid det).nb = s.nb := rfl

@[simp] theorem State.withWordGenerator_data (i : Nat) (s : State) :
    (s.withWordGenerator q valid det).data i = s.data i := rfl

@[simp] theorem entropyAnswer_withWordGenerator (n : Nat) (s : State) :
    entropyAnswer n (s.withWordGenerator q valid det) = entropyAnswer n s := rfl

theorem ksByte_oblivious (c : Config) : Oblivious (State.withWordGenerator q valid det) (ksByte c) := by
  intro s
  rcases ksByte_cases c s with ⟨hcur, hr⟩ | ⟨hcur, hm, hr⟩ | ⟨hcur, hm, hr⟩ <;> rw [hr]
  · exact ksByte_ready hcur
  · exact ksByte_exhausted hcur hm
  · exact ksByte_refill hcur hm

theorem ksBytes_oblivious (c : Config) (n : Nat) : Oblivious (State.withWordGenerator q valid det) (ksBytes c n) := by
  induction n with
  | zero => exact fun s => rfl
  | succ k ih => exact (ksByte_oblivious c).bind fun _ => ih.bind fun _ _ => rfl

theorem ksWord_oblivious (c : Config) : Oblivious (State.withWordGenerator q valid det) (ksWord c) :=
  (ksBytes_oblivious c 8).bind fun _ _ => rfl

theorem topUp_oblivious (c : Config) (a : Alphabet) : Oblivious (State.withWordGenerator q valid det) (topUp c a) := by
  intro s
  unfold topUp
  rw [State.withWordGenerator_nb]
  split_ifs
  · exact (ksByte_oblivious c).bind
      (f := fun b s1 => .done () (s1.setAcc ((s1.acc <<< 8) ||| b.setWidth 15) (s1.nb + 8))) (fun _ _ => rfl) s
  · rfl

theorem nextChar_oblivious (c : Config) (a : Alphabet) :
    Oblivious (State.withWordGenerator q valid det) (nextChar c a) :=
  (topUp_oblivious c a).bind fun _ _ => rfl

theorem discardBits_onState (x : Attempt Unit) :
    discardBits (x.onState (State.withWordGenerator q valid det)) =
      (discardBits x).onState (State.withWordGenerator q valid det) := by
  cases x <;> rfl

/-- The whole loop of `TX.TEXT` (R215), from the accumulator it clears to the leftover bits it discards. -/
theorem textLoop_oblivious (c : Config) (a : Alphabet) (n : Nat) :
    Oblivious (State.withWordGenerator q valid det)
      fun s => discardBits (emit (nextChar c a) n (s.setAcc 0 0)) := by
  intro s
  have hloop : Oblivious (State.withWordGenerator q valid det) (emit (nextChar c a) n) :=
    (nextChar_oblivious c a).emit (fun _ _ => rfl) n
  exact (congrArg discardBits (hloop (s.setAcc 0 0))).trans (discardBits_onState _)

/-- The start of a command that writes OUT is looked at only for the length of OUT (R29). -/
theorem finishOut_withWordGenerator {p : State → Attempt Unit}
    (hp : Oblivious (State.withWordGenerator q valid det) p) (s : State) :
    finishOut (s.withWordGenerator q valid det) (p (s.withWordGenerator q valid det)) =
      onNext (State.withWordGenerator q valid det) (finishOut s (p s)) := by
  rw [hp s]
  cases p s <;> rfl

theorem spares_withWordGenerator (c : Config) : Spares (State.withWordGenerator q valid det) c .ks where
  draw := ksWord_oblivious c
  seeded _ := rfl
  data _ _ := rfl
  setRes _ _ := rfl
  complete _ _ _ := rfl

theorem ksSeede_withWordGenerator (c : Config) (s : State) :
    ksSeede c (s.withWordGenerator q valid det) = (ksSeede c s).withWordGenerator q valid det := by
  unfold ksSeede
  rw [entropyAnswer_withWordGenerator]
  cases entropyAnswer (c.keyLen + c.nonceLen) s <;> rfl

theorem ksNext_withWordGenerator (c : Config) (s : State) :
    ksNext c (s.withWordGenerator q valid det) =
      onNext (State.withWordGenerator q valid det) (ksNext c s) := by
  unfold ksNext
  rw [State.withWordGenerator_ksValid]
  split_ifs
  · exact (spares_withWordGenerator c).finishResult (ksWord_oblivious c) s
  · rfl

theorem ksFill_withWordGenerator (c : Config) (s : State) :
    ksFill c (s.withWordGenerator q valid det) =
      onNext (State.withWordGenerator q valid det) (ksFill c s) := by
  unfold ksFill
  rw [State.withWordGenerator_ksValid]
  split_ifs
  · exact finishOut_withWordGenerator ((ksByte_oblivious c).emit (fun _ _ => rfl) (s.data 0).toNat) s
  · rfl

theorem txText_withWordGenerator (c : Config) (alpha : BitVec 4) (s : State) :
    txText c alpha (s.withWordGenerator q valid det) =
      onNext (State.withWordGenerator q valid det) (txText c alpha s) := by
  unfold txText
  cases alphabetOf c alpha with
  | none => rfl
  | some a =>
    rw [State.withWordGenerator_ksValid, State.withWordGenerator_data]
    dsimp only
    split_ifs
    · rfl
    · exact finishOut_withWordGenerator (textLoop_oblivious c a (s.data 0).toNat) s
    · rfl

/-- R3, of every configuration. -/
theorem execWith_withWordGenerator (c : Config) {i : Instr}
    (hi : i = .ksSeede ∨ i = .ksSeed ∨ i = .ksDrop ∨ needs i = some .ks) (s : State) :
    execWith c i (s.withWordGenerator q valid det) =
      onNext (State.withWordGenerator q valid det) (execWith c i s) := by
  rcases hi with rfl | rfl | rfl | hn
  · exact congrArg Host.Outcome.next (ksSeede_withWordGenerator c s)
  · rfl
  · rfl
  · rcases needs_cases hn with hs | ⟨hwg, _⟩ | ⟨_, rfl | rfl | ⟨alpha, rfl⟩⟩
    · exact (spares_withWordGenerator c).sampler hs s
    · cases hwg
    · exact ksNext_withWordGenerator c s
    · exact ksFill_withWordGenerator c s
    · exact txText_withWordGenerator c alpha s

end

/-- Settles O57: every operation a secure-path command is made of commutes with a write of the Word Generator's
state. -/
theorem securePathIgnoresTheWordGenerator : Obligations.SecurePathIgnoresTheWordGenerator := by
  intro i s q valid det hi
  rw [exec_eq, exec_eq]
  exact execWith_withWordGenerator config hi s

end Sys2Proof.Machine
end

section
/-! The default configuration is well formed (R123, R129, R130): its state map is a linear permutation, and its
`JUMP_POLY` makes a jump 2^128 words long. The proof makes R130's own computation: the characteristic polynomial of the
state map is zero on every state, so polynomials can be reduced by it, and 128 squarings of `x`, each reduced, give
`JUMP_POLY`. -/

namespace Sys2Proof.Machine

/-! ### The state map -/

theorem rotateLeft_xor (a b : Word) (k : Nat) :
    (a ^^^ b).rotateLeft k = a.rotateLeft k ^^^ b.rotateLeft k := by
  apply BitVec.eq_of_getElem_eq
  intro j hj
  simp only [BitVec.getElem_rotateLeft, BitVec.getElem_xor]
  split <;> rfl

theorem rotateLeft_rotateRight (a : Word) (k : Nat) (hk : k < 64) : (a.rotateRight k).rotateLeft k = a := by
  apply BitVec.eq_of_getElem_eq
  intro j hj
  simp only [BitVec.getElem_rotateLeft, BitVec.getElem_rotateRight, Nat.mod_eq_of_lt hk]
  by_cases hjk : j < k
  · have hge : ¬ 64 - k + j < 64 - k := by omega
    simp [hjk, hge]
  · have hlt : j - k < 64 - k := by omega
    simp [hjk, hlt, Nat.add_sub_cancel' (Nat.le_of_not_lt hjk)]

theorem wgSucc_config (w0 w1 w2 w3 : Word) :
    wgSucc config ⟨w0, w1, w2, w3⟩ =
      ⟨w0 ^^^ w3 ^^^ w1, w1 ^^^ w2 ^^^ w0, w2 ^^^ w0 ^^^ (w1 <<< 17), (w3 ^^^ w1).rotateLeft 45⟩ := rfl

theorem Quad.xor_mk (a0 a1 a2 a3 b0 b1 b2 b3 : Word) :
    Quad.xor ⟨a0, a1, a2, a3⟩ ⟨b0, b1, b2, b3⟩ = ⟨a0 ^^^ b0, a1 ^^^ b1, a2 ^^^ b2, a3 ^^^ b3⟩ := rfl

theorem word_xor_xor_xor_comm (a b c d : Word) : a ^^^ b ^^^ (c ^^^ d) = a ^^^ c ^^^ (b ^^^ d) := by
  ac_rfl

/-- Property 3 of R123. -/
theorem config_wgLinear : WgLinear config := by
  rintro ⟨p0, p1, p2, p3⟩ ⟨q0, q1, q2, q3⟩
  simp only [Quad.xor_mk, wgSucc_config, BitVec.shiftLeft_xor_distrib, rotateLeft_xor,
    word_xor_xor_xor_comm _ q0, word_xor_xor_xor_comm _ q1, word_xor_xor_xor_comm _ q2, word_xor_xor_xor_comm _ q3,
    word_xor_xor_xor_comm (_ ^^^ _)]

theorem xorShift_inverse (w : Word) :
    (w ^^^ w <<< 17 ^^^ w <<< 34 ^^^ w <<< 51) ^^^ (w ^^^ w <<< 17 ^^^ w <<< 34 ^^^ w <<< 51) <<< 17 = w := by
  simp only [BitVec.shiftLeft_xor_distrib, ← BitVec.shiftLeft_add]
  simp [BitVec.xor_assoc]

/-! ### Linear invariant sets of states -/

theorem lowBits_succ (w : Word) (k : Nat) :
    (w.setWidth (k + 1)).setWidth 64 = (w.setWidth k).setWidth 64 ^^^ if w.getLsbD k then 1#64 <<< k else 0 := by
  apply BitVec.eq_of_getLsbD_eq
  intro j hj
  have hbit : (if w.getLsbD k then 1#64 <<< k else 0).getLsbD j = (w.getLsbD k && decide (j = k)) := by
    cases w.getLsbD k with
    | false => simp
    | true => simp [← BitVec.twoPow_eq, hj, eq_comm]
  rw [BitVec.getLsbD_xor, hbit]
  rcases Nat.lt_trichotomy j k with h | rfl | h
  · simp [BitVec.getLsbD_setWidth, h, h.ne, Nat.lt_succ_of_lt h]
  · simp [hj]
  · simp [BitVec.getLsbD_setWidth, h.ne', Nat.not_lt.mpr h.le, Nat.not_lt.mpr (Nat.succ_le_of_lt h)]

/-- The words are spanned by the 64 words of one bit. -/
theorem word_of_bits {P : Word → Prop} (hzero : P 0) (hxor : ∀ a b, P a → P b → P (a ^^^ b))
    (hbit : ∀ k < 64, P (1#64 <<< k)) (w : Word) : P w := by
  have low : ∀ k ≤ 64, P ((w.setWidth k).setWidth 64) := by
    intro k hk
    induction k with
    | zero => simpa [BitVec.of_length_zero] using hzero
    | succ k ih =>
      have hlow := ih (by omega)
      rw [lowBits_succ]
      split
      · exact hxor _ _ hlow (hbit k (by omega))
      · exact hxor _ _ hlow hzero
  simpa using low 64 le_rfl

/-- A set of states that is closed under sums and under the state map is everything once it has the states that are
zero outside `S[0]`: the state map carries them to the other three words. -/
theorem quad_of_firstWord {P : Quad → Prop} (hxor : ∀ p q, P p → P q → P (p.xor q))
    (hsucc : ∀ q, P q → P (wgSucc config q)) (hfirst : ∀ w : Word, P ⟨w, 0, 0, 0⟩) (q : Quad) : P q := by
  have middle : ∀ w : Word, P ⟨0, w, w, 0⟩ := fun w => by
    simpa [wgSucc_config, Quad.xor_mk] using hxor _ _ (hsucc _ (hfirst w)) (hfirst w)
  have upper : ∀ w : Word, P ⟨0, 0, w ^^^ w <<< 17, w.rotateLeft 45⟩ := fun w => by
    simpa [wgSucc_config, Quad.xor_mk] using hxor _ _ (hsucc _ (middle w)) (hfirst w)
  have lastRotated : ∀ w : Word, P ⟨0, 0, 0, (w.rotateLeft 45).rotateLeft 45⟩ := fun w => by
    simpa [wgSucc_config, Quad.xor_mk] using
      hxor _ _ (hxor _ _ (hsucc _ (upper w)) (hfirst (w.rotateLeft 45))) (middle (w ^^^ w <<< 17))
  have last : ∀ w : Word, P ⟨0, 0, 0, w⟩ := fun w => by
    simpa [rotateLeft_rotateRight] using lastRotated ((w.rotateRight 45).rotateRight 45)
  have thirdShifted : ∀ w : Word, P ⟨0, 0, w ^^^ w <<< 17, 0⟩ := fun w => by
    simpa [Quad.xor_mk] using hxor _ _ (upper w) (last (w.rotateLeft 45))
  have third : ∀ w : Word, P ⟨0, 0, w, 0⟩ := fun w => by
    simpa only [xorShift_inverse] using thirdShifted (w ^^^ w <<< 17 ^^^ w <<< 34 ^^^ w <<< 51)
  obtain ⟨w0, w1, w2, w3⟩ := q
  have h := hxor _ _ (hxor _ _ (hxor _ _ (hfirst w0) (middle w1)) (third (w1 ^^^ w2))) (last w3)
  simpa [Quad.xor_mk] using h

/-! ### The polynomial that is zero on every state -/

/-- The characteristic polynomial of the default state map: bit `k` is the coefficient of `x^k`. -/
def charPoly : Nat := 0x10003c03c3f3ecb1904b4edcf26259f850280002bcefd1a5e9d116f2bb0f0f001

/-- The coefficients of `x^0` to `x^(n-1)`, in the order of R129's loop. -/
def coefficients (p n : Nat) : List Bool := (List.range n).map p.testBit

/-- The loop of R129 computes the action of a polynomial. -/
theorem jumpLoop_coefficients (c : Config) (p n : Nat) (q : Quad) :
    jumpLoop c (coefficients p n) Quad.zero q = polyAct c p.testBit n q := by
  rw [jumpLoop_eq, Quad.zero_xor, coefficients, List.length_map, List.length_range]
  exact polyAct_congr q fun k hk => by simp [List.getD, hk]

/-- `charPoly` is zero on the states of one bit in `S[0]`: the kernel runs R129's loop on the 64 of them. -/
theorem jumpLoop_charPoly_oneBit : ∀ k < 64,
    jumpLoop config (coefficients charPoly 257) Quad.zero ⟨1#64 <<< k, 0, 0, 0⟩ = Quad.zero := by
  decide +kernel

/-- `charPoly` is zero on every state. The states on which it is zero are closed under sums and under the state map,
so the 64 of one bit in `S[0]` are enough. -/
theorem polyAct_charPoly (q : Quad) : polyAct config charPoly.testBit 257 q = Quad.zero := by
  have hxor : ∀ p q, polyAct config charPoly.testBit 257 p = Quad.zero →
      polyAct config charPoly.testBit 257 q = Quad.zero →
      polyAct config charPoly.testBit 257 (p.xor q) = Quad.zero := by
    intro p q hp hq
    rw [polyAct_state_xor config_wgLinear, hp, hq, Quad.xor_self]
  refine quad_of_firstWord hxor (fun q hq => ?_) (word_of_bits ?_ (fun a b ha hb => ?_) fun k hk => ?_) q
  · exact (polyAct_wgAfter config_wgLinear _ _ 1 q).trans (by rw [hq, wgAfter_zero config_wgLinear])
  · exact polyAct_zero_state config_wgLinear _ _
  · simpa [Quad.xor_mk] using hxor _ _ ha hb
  · rw [← jumpLoop_coefficients]
    exact jumpLoop_charPoly_oneBit k hk

theorem Quad.eq_of_xor_eq_zero {p q : Quad} (h : p.xor q = Quad.zero) : p = q := by
  rw [← Quad.xor_zero p, ← h, ← Quad.xor_assoc, Quad.xor_self, Quad.zero_xor]

/-- The inverse of the state map: `charPoly`, whose lowest coefficient is 1, without that coefficient, over `x`. -/
def wgPred (q : Quad) : Quad := polyAct config (fun k => charPoly.testBit (k + 1)) 256 q

theorem wgPred_wgSucc (q : Quad) : wgPred (wgSucc config q) = q := by
  have h := polyAct_charPoly q
  rw [polyAct_succ_left, if_pos (by decide : charPoly.testBit 0 = true), ← wgPred] at h
  exact (Quad.eq_of_xor_eq_zero h).symm

theorem wgSucc_wgPred (q : Quad) : wgSucc config (wgPred q) = q :=
  (polyAct_wgAfter config_wgLinear _ _ 1 q).symm.trans (wgPred_wgSucc q)

/-- Property 2 of R123. -/
theorem config_wgBijective : Function.Bijective (wgSucc config) :=
  Function.bijective_iff_has_inverse.mpr ⟨wgPred, wgPred_wgSucc, wgSucc_wgPred⟩

/-! ### Polynomials reduced by it -/

/-- The action of the polynomial `p` on a state; its coefficients from `x^256` on are left out. -/
def applyPoly (p : Nat) (q : Quad) : Quad := polyAct config p.testBit 256 q

theorem polyAct_testBit_xor (c : Config) (p r n : Nat) (q : Quad) :
    polyAct c (p ^^^ r).testBit n q = (polyAct c p.testBit n q).xor (polyAct c r.testBit n q) :=
  (polyAct_congr q fun k _ => Nat.testBit_xor p r k).trans (polyAct_poly_xor c p.testBit r.testBit n q)

theorem applyPoly_zero (q : Quad) : applyPoly 0 q = Quad.zero :=
  polyAct_extend (n := 0) q 256 fun k _ _ => Nat.zero_testBit k

theorem applyPoly_one (q : Quad) : applyPoly 1 q = q := by
  have h : applyPoly 1 q = polyAct config (Nat.testBit 1) 1 q :=
    polyAct_extend q 255 fun k hk _ => Nat.testBit_lt_two_pow (Nat.one_lt_two_pow (by omega))
  simpa [polyAct, wgAfter] using h

/-- Nothing is left out of a polynomial of degree below 256. -/
theorem applyPoly_eq {p : Nat} (h : p.testBit 256 = false) (q : Quad) :
    applyPoly p q = polyAct config p.testBit 257 q := by
  refine (polyAct_extend (n := 256) q 1 fun k hk hk' => ?_).symm
  obtain rfl : k = 256 := by omega
  exact h

/-- `x * p`, of degree at most 256. -/
theorem polyAct_shiftLeft_one (p : Nat) (q : Quad) :
    polyAct config (p <<< 1).testBit 257 q = wgSucc config (applyPoly p q) :=
  calc polyAct config (p <<< 1).testBit 257 q
      = polyAct config (fun k => decide (1 ≤ k) && p.testBit (k - 1)) (256 + 1) q :=
        polyAct_congr q fun _ _ => Nat.testBit_shiftLeft p
    _ = applyPoly p (wgAfter config q 1) := polyAct_shift config p.testBit 256 1 q
    _ = wgSucc config (applyPoly p q) := polyAct_wgAfter config_wgLinear _ _ 1 q

/-- `x * p`, reduced by `charPoly`. -/
def mulX (p : Nat) : Nat := if p.testBit 255 then (p <<< 1) ^^^ charPoly else p <<< 1

theorem applyPoly_mulX (p : Nat) (q : Quad) : applyPoly (mulX p) q = wgSucc config (applyPoly p q) := by
  have htop : (p <<< 1).testBit 256 = p.testBit 255 := by simp
  have hchar : charPoly.testBit 256 = true := by decide
  rw [← polyAct_shiftLeft_one]
  unfold mulX
  split
  · rename_i h
    rw [applyPoly_eq (by rw [Nat.testBit_xor, htop, h, hchar]; rfl), polyAct_testBit_xor, polyAct_charPoly,
      Quad.xor_zero]
  · rename_i h
    exact applyPoly_eq (htop.trans (Bool.eq_false_of_not_eq_true h)) q

/-- The loop of R129 on polynomials in place of states: `acc` plus the product of `p` and the polynomial with the
coefficients `bits`, reduced. -/
def mulLoop (bits : List Bool) (acc p : Nat) : Nat :=
  match bits with
  | [] => acc
  | b :: bs => mulLoop bs (if b then acc ^^^ p else acc) (mulX p)

theorem applyPoly_mulLoop (bits : List Bool) (q : Quad) : ∀ acc p,
    applyPoly (mulLoop bits acc p) q = jumpLoop config bits (applyPoly acc q) (applyPoly p q) := by
  induction bits with
  | nil => exact fun _ _ => rfl
  | cons b bs ih =>
    intro acc p
    rw [mulLoop, ih, applyPoly_mulX, jumpLoop]
    cases b with
    | false => rfl
    | true => rw [if_pos rfl, if_pos rfl, applyPoly, polyAct_testBit_xor]; rfl

/-- The square of a polynomial, reduced. -/
def squarePoly (p : Nat) : Nat := mulLoop (coefficients p 256) 0 p

theorem applyPoly_squarePoly (p : Nat) (q : Quad) : applyPoly (squarePoly p) q = applyPoly p (applyPoly p q) := by
  rw [squarePoly, applyPoly_mulLoop, applyPoly_zero, jumpLoop_coefficients, ← applyPoly]

/-- The polynomial 2 is `x`. -/
theorem applyPoly_two (q : Quad) : applyPoly 2 q = wgSucc config q := by
  rw [show 2 = mulX 1 by decide, applyPoly_mulX, applyPoly_one]

theorem applyPoly_squares (k : Nat) (q : Quad) : applyPoly (squarePoly^[k] 2) q = wgAfter config q (2 ^ k) := by
  induction k generalizing q with
  | zero => exact applyPoly_two q
  | succ k ih => rw [Function.iterate_succ_apply', applyPoly_squarePoly, ih, ih, wgAfter_add, pow_succ, Nat.mul_two]

/-! ### The default configuration -/

/-- R130: `JUMP_POLY` is `x^(2^128)`, reduced by `charPoly`. The kernel makes the 128 squarings. -/
theorem squares_eq_jumpPoly : squarePoly^[128] 2 = Quad.toNat config.jumpPoly := by
  decide +kernel

/-- The loop of `WG.JUMP` takes the four words of `JUMP_POLY` as one polynomial. -/
theorem polyBits_jumpPoly : polyBits config.jumpPoly = coefficients (Quad.toNat config.jumpPoly) 256 := by
  decide +kernel

/-- R129: a jump is 2^128 steps. -/
theorem jumpState_config (q : Quad) : jumpState config q = (wgSucc config)^[jumpDist] q := by
  rw [jumpState, polyBits_jumpPoly, jumpLoop_coefficients, ← applyPoly, ← squares_eq_jumpPoly, applyPoly_squares,
    wgAfter_eq_iterate, jumpDist]

/-- The default configuration is that of a YRCORE (R123, R130). -/
theorem wellFormed_config : config.WellFormed := config_wellFormed config_wgBijective config_wgLinear jumpState_config

end Sys2Proof.Machine
end

section
/-! What every step keeps: the invariants of a run, and the registers no command writes. A step is taken apart once,
in `KeptBySteps`, and a command once for each kind of state, along the constructors of `Performed`. -/

namespace Sys2Proof.Machine

variable {c : Config} {i : Instr} {s t u : State} {why : Completion} {text : List Byte}

/-! ### `STATUS` -/

section
variable (c : Config) (s : State)

theorem statusWord_flags :
    (statusWord c s).getLsbD 0 = s.wgValid ∧ (statusWord c s).getLsbD 1 = s.wgDet ∧
    (statusWord c s).getLsbD 2 = s.ksValid ∧ (statusWord c s).getLsbD 3 = s.ksDet ∧
    (statusWord c s).getLsbD 4 = ksReadyBit c s := by
  simp only [statusWord, BitVec.getLsbD_append, BitVec.getLsbD_ofBool]
  exact ⟨rfl, rfl, rfl, rfl, rfl⟩

theorem statusWord_err : (statusWord c s).extractLsb' 8 8 = s.err.code := by
  simp (disch := omega) only [statusWord, BitVec.extractLsb'_append_eq_of_le, BitVec.extractLsb'_append_eq_of_add_le]
  exact BitVec.extractLsb'_eq_self

theorem statusWord_serr : (statusWord c s).extractLsb' 17 7 = s.serr := by
  simp (disch := omega) only [statusWord, BitVec.extractLsb'_append_eq_of_le, BitVec.extractLsb'_append_eq_of_add_le]
  exact BitVec.extractLsb'_eq_self

theorem statusWord_reserved :
    (statusWord c s).extractLsb' 5 3 = 0 ∧ (statusWord c s).getLsbD 16 = false ∧
    (statusWord c s).extractLsb' 24 40 = 0 := by
  simp (disch := omega) only [statusWord, BitVec.extractLsb'_append_eq_of_le, BitVec.extractLsb'_append_eq_of_add_le,
    BitVec.getLsbD_append]
  exact ⟨rfl, rfl, rfl⟩

end

/-- Settles O7: each field by its own rule, and the codes one by one. -/
theorem statusHoldsItsFields : Obligations.StatusHoldsItsFields := by
  intro s
  obtain ⟨hwgValid, hwgDet, hksValid, hksDet, hready⟩ := statusWord_flags config s
  obtain ⟨hlow, hbit16, hhigh⟩ := statusWord_reserved config s
  refine ⟨hwgValid, hwgDet, hksValid, hksDet, hready, hlow, ?_, hbit16, statusWord_serr config s, hhigh⟩
  rw [statusWord_err]
  cases s.err <;> rfl

/-! ### Registers -/

/-- The two states agree in the registers and in the host's side of the port. -/
structure SameRegisters (s t : State) : Prop where
  d : t.d = s.d
  cmd : t.cmd = s.cmd
  res : t.res = s.res
  serr : t.serr = s.serr
  inputs : t.inputs = s.inputs
  readData : t.readData = s.readData

theorem SameRegisters.hostSide (h : SameRegisters s t) :
    t.d = s.d ∧ t.cmd = s.cmd ∧ t.inputs = s.inputs ∧ t.readData = s.readData :=
  ⟨h.d, h.cmd, h.inputs, h.readData⟩

theorem KsMoved.sameRegisters (h : KsMoved c s t) : SameRegisters s t := by
  obtain ⟨_, _, _, rfl, _⟩ := h
  exact ⟨rfl, rfl, rfl, rfl, rfl, rfl⟩

theorem Drawn.sameRegisters {src : Src} (h : Drawn c src s t) : SameRegisters s t := by
  cases src with
  | wg =>
    obtain ⟨_, rfl⟩ := h
    exact ⟨rfl, rfl, rfl, rfl, rfl, rfl⟩
  | ks => exact KsMoved.sameRegisters h

theorem TextMoved.sameRegisters {keep : Prop} (h : TextMoved c keep text s t) : SameRegisters s t := by
  obtain ⟨_, _, _, ⟨_, _, _, rfl, _⟩, rfl, _⟩ := h
  exact ⟨rfl, rfl, rfl, rfl, rfl, rfl⟩

theorem Drawn.out {src : Src} (h : Drawn c src s t) : t.out = s.out := by
  cases src with
  | wg =>
    obtain ⟨_, rfl⟩ := h
    rfl
  | ks => exact KsMoved.out h

/-- No command writes a data register, the read-back value of `CMD` or the host's side of the port (R22, R26). -/
theorem Performed.hostSide (h : Performed c i s why text u) :
    u.d = s.d ∧ u.cmd = s.cmd ∧ u.inputs = s.inputs ∧ u.readData = s.readData := by
  cases h with
  | delivered _ _ _ _ _ _ hu => exact hu.sameRegisters.hostSide
  | spent _ _ _ _ _ hu => exact hu.sameRegisters.hostSide
  | filled _ _ _ _ _ _ _ hu => exact hu.sameRegisters.hostSide
  | texted _ _ _ _ _ _ _ _ _ hu => exact hu.sameRegisters.hostSide
  | _ => exact ⟨rfl, rfl, rfl, rfl⟩

/-- `RES` is written only with a delivered word (R24). -/
theorem Performed.res (h : Performed c i s why text u) : u.res = s.res ∨ (why = .ok ∧ Delivers i) := by
  cases h with
  | delivered hi => exact .inr ⟨rfl, hi⟩
  | spent _ _ _ _ _ hu => exact .inl hu.sameRegisters.res
  | filled _ _ _ _ _ _ _ hu => exact .inl hu.sameRegisters.res
  | texted _ _ _ _ _ _ _ _ _ hu => exact .inl hu.sameRegisters.res
  | _ => exact .inl rfl

/-- Before its completion a command writes the sticky mask only if it is `CLRERR` (R231). -/
theorem Performed.serr (h : Performed c i s why text u) : i = .clrerr ∨ u.serr = s.serr := by
  cases h with
  | clrerr hi => exact .inl hi
  | delivered _ _ _ _ _ _ hu => exact .inr hu.sameRegisters.serr
  | spent _ _ _ _ _ hu => exact .inr hu.sameRegisters.serr
  | filled _ _ _ _ _ _ _ hu => exact .inr hu.sameRegisters.serr
  | texted _ _ _ _ _ _ _ _ _ hu => exact .inr hu.sameRegisters.serr
  | _ => exact .inr rfl

/-- OUT grows by the command's bytes, and only two commands have any (R29). -/
theorem Performed.out (h : Performed c i s why text u) :
    u.out = s.out ++ text ∧ (text ≠ [] → i = .ksFill ∨ ∃ alpha, i = .txText alpha) := by
  have silent : ∀ {t : State}, t.out = s.out →
      t.out = s.out ++ [] ∧ (([] : List Byte) ≠ [] → i = .ksFill ∨ ∃ alpha, i = .txText alpha) :=
    fun h => ⟨h.trans (List.append_nil _).symm, fun h => absurd rfl h⟩
  cases h with
  | delivered _ _ _ _ _ _ hu => exact silent hu.out
  | spent _ _ _ _ _ hu => exact silent hu.out
  | filled hi _ _ _ _ _ _ hu => exact ⟨hu.out_eq, fun _ => .inl hi⟩
  | texted alpha hi _ _ _ _ _ _ _ hu => exact ⟨hu.out_eq, fun _ => .inr ⟨alpha, hi⟩⟩
  | _ => exact silent rfl

/-- Settles O53: the state a command brings about has the host's side as it was, and `RES` too unless the command
delivered a word. -/
theorem registersNoCommandWrites : Obligations.RegistersNoCommandWrites := by
  intro i s t h
  obtain ⟨why, text, u, hp, rfl⟩ := exec_performed h
  obtain ⟨hd, hcmd, hinputs, hread⟩ := hp.hostSide
  exact ⟨hd, hcmd, hinputs, hread, fun hne => hp.res.resolve_left hne⟩

/-- Settles O54: only the completion writes the sticky mask, and it adds the bit of its code. -/
theorem stickyBitsStayUntilCleared : Obligations.StickyBitsStayUntilCleared := by
  intro i s t hi h
  obtain ⟨why, text, u, hp, rfl⟩ := exec_performed h
  rw [State.complete_serr, State.complete_err, hp.serr.resolve_left hi]

/-- Settles O55: the completion counts the bytes the command wrote. -/
theorem outcntCountsTheBytesAppended : Obligations.OutcntCountsTheBytesAppended := by
  intro i s t h
  obtain ⟨why, text, u, hp, rfl⟩ := exec_performed h
  obtain ⟨hout, hwho⟩ := hp.out
  exact ⟨text, hout, rfl, hwho⟩

/-! ### After reset -/

theorem inv_resetWith (c : Config) : Inv c (State.resetWith c) :=
  ⟨⟨List.length_replicate, List.length_replicate, List.length_replicate, List.length_replicate, Nat.mod_le _ _⟩,
    ⟨fun _ => ⟨rfl, rfl⟩, fun _ => ⟨rfl, rfl, rfl, rfl, rfl, rfl⟩⟩, rfl, rfl⟩

theorem wgNonzero_resetWith (c : Config) : WgNonzero (State.resetWith c) := nofun

/-- Settles O58: every size is the configuration's own, and no generator is seeded. -/
theorem resetMeetsTheInvariant : Obligations.ResetMeetsTheInvariant :=
  ⟨⟨inv_resetWith config, wgNonzero_resetWith config⟩, fun c _ => ⟨inv_resetWith c, wgNonzero_resetWith c⟩⟩

/-- Settles O9: the table is one state, and it is evaluated. -/
theorem resetStateFollowsTheTable : Obligations.ResetStateFollowsTheTable := by
  unfold Obligations.ResetStateFollowsTheTable
  decide

/-! ### Predicates that every step keeps -/

/-- `P` is kept by everything a step is made of: the port's own writes, a command's completion and what it brings
about before that, and the reset input establishes it. -/
structure KeptBySteps (c : Config) (P : State → Prop) : Prop where
  setInputs : ∀ {s : State} rest, P s → P (s.setInputs rest)
  deliver : ∀ {s : State} v, P s → P (s.deliver v)
  setData : ∀ {s : State} k v, P s → P (s.setData k v)
  latchCommand : ∀ {s : State} v, P s → P (s.latchCommand v)
  complete : ∀ {s : State} why cnt, P s → P (s.complete why cnt)
  resetInput : ∀ s : State, P (s.resetInput c)
  performed : ∀ {i s why text u}, P s → Performed c i s why text u → P u

theorem KeptBySteps.hostWrite {P : State → Prop} (hP : KeptBySteps c P) (hs : P s) (idx : BitVec 8) (v : Word) :
    P (hostWrite c idx v s) := by
  unfold Machine.hostWrite
  split
  · exact hP.setData _ v hs
  · exact hs

theorem KeptBySteps.execWith {P : State → Prop} (hP : KeptBySteps c P) (hc : c.SizesFit) (hs : P s)
    (h : execWith c i s = .next t) : P t := by
  obtain ⟨why, text, u, hp, rfl⟩ := execWith_performed hc h
  exact hP.complete why _ (hP.performed hs hp)

theorem KeptBySteps.stepWith {P : State → Prop} (hP : KeptBySteps c P) (hc : c.SizesFit) (hs : P s)
    (h : stepWith c s = .next t) : P t := by
  rcases stepWith_next_cases h with ⟨_, rfl⟩ | ⟨idx, rest, _, rfl⟩ | ⟨idx, v, rest, _, _, rfl⟩ |
    ⟨rest, _, rfl⟩ | ⟨v, rest, _, ⟨_, _, rfl⟩ | ⟨i, _, hx⟩⟩
  · exact hs
  · exact hP.deliver _ (hP.setInputs rest hs)
  · exact hP.hostWrite (hP.setInputs rest hs) idx v
  · exact hP.resetInput _
  · exact hP.complete _ _ (hP.latchCommand v (hP.setInputs rest hs))
  · exact hP.execWith hc (hP.latchCommand v (hP.setInputs rest hs)) hx

/-! ### Sizes, zeros and the accumulator -/

section
variable (h : Inv c s)
include h

theorem Inv.seedWg (q : Quad) (det : Bool) : Inv c (s.seedWg q det) := by
  obtain ⟨hsizes, ⟨_, hks⟩, hidle⟩ := h
  exact ⟨hsizes, ⟨nofun, hks⟩, hidle⟩

theorem Inv.setWg (hv : s.wgValid = true) (q : Quad) : Inv c (s.setWg q) := by
  obtain ⟨hsizes, ⟨_, hks⟩, hidle⟩ := h
  exact ⟨hsizes, ⟨fun hv' => absurd (hv.symm.trans hv') (by decide), hks⟩, hidle⟩

theorem Inv.dropWg : Inv c s.dropWg := by
  obtain ⟨hsizes, ⟨_, hks⟩, hidle⟩ := h
  exact ⟨hsizes, ⟨fun _ => ⟨rfl, rfl⟩, hks⟩, hidle⟩

theorem Inv.seedKs {key nonce : List Byte} (hkey : key.length = c.keyLen) (hnonce : nonce.length = c.nonceLen)
    (ctr : Word) (det : Bool) : Inv c (s.seedKs c key nonce ctr det) := by
  obtain ⟨⟨hd, _, _, hbuf, _⟩, ⟨hwg, _⟩, hidle⟩ := h
  exact ⟨⟨hd, hkey, hnonce, hbuf, Nat.mod_le _ _⟩, ⟨hwg, nofun⟩, hidle⟩

theorem Inv.dropKs : Inv c (s.dropKs c) := by
  obtain ⟨⟨hd, _⟩, ⟨hwg, _⟩, hidle⟩ := h
  exact ⟨⟨hd, List.length_replicate, List.length_replicate, List.length_replicate, Nat.mod_le _ _⟩,
    ⟨hwg, fun _ => ⟨rfl, rfl, rfl, rfl, rfl, rfl⟩⟩, hidle⟩

theorem Inv.setData (k : Nat) (v : Word) : Inv c (s.setData k v) := by
  obtain ⟨⟨hd, hsizes⟩, hrest⟩ := h
  exact ⟨⟨List.length_set.trans hd, hsizes⟩, hrest⟩

theorem Inv.ksMoved (hv : s.ksValid = true) (hm : KsMoved c s t) : Inv c t := by
  obtain ⟨⟨hd, hkey, hnonce, hbuf, hcur⟩, ⟨hwg, _⟩, hidle⟩ := h
  obtain ⟨_, _, _, rfl, _, hcur', hbuf'⟩ := hm
  exact ⟨⟨hd, hkey, hnonce, hbuf' hbuf, hcur' hcur⟩,
    ⟨hwg, fun hv' => absurd (hv.symm.trans hv') (by decide)⟩, hidle⟩

theorem Inv.drawn {src : Src} (hv : seeded src s = true) (hm : Drawn c src s t) : Inv c t := by
  cases src with
  | wg =>
    obtain ⟨_, rfl⟩ := hm
    exact h.setWg hv _
  | ks => exact h.ksMoved hv hm

theorem Inv.textMoved {keep : Prop} (hv : s.ksValid = true) (hm : TextMoved c keep text s t) (hidle : TextIdle t) :
    Inv c t := by
  obtain ⟨_, _, _, hks, rfl, _⟩ := hm
  obtain ⟨hsizes, hzero, _⟩ := h.ksMoved hv hks
  exact ⟨hsizes, hzero, hidle⟩

end

theorem keyPart_length {m : List Byte} (h : m.length = c.keyLen + c.nonceLen) :
    (keyPart c m).length = c.keyLen := by
  simp [keyPart, h]

theorem noncePart_length {m : List Byte} (h : m.length = c.keyLen + c.nonceLen) :
    (noncePart c m).length = c.nonceLen := by
  simp [noncePart, h]

theorem keyNonceOperand_length (c : Config) (s : State) :
    (keyNonceOperand c s).length = c.keyLen + c.nonceLen := by
  simp [keyNonceOperand, bytesLE]

theorem TextMoved.textIdle (h : TextMoved c True text s t) (hs : TextIdle s) : TextIdle t := by
  obtain ⟨_, _, _, _, rfl, hkeep⟩ := h
  obtain ⟨hacc, hnb⟩ := hkeep trivial
  exact ⟨hacc.trans hs.1, hnb.trans hs.2⟩

theorem Performed.inv (h : Inv c s) (hp : Performed c i s why text u) : Inv c u := by
  cases hp with
  | wgSeede | wgSeed => exact Inv.seedWg h _ _
  | wgJump _ hv => exact h.setWg hv _
  | wgDrop => exact h.dropWg
  | ksSeede _ e he =>
    have hlen := entropyAnswer_length he
    exact Inv.seedKs h (keyPart_length hlen) (noncePart_length hlen) _ _
  | ksSeed =>
    have hlen := keyNonceOperand_length c s
    exact h.seedKs (keyPart_length hlen) (noncePart_length hlen) _ _
  | ksDrop => exact h.dropKs
  | delivered _ _ _ hv _ _ hu => exact (h.drawn hv hu :)
  | spent _ _ hv _ _ hu => exact h.ksMoved hv hu
  | filled _ hv _ _ _ _ _ hu =>
    have ⟨_, _, hidle⟩ := h
    exact h.textMoved hv hu (hu.textIdle hidle)
  | texted _ _ hv _ _ _ _ _ hidle hu => exact h.textMoved hv hu hidle
  | _ => exact h

theorem inv_keptBySteps (c : Config) : KeptBySteps c (Inv c) where
  setInputs _ h := h
  deliver _ h := h
  setData k v h := h.setData k v
  latchCommand _ h := h
  complete _ _ h := h
  resetInput _ := inv_resetWith c
  performed h hp := hp.inv h

/-- Settles O59: the invariant is kept by everything a step is made of. -/
theorem stepKeepsTheInvariant : Obligations.StepKeepsTheInvariant := by
  have keep : ∀ c : Config, c.SizesFit → ∀ s t : State, Inv c s → stepWith c s = .next t → Inv c t :=
    fun c hc _ _ hs h => (inv_keptBySteps c).stepWith hc hs h
  exact ⟨fun s t hs h => keep config config_sizesFit s t hs (step_eq s ▸ h), keep⟩

/-! ### The Word Generator is not zero -/

/-- `ZeroGuard` (R128) never answers the zero state. -/
theorem zeroGuard_ne_zero (hc : c.SizesFit) (q : Quad) : zeroGuard c q ≠ Quad.zero := by
  obtain ⟨_, _, _, _, _, _, hmix⟩ := hc
  unfold zeroGuard
  split
  · exact hmix
  · rename_i hq
    rintro rfl
    exact hq (by decide)

/-- The state map, linear and injective, leads no state but zero to zero. -/
theorem wgAfter_ne_zero (hc : c.StepFits) {q : Quad} (hq : q ≠ Quad.zero) (k : Nat) : wgAfter c q k ≠ Quad.zero := by
  obtain ⟨hbij, hlin, _⟩ := hc
  intro h
  rw [← wgAfter_zero hlin k, wgAfter_eq_iterate, wgAfter_eq_iterate] at h
  exact hq (hbij.injective.iterate k h)

theorem KsMoved.wgNonzero (h : WgNonzero s) (hm : KsMoved c s t) : WgNonzero t := by
  obtain ⟨_, _, _, rfl, _⟩ := hm
  exact h

theorem Drawn.wgNonzero {src : Src} (hc : c.StepFits) (hv : seeded src s = true) (h : WgNonzero s)
    (hm : Drawn c src s t) : WgNonzero t := by
  cases src with
  | wg =>
    obtain ⟨k, rfl⟩ := hm
    exact fun _ => wgAfter_ne_zero hc (h hv) k
  | ks => exact KsMoved.wgNonzero h hm

theorem TextMoved.wgNonzero {keep : Prop} (h : WgNonzero s) (hm : TextMoved c keep text s t) : WgNonzero t := by
  obtain ⟨_, _, _, hks, rfl, _⟩ := hm
  exact (hks.wgNonzero h :)

theorem Performed.wgNonzero (hc : c.WellFormed) (h : WgNonzero s) (hp : Performed c i s why text u) :
    WgNonzero u := by
  obtain ⟨hsizes, hstep⟩ := hc
  cases hp with
  | wgSeede | wgSeed => exact fun _ => zeroGuard_ne_zero hsizes _
  | wgJump _ hv q hq =>
    have hjump := jumpState_ne_zero hstep (h hv)
    rw [hq] at hjump
    exact fun _ => hjump
  | wgDrop => exact nofun
  | delivered _ _ _ hv _ _ hu => exact (hu.wgNonzero hstep hv h :)
  | spent _ _ _ _ _ hu => exact hu.wgNonzero h
  | filled _ _ _ _ _ _ _ hu => exact hu.wgNonzero h
  | texted _ _ _ _ _ _ _ _ _ hu => exact hu.wgNonzero h
  | _ => exact h

theorem wgNonzero_keptBySteps (hc : c.WellFormed) : KeptBySteps c WgNonzero where
  setInputs _ h := h
  deliver _ h := h
  setData _ _ h := h
  latchCommand _ h := h
  complete _ _ h := h
  resetInput _ := wgNonzero_resetWith c
  performed h hp := hp.wgNonzero hc h

/-- Settles O60: seeding passes the zero guard, and a draw or a jump is an injective linear map. The default
configuration is a case of it, because it is well formed. -/
theorem stepKeepsTheWordGeneratorNonzero : Obligations.StepKeepsTheWordGeneratorNonzero := by
  have keep : ∀ c : Config, c.WellFormed → ∀ s t : State, WgNonzero s → stepWith c s = .next t → WgNonzero t :=
    fun c hc _ _ hs h => (wgNonzero_keptBySteps hc).stepWith hc.1 hs h
  exact ⟨fun s t hs h => keep config wellFormed_config s t hs (step_eq s ▸ h), keep⟩

end Sys2Proof.Machine
end

section
/-! The host's view of the block (20_memory.md R60 to R62, R71): what a step makes of a host access, and that the
keystream is the same whether the host takes it by bytes or by words. The laws of a step and of a command are stated
for every configuration. -/

namespace Sys2Proof.Machine

variable {c : Config} {s : State} {rest : List HostAccess}

/-! ### A step whose next input is a host access -/

/-- R62, R26: the value is latched, and then the command is performed. -/
theorem stepWith_command {v : Word} {i : Instr} (h : s.inputs = .write 0 v :: rest) (hv : decodeWith c v = .ok i) :
    stepWith c s = execWith c i ((s.setInputs rest).latchCommand v) := by
  simp [stepWith, stepBy, serve, h, hv]

/-- R60, R61. -/
theorem stepWith_read {idx : BitVec 8} (h : s.inputs = .read idx :: rest) :
    stepWith c s = .next ((s.setInputs rest).deliver (hostRead c idx s)) := by
  simp [stepWith, stepBy, serve, h]

/-- R61, of any index but that of `CMD`. -/
theorem stepWith_write {idx : BitVec 8} {v : Word} (h : s.inputs = .write idx v :: rest) (hidx : idx ≠ 0) :
    stepWith c s = .next (hostWrite c idx v (s.setInputs rest)) := by
  simp only [stepWith, stepBy, serve, h]
  rw [if_neg hidx]

/-- Settles O4: `stepWith_command` holds of every configuration, and `step` and `exec` are the default one's. -/
theorem commandWriteRunsTheDecodedCommand : Obligations.CommandWriteRunsTheDecodedCommand := by
  refine ⟨fun s v rest i h hv => ?_, fun c s v rest i h hv => stepWith_command h hv, exec_eq⟩
  rw [step_eq, exec_eq]
  exact stepWith_command h hv

/-! ### The register map -/

/-- The six data registers of the default configuration (R22). -/
theorem ndata_config : ndata config = 6 := by decide

/-- The default parameters as the host reads them (R31). -/
theorem paramsWord_config : paramsWord config = 0x0106040080200040#64 := by decide

/-- Settles O6: the step delivers `hostRead`, whose map is compared register by register, the data registers as one
row of it. -/
theorem hostReadDeliversTheRegister : Obligations.HostReadDeliversTheRegister := by
  intro s idx rest h
  rw [step_eq, stepWith_read h]
  refine congrArg (fun v => Host.Outcome.next ((s.setInputs rest).deliver v)) ?_
  unfold hostRead
  split
  -- `PARAMS`
  case h_7 hidx =>
    rw [hidx]
    exact paramsWord_config
  -- `D[i]`, or past the last of them
  case h_9 i hidx =>
    rw [hidx, ndata_config]
    by_cases hi : i < 6
    · simp [hi, State.data]
    · simp [hi, Nat.not_lt.mp hi]
  all_goals
    rename_i hidx
    rw [hidx]
    rfl

/-- Settles O8: at the default configuration the data registers are those of index 8 to 13. -/
theorem hostWriteSetsDataRegistersOnly : Obligations.HostWriteSetsDataRegistersOnly := by
  intro s idx v rest h hidx
  rw [step_eq, stepWith_write h hidx, hostWrite, ndata_config]
  split_ifs <;> rfl

/-! ### The keystream by bytes and by words -/

theorem comingWord_zero (c : Config) (s : State) : comingWord c s 0 = le64 (comingBytes c s 8) := by
  simp [comingWord, comingBytes]

@[simp] theorem comingBytes_length (c : Config) (s : State) (n : Nat) : (comingBytes c s n).length = n := by
  simp [comingBytes]

/-- R156: the next word, when its eight bytes are there. -/
theorem execWith_ksNext_done (hc : c.SizesFit) (hv : s.ksValid = true) (hcur : s.cur.toNat ≤ c.blockLen)
    (hn : 8 ≤ bytesLeft c s) :
    execWith c .ksNext s = .next (((afterBytes c s 8).setRes (comingWord c s 0)).complete .ok 0) := by
  obtain ⟨hL, hL', _⟩ := hc
  have hword : ksWord c s = .done (comingWord c s 0) (afterBytes c s 8) :=
    draw_done (src := .ks) hL hL' hcur hn
  change ksNext c s = _
  rw [ksNext, if_pos hv, hword]
  rfl

/-- R158: the next `D[0]` bytes, when they are there. -/
theorem execWith_ksFill_done (hc : c.SizesFit) (hv : s.ksValid = true) (hcur : s.cur.toNat ≤ c.blockLen)
    (hn : (s.data 0).toNat ≤ bytesLeft c s) :
    execWith c .ksFill s =
      .next (((afterBytes c s (s.data 0).toNat).withOut (s.out ++ comingBytes c s (s.data 0).toNat)).complete .ok
        (s.data 0).toNat) := by
  obtain ⟨hL, hL', _⟩ := hc
  change ksFill c s = _
  rw [ksFill, if_pos hv, emit_ksByte_done hL hL' hcur hn]
  simp [finishOut, emitted]

/-- Settles O31: both commands end in the state after the same eight bytes, which one appends to OUT and the other
assembles. -/
theorem fillOfEightBytesEqualsOneWord : Obligations.FillOfEightBytesEqualsOneWord := by
  intro s hv hcur hleft hd
  have hlen : (s.data 0).toNat = 8 := congrArg BitVec.toNat hd
  have hfill := execWith_ksFill_done config_sizesFit hv hcur (by rw [hlen]; exact hleft)
  rw [hlen] at hfill
  refine ⟨_, _, (exec_eq _ s).trans hfill, (exec_eq _ s).trans (execWith_ksNext_done config_sizesFit hv hcur hleft),
    ?_, rfl, rfl, rfl, rfl⟩
  simp [comingWord_zero]

end Sys2Proof.Machine
end

section
/-! The decoder and the encoder of command words (30_encoding.md R90 to R101): a word whose reserved fields are 0 is the
packing of its `ALPHA`, `SRC` and `OP`, and the packing of what the decoder reads as a command is its encoding. The laws
of the decoder are stated for every configuration. -/

namespace Sys2Proof

variable {c : Config} {v : Word} {i : Instr} {op : BitVec 8} {src : Src} {alpha : BitVec 4} {b : BitVec 1}

/-! ### The fields of a word -/

@[simp] theorem fieldUpper_packCommand : fieldUpper (packCommand alpha b op) = 0 := by
  simp (disch := omega) only [fieldUpper, packCommand, BitVec.extractLsb'_append_eq_of_le]
  rfl

@[simp] theorem fieldRsv2_packCommand : fieldRsv2 (packCommand alpha b op) = 0 := by
  simp (disch := omega) only [fieldRsv2, packCommand, BitVec.extractLsb'_append_eq_of_le]
  rfl

@[simp] theorem fieldRsv1_packCommand : fieldRsv1 (packCommand alpha b op) = 0 := by
  simp (disch := omega) only [fieldRsv1, packCommand, BitVec.extractLsb'_append_eq_of_add_le,
    BitVec.extractLsb'_append_eq_of_le]
  rfl

@[simp] theorem fieldAlpha_packCommand : fieldAlpha (packCommand alpha b op) = alpha := by
  simp (disch := omega) only [fieldAlpha, packCommand, BitVec.extractLsb'_append_eq_of_add_le,
    BitVec.extractLsb'_append_eq_of_le]
  exact BitVec.extractLsb'_eq_self

@[simp] theorem fieldOp_packCommand : fieldOp (packCommand alpha b op) = op := by
  simp (disch := omega) only [fieldOp, packCommand, BitVec.extractLsb'_append_eq_of_add_le]
  exact BitVec.extractLsb'_eq_self

theorem srcBit_fieldSrc (v : Word) : srcBit (fieldSrc v) = v.extractLsb' 8 1 := by
  have hbit : srcBit (fieldSrc v) = BitVec.ofBool (v.getLsbD 8) := by
    unfold fieldSrc
    cases v.getLsbD 8 <;> rfl
  rw [hbit]
  ext k hk
  obtain rfl : k = 0 := by omega
  simp

/-- R94: the two sources have different bits. -/
theorem srcBit_injective : Function.Injective srcBit := by
  intro src src' h
  cases src <;> cases src' <;> trivial

@[simp] theorem fieldSrc_packCommand : fieldSrc (packCommand alpha (srcBit src) op) = src := by
  apply srcBit_injective
  rw [srcBit_fieldSrc]
  simp (disch := omega) only [packCommand, BitVec.extractLsb'_append_eq_of_add_le, BitVec.extractLsb'_append_eq_of_le]
  exact BitVec.extractLsb'_eq_self

@[simp] theorem srcBit_wg : srcBit .wg = 0#1 := rfl

@[simp] theorem fieldSrc_packCommand_zero : fieldSrc (packCommand alpha 0#1 op) = .wg :=
  fieldSrc_packCommand (src := .wg)

/-- R90: the fields cover the 64 bits. -/
theorem packCommand_fields (hupper : fieldUpper v = 0) (hrsv2 : fieldRsv2 v = 0) (hrsv1 : fieldRsv1 v = 0) :
    packCommand (fieldAlpha v) (srcBit (fieldSrc v)) (fieldOp v) = v := by
  have hhigh : (0 : BitVec 48) = v.extractLsb' 16 48 :=
    calc (0 : BitVec 48) = fieldUpper v ++ fieldRsv2 v := by rw [hupper, hrsv2]; rfl
      _ = v.extractLsb' 16 48 := BitVec.extractLsb'_append_extractLsb'_eq_extractLsb' rfl
  rw [packCommand, hhigh, ← hrsv1, srcBit_fieldSrc, fieldAlpha, fieldRsv1, fieldOp]
  iterate 4 rw [BitVec.extractLsb'_append_extractLsb'_eq_extractLsb' (by rfl)]
  exact BitVec.extractLsb'_eq_self

/-- R94. -/
theorem getLsbD_src_iff : v.getLsbD 8 = true ↔ fieldSrc v ≠ .wg := by
  cases h : v.getLsbD 8 <;> simp [fieldSrc, h, -BitVec.getLsbD_eq_getElem]

/-! ### Operation codes -/

/-- R97. -/
theorem commandOf_eq_none_iff : commandOf op src alpha = none ↔ op.toNat ∉
    [0x00, 0x01, 0x10, 0x11, 0x12, 0x13, 0x14, 0x20, 0x21, 0x22, 0x23, 0x24, 0x30, 0x31, 0x32, 0x33, 0x34, 0x40] := by
  unfold commandOf
  split <;> simp_all

/-- R96, test 4. -/
theorem opUsesSrc_eq_false_iff : opUsesSrc op = false ↔ ¬ (0x30 ≤ op.toNat ∧ op.toNat ≤ 0x34) := by
  simp [opUsesSrc]

/-- R96, test 5. -/
theorem opUsesAlpha_eq_false_iff : opUsesAlpha op = false ↔ op.toNat ≠ 0x40 := by
  simp [opUsesAlpha]

/-- R96, test 6. -/
theorem opUsesAlpha_eq_true_iff : opUsesAlpha op = true ↔ op.toNat = 0x40 := by
  simp [opUsesAlpha]

/-- R92: a command is encoded by its fields, when those it does not use are 0. -/
theorem encode_of_commandOf (h : commandOf op src alpha = some i) (hsrc : opUsesSrc op = false → src = .wg)
    (halpha : opUsesAlpha op = false → alpha = 0) : encode i = packCommand alpha (srcBit src) op := by
  have hlit : op = BitVec.ofNat 8 op.toNat := by simp
  unfold commandOf at h
  split at h
  case h_19 => cases h
  all_goals
    rename_i hop
    cases h
    rw [hop] at hlit
    subst hlit
    simp [encode, hsrc, halpha, opUsesSrc, opUsesAlpha]

/-! ### The six tests -/

/-- A test of the decoder is a guard: what is decoded has passed it. -/
theorem ite_error_eq_ok_iff {p : Prop} [Decidable p] {e : DecodeError} {x : Except DecodeError Instr} :
    (if p then .error e else x) = .ok i ↔ ¬ p ∧ x = .ok i := by
  split_ifs with hp <;> simp [hp]

/-- What is refused has failed this test or a later one. -/
theorem exists_ite_error_eq_error_iff {p : Prop} [Decidable p] {e : DecodeError} {x : Except DecodeError Instr} :
    (∃ e', (if p then .error e else x) = .error e') ↔ p ∨ ∃ e', x = .error e' := by
  split_ifs with hp <;> simp [hp]

/-- R96: a decoded value passes the six tests. -/
theorem decodeWith_eq_ok_iff : decodeWith c v = .ok i ↔
    fieldUpper v = 0 ∧ (fieldRsv2 v = 0 ∧ fieldRsv1 v = 0) ∧
    commandOf (fieldOp v) (fieldSrc v) (fieldAlpha v) = some i ∧
    (opUsesSrc (fieldOp v) = false → fieldSrc v = .wg) ∧ (opUsesAlpha (fieldOp v) = false → fieldAlpha v = 0) ∧
    (opUsesAlpha (fieldOp v) = true → (fieldAlpha v).toNat < Machine.nalpha c) := by
  simp only [decodeWith, getLsbD_src_iff, ite_error_eq_ok_iff, ne_eq, not_or, not_not]
  cases commandOf (fieldOp v) (fieldSrc v) (fieldAlpha v) with
  | none => simp
  | some j =>
    simp only [ite_error_eq_ok_iff, not_and, not_not, not_le, Except.ok.injEq, Option.some.injEq]
    tauto

/-- R96: a refused value fails one of the six tests. -/
theorem decodeWith_refuses_iff : (∃ e, decodeWith c v = .error e) ↔
    fieldUpper v ≠ 0 ∨ (fieldRsv2 v ≠ 0 ∨ fieldRsv1 v ≠ 0) ∨
    commandOf (fieldOp v) (fieldSrc v) (fieldAlpha v) = none ∨
    (opUsesSrc (fieldOp v) = false ∧ v.getLsbD 8 = true) ∨ (opUsesAlpha (fieldOp v) = false ∧ fieldAlpha v ≠ 0) ∨
    (opUsesAlpha (fieldOp v) = true ∧ Machine.nalpha c ≤ (fieldAlpha v).toNat) := by
  simp only [decodeWith, exists_ite_error_eq_error_iff]
  cases commandOf (fieldOp v) (fieldSrc v) (fieldAlpha v) with
  | none => simp
  | some i => simp only [exists_ite_error_eq_error_iff, reduceCtorEq, exists_false, false_or, or_false]

/-! ### The round trip -/

/-- The encoding of a command passes the six tests; only test 6 asks for an alphabet of the table. -/
theorem decodeWith_encode (h : i.WellFormed c) : decodeWith c (encode i) = .ok i := by
  rw [decodeWith_eq_ok_iff]
  cases i
  case txText => simpa [encode, commandOf, opUsesSrc, opUsesAlpha] using h
  all_goals simp [encode, commandOf, opUsesSrc, opUsesAlpha]

theorem eq_encode_of_decodeWith (h : decodeWith c v = .ok i) : v = encode i := by
  obtain ⟨hupper, ⟨hrsv2, hrsv1⟩, hi, hsrc, halpha, -⟩ := decodeWith_eq_ok_iff.mp h
  rw [encode_of_commandOf hi hsrc halpha, packCommand_fields hupper hrsv2 hrsv1]

/-- R100: test 6 leaves the alphabets of the table. -/
theorem wellFormed_of_decodeWith (h : decodeWith c v = .ok i) : i.WellFormed c := by
  cases i with
  | txText alpha =>
    obtain rfl := eq_encode_of_decodeWith h
    obtain ⟨-, -, -, -, -, hlt⟩ := decodeWith_eq_ok_iff.mp h
    simpa [encode, opUsesAlpha] using hlt
  | _ => trivial

/-- R96, R92: decoding and encoding are inverse on the commands of a configuration. -/
theorem decodeWith_eq_ok_iff_encode : decodeWith c v = .ok i ↔ i.WellFormed c ∧ v = encode i := by
  constructor
  · intro h
    exact ⟨wellFormed_of_decodeWith h, eq_encode_of_decodeWith h⟩
  · rintro ⟨hi, rfl⟩
    exact decodeWith_encode hi

/-- Settles O1: `decode` is the decoder of the default configuration. -/
theorem decodeAcceptsExactlyTheEncodings : Obligations.DecodeAcceptsExactlyTheEncodings :=
  ⟨fun _ _ => decodeWith_eq_ok_iff_encode, fun _ _ _ => decodeWith_eq_ok_iff_encode⟩

/-- Settles O2: the fields of the six tests are the statement's bits, and the default configuration has four
alphabets. -/
theorem decoderRefusesExactlyWhenATestFails : Obligations.DecoderRefusesExactlyWhenATestFails := by
  intro v
  have hnalpha : Machine.nalpha Machine.config = 4 := by decide
  rw [decode, decodeWith_refuses_iff, commandOf_eq_none_iff, opUsesSrc_eq_false_iff, opUsesAlpha_eq_false_iff,
    opUsesAlpha_eq_true_iff, hnalpha]
  rfl

/-- Settles O3: one word of each family is evaluated. -/
theorem wordsOfEachFamilyDecode : Obligations.WordsOfEachFamilyDecode := by
  unfold Obligations.WordsOfEachFamilyDecode
  decide

end Sys2Proof
end

section
/-! The Word Generator commands at the default configuration (40_word_generator.md R121 to R132). What the zero guard
(R128) replaces is found for each of the two ways of seeding: the finaliser of R127 takes only 0 to 0, and a little-endian
word is 0 only when its bytes are. A jump is a power of the state map, and a sum of its powers; both are read off
`jumpState`. -/

namespace Sys2Proof.Machine

variable {c : Config} {s : State}

/-! ### Words and drops -/

/-- R124. -/
theorem execWith_wgNext_seeded (hv : s.wgValid = true) : execWith c .wgNext s =
    .next { s with res := wgWord c s.wg 0, wg := wgSucc c s.wg, err := .ok, outcnt := 0 } := by
  rw [execWith, wgNext, if_pos hv, State.complete_ok_eq]
  rfl

/-- R129. -/
theorem execWith_wgJump_seeded (hv : s.wgValid = true) : execWith c .wgJump s =
    .next { s with wg := jumpState c s.wg, err := .ok, outcnt := 0 } := by
  rw [execWith, wgJump, if_pos hv, State.complete_ok_eq]
  simp

/-- Settles O13: the word and the successor are those of the default `WG_STEP`. -/
theorem wgNextDeliversTheNextWord : Obligations.WgNextDeliversTheNextWord := by
  intro s hv
  rw [exec_eq, execWith_wgNext_seeded hv]
  rfl

/-- Settles O21: the drop, and its completion `OK`. -/
theorem wgDropZeroesTheWordGenerator : Obligations.WgDropZeroesTheWordGenerator := by
  intro s
  rw [exec_eq, execWith_wgDrop, State.complete_ok_eq]
  rfl

/-! ### The state map and the jump -/

/-- Settles O14: properties 2 and 3 of R123; a linear map fixes zero. -/
theorem stateMapIsALinearPermutation : Obligations.StateMapIsALinearPermutation :=
  ⟨config_wgBijective, config_wgLinear, wgSucc_zero config_wgLinear⟩

/-- Settles O18: the loop of the default `JUMP_POLY` makes 2^128 steps, `jumpState_config`. -/
theorem wgJumpAdvancesByTwoPow128 : Obligations.WgJumpAdvancesByTwoPow128 := by
  intro s hv
  rw [exec_eq, execWith_wgJump_seeded hv, jumpState_config, jumpDist]

/-- R131, of every configuration: a jump is a power of the state map. -/
theorem jumpState_wgSucc (hc : c.StepFits) (q : Quad) : jumpState c (wgSucc c q) = wgSucc c (jumpState c q) := by
  obtain ⟨-, -, hjump⟩ := hc
  rw [hjump, hjump]
  exact (Function.Commute.iterate_self (wgSucc c) jumpDist).eq q

/-- Settles O20: `jumpState_wgSucc`, as both commands leave the Word Generator seeded. -/
theorem jumpCommutesWithStep : Obligations.JumpCommutesWithStep := by
  intro s hv
  simp only [exec_eq]
  refine ⟨_, _, _, _, execWith_wgJump_seeded hv, execWith_wgNext_seeded hv, execWith_wgNext_seeded hv,
    execWith_wgJump_seeded hv, ?_⟩
  simp only [jumpState_wgSucc wellFormed_config.2]

/-- The action of a polynomial is the sum of the states at its coefficients that are 1. -/
theorem polyAct_eq_foldl (c : Config) (p : Nat → Bool) (n : Nat) (q : Quad) :
    polyAct c p n q = (((List.range n).filter p).map fun k => wgAfter c q k).foldl Quad.xor Quad.zero := by
  induction n with
  | zero => rfl
  | succ n ih =>
    rw [polyAct, ih, List.range_succ, List.filter_append, List.map_append, List.foldl_append]
    cases hp : p n <;> simp [hp]

/-- Bit `k` of a sequence of words is in word `k / 64`. -/
theorem wordBits_getD (ws : List Word) (k : Nat) :
    (ws.flatMap fun w => (List.range 64).map w.getLsbD).getD k false = (ws.getD (k / 64) 0).getLsbD (k % 64) := by
  induction ws generalizing k with
  | nil => simp
  | cons w ws ih =>
    rw [List.flatMap_cons]
    by_cases hk : k < 64
    · rw [List.getD_append _ _ _ _ (by simpa using hk), Nat.div_eq_of_lt hk, Nat.mod_eq_of_lt hk]
      simp [hk]
    · obtain ⟨j, rfl⟩ := Nat.exists_eq_add_of_le' (Nat.le_of_not_lt hk)
      rw [List.getD_append_right _ _ _ _ (by simp), List.length_map, List.length_range, Nat.add_sub_cancel, ih,
        Nat.add_div_right j (by decide), Nat.add_mod_right, List.getD_cons_succ]

theorem polyBits_eq_flatMap (w0 w1 w2 w3 : Word) :
    polyBits ⟨w0, w1, w2, w3⟩ = [w0, w1, w2, w3].flatMap fun w => (List.range 64).map w.getLsbD := by
  simp [polyBits]

/-- R129, of every configuration: a jump leaves the sum of the states at the coefficients of `JUMP_POLY` that are 1. -/
theorem jumpState_eq_foldl {w0 w1 w2 w3 : Word} (h : c.jumpPoly = ⟨w0, w1, w2, w3⟩) (q : Quad) :
    jumpState c q =
      (((List.range 256).filter fun k => (([w0, w1, w2, w3] : List Word).getD (k / 64) 0).getLsbD (k % 64)).map
        fun k => wgAfter c q k).foldl Quad.xor Quad.zero := by
  have hlen : (polyBits ⟨w0, w1, w2, w3⟩).length = 256 := by simp [polyBits]
  rw [jumpState, h, jumpLoop_eq, Quad.zero_xor, hlen, polyBits_eq_flatMap, ← polyAct_eq_foldl]
  exact polyAct_congr q fun k _ => wordBits_getD _ k

/-- Settles O19: the words of `JUMP_POLY` are the default configuration's. -/
theorem wgJumpSumsTheStepsOfThePolynomial : Obligations.WgJumpSumsTheStepsOfThePolynomial := by
  intro s hv
  rw [exec_eq, execWith_wgJump_seeded hv, jumpState_eq_foldl (c := config) rfl]

/-! ### The zero guard -/

theorem Quad.eq_zero_iff (q : Quad) : q = Quad.zero ↔ q.w0 = 0 ∧ q.w1 = 0 ∧ q.w2 = 0 ∧ q.w3 = 0 := by
  cases q
  simp [Quad.zero]

theorem zeroGuard_eq (c : Config) (q : Quad) :
    zeroGuard c q = if q = Quad.zero then c.seedMix Quad.zero else q := by
  simp [zeroGuard, Quad.eq_zero_iff, and_assoc]

/-- What R128 writes for four zero words: `SEED_MIX(0,0,0,0)`. -/
theorem seedMix_config_zero : config.seedMix Quad.zero =
    ⟨0xE220A8397B1DCDAF#64, 0x6E789E6AA1B965F4#64, 0x06C45D188009454F#64, 0xF88BB8A8724C81EC#64⟩ := by
  decide

/-! ### Seeding by the operands -/

theorem word_xor_shiftRight_eq_zero_iff {k : Nat} (hk : 0 < k) (z : Word) : z ^^^ (z >>> k) = 0 ↔ z = 0 := by
  constructor
  · intro h
    have hfix : z.toNat = z.toNat / 2 ^ k := by
      rw [← Nat.shiftRight_eq_div_pow, ← BitVec.toNat_ushiftRight, ← BitVec.xor_eq_zero_iff.mp h]
    by_contra hz
    have hpos : 0 < z.toNat := Nat.pos_of_ne_zero fun h0 => hz (BitVec.eq_of_toNat_eq h0)
    exact (Nat.div_lt_self hpos (Nat.one_lt_two_pow hk.ne')).ne' hfix
  · rintro rfl
    simp

/-- The finaliser of R127 takes only 0 to 0: its multipliers are odd, so each has an inverse. -/
theorem mixFin_eq_zero_iff (z : Word) : mixFin z = 0 ↔ z = 0 := by
  have hfirst : IsUnit 0xBF58476D1CE4E5B9#64 := .of_mul_eq_one 0x96DE1B173F119089#64 (by decide)
  have hsecond : IsUnit 0x94D049BB133111EB#64 := .of_mul_eq_one 0x319642B2D24D8EC3#64 (by decide)
  simp only [mixFin, word_xor_shiftRight_eq_zero_iff, Nat.zero_lt_succ, hfirst.mul_left_eq_zero,
    hsecond.mul_left_eq_zero]

theorem mixFin_add_eq_zero_iff (a b : Word) : mixFin (a + b) = 0 ↔ a = -b := by
  rw [mixFin_eq_zero_iff, eq_neg_iff_add_eq_zero]

/-- R127, with the multiples of `GOLDEN` written out. -/
theorem seedMix_config (k : Quad) : config.seedMix k =
    ⟨mixFin (k.w0 + 0x9E3779B97F4A7C15#64), mixFin (k.w1 + 0x3C6EF372FE94F82A#64),
     mixFin (k.w2 + 0xDAA66D2C7DDF743F#64), mixFin (k.w3 + 0x78DDE6E5FD29F054#64)⟩ := rfl

/-- The one tuple of R128. -/
theorem seedMix_config_eq_zero_iff (k : Quad) : config.seedMix k = Quad.zero ↔
    k.w0 = 0x61C8864680B583EB#64 ∧ k.w1 = 0xC3910C8D016B07D6#64 ∧
    k.w2 = 0x255992D382208BC1#64 ∧ k.w3 = 0x8722191A02D60FAC#64 := by
  simp only [seedMix_config, Quad.eq_zero_iff, mixFin_add_eq_zero_iff, BitVec.reduceNeg]

/-- Settles O17: the finaliser takes only 0 to 0, so one tuple of operands reaches the zero guard. -/
theorem wgSeedMixesTheSeedWords : Obligations.WgSeedMixesTheSeedWords := by
  intro s
  rw [exec_eq, execWith_wgSeed, State.complete_ok_eq, zeroGuard_eq, seedMix_config_zero]
  simp only [seedMix_config_eq_zero_iff]
  rfl

/-! ### Seeding by the entropy port -/

/-- R125. -/
theorem execWith_wgSeede_answered {e : List Byte} (h : entropyAnswer 32 s = some e) :
    execWith c .wgSeede s =
      .next (((s.noteEntropy 32).seedWg (zeroGuard c (entropyWords e)) false).complete .ok 0) := by
  rw [execWith, wgSeede, h]

theorem leNat_lt (bs : List Byte) : leNat bs < 256 ^ bs.length := by
  induction bs with
  | nil => decide
  | cons b bs ih =>
    have hb := b.isLt
    rw [leNat, List.length_cons, pow_succ]
    omega

theorem leNat_eq_zero_iff (bs : List Byte) : leNat bs = 0 ↔ ∀ b ∈ bs, b = 0 := by
  induction bs with
  | nil => simp [leNat]
  | cons b bs ih =>
    rw [leNat, List.forall_mem_cons, ← ih, BitVec.toNat_eq]
    simp

/-- Up to eight bytes fit in a word, so none is lost. -/
theorem le64_eq_zero_iff {bs : List Byte} (h : bs.length ≤ 8) : le64 bs = 0 ↔ ∀ b ∈ bs, b = 0 := by
  have hlt : leNat bs < 2 ^ 64 := (leNat_lt bs).trans_le (Nat.pow_le_pow_right (by decide) h)
  rw [← leNat_eq_zero_iff, le64, BitVec.toNat_eq, BitVec.toNat_ofNat, Nat.mod_eq_of_lt hlt]
  rfl

theorem take_append_drop_add {α : Type} (e : List α) (i n : Nat) :
    (e.drop i).take n ++ e.drop (i + n) = e.drop i := by
  rw [← List.drop_drop, List.take_append_drop]

/-- R128: 32 zero bytes, and only they, make four zero words. -/
theorem entropyWords_eq_zero_iff {e : List Byte} (h : e.length = 32) :
    entropyWords e = Quad.zero ↔ e = List.replicate 32 0 := by
  have hlast : (e.drop 24).take 8 = e.drop 24 := List.take_of_length_le (by simp [h])
  have hsplit : e = e.take 8 ++ ((e.drop 8).take 8 ++ ((e.drop 16).take 8 ++ (e.drop 24).take 8)) := by
    rw [hlast, take_append_drop_add, take_append_drop_add, List.take_append_drop]
  rw [Quad.eq_zero_iff, List.eq_replicate_iff, and_iff_right h]
  conv_rhs => rw [hsplit]
  simp only [entropyWords, List.forall_mem_append, le64_eq_zero_iff (List.length_take_le 8 _)]

/-- Settles O15: the zero guard compares the four words with 0, which is to compare the 32 bytes. -/
theorem wgSeedeTakesTheEntropyBytes : Obligations.WgSeedeTakesTheEntropyBytes := by
  refine fun s e => ⟨fun h => ?_, fun rest => entropyAnswer_listed⟩
  rw [exec_eq, execWith_wgSeede_answered h, State.complete_ok_eq, zeroGuard_eq, seedMix_config_zero]
  simp only [entropyWords_eq_zero_iff (entropyAnswer_length h)]
  rfl

end Sys2Proof.Machine
end

section
/-! The Keystream Generator commands (41_keystream.md R150 to R162): seeding and dropping, the bytes, the words and the
fills taken from it, and where its counter ends. The laws of the commands are stated for every configuration whose sizes
fit. -/

namespace Sys2Proof.Machine

variable {c : Config} {s t u : State} {i : Instr} {n : Nat} {why : Completion} {text : List Byte}

/-! ### Seeding and dropping -/

/-- R159. -/
theorem execWith_ksSeede_answered {e : List Byte} (h : entropyAnswer (c.keyLen + c.nonceLen) s = some e) :
    execWith c .ksSeede s = .next (((s.noteEntropy (c.keyLen + c.nonceLen)).seedKs c (keyPart c e)
      (noncePart c e) 0 false).complete .ok 0) := by
  rw [execWith, ksSeede, h]

theorem noncePart_eq_drop {m : List Byte} (h : m.length = c.keyLen + c.nonceLen) :
    noncePart c m = m.drop c.keyLen :=
  List.take_of_length_le (by simp [h])

/-- Settles O22: the 8 bytes after the key are all the rest of the 40. -/
theorem ksSeedeTakesKeyThenNonce : Obligations.KsSeedeTakesKeyThenNonce := by
  refine fun s e => ⟨fun h => ?_, fun rest => entropyAnswer_listed⟩
  rw [exec_eq, execWith_ksSeede_answered (c := config) h, State.complete_ok_eq,
    noncePart_eq_drop (c := config) (entropyAnswer_length h)]
  rfl

/-- R12, R160: the key is made of the first data registers. -/
theorem keyPart_keyNonceOperand (c : Config) (s : State) :
    keyPart c (keyNonceOperand c s) = bytesLE s.d c.keyLen := by
  simp [keyPart, keyNonceOperand, bytesLE, ← List.map_take, List.take_range]

/-- R12, R160: the nonce goes on where the key ends. -/
theorem noncePart_keyNonceOperand (c : Config) (s : State) :
    noncePart c (keyNonceOperand c s) = (List.range c.nonceLen).map fun j =>
      (s.d.getD ((c.keyLen + j) / 8) 0).extractLsb' (8 * ((c.keyLen + j) % 8)) 8 := by
  rw [noncePart_eq_drop (keyNonceOperand_length c s)]
  simp [keyNonceOperand, bytesLE, List.range_add]

/-- Settles O23: at the default sizes the key fills `D[0..3]`, so the nonce is `D[4]` and the counter `D[5]`. -/
theorem ksSeedLoadsKeyNonceAndCounter : Obligations.KsSeedLoadsKeyNonceAndCounter := by
  intro s
  have hnonce : noncePart config (keyNonceOperand config s) =
      (List.range 8).map fun j => (s.d.getD 4 0).extractLsb' (8 * j) 8 := by
    rw [noncePart_keyNonceOperand]
    refine List.map_congr_left fun j hj => ?_
    have hlt : j < 8 := List.mem_range.mp hj
    have hreg : (config.keyLen + j) / 8 = 4 := by simp only [config]; omega
    have hbyte : (config.keyLen + j) % 8 = j := by simp only [config]; omega
    rw [hreg, hbyte]
  rw [exec_eq, execWith_ksSeed, State.complete_ok_eq, keyPart_keyNonceOperand, hnonce]
  rfl

/-- Settles O24: the drop, and its completion `OK`. -/
theorem ksDropZeroesTheKeystreamGenerator : Obligations.KsDropZeroesTheKeystreamGenerator := by
  intro s
  rw [exec_eq, execWith_ksDrop, State.complete_ok_eq]
  rfl

/-! ### Bytes -/

theorem eq_ctrMax_iff {a : Word} : a = ctrMax ↔ a.toNat = 2 ^ 64 - 1 := by
  rw [← ctrMax_toNat, BitVec.toNat_inj]

/-- Settles O25: the three cases of `ksByte_cases`; of a block just loaded, byte 0 is delivered. -/
theorem keystreamByteRefillsWhenExhausted : Obligations.KeystreamByteRefillsWhenExhausted := by
  refine fun s => ⟨fun hcur => ksByte_ready hcur, fun hcur hctr => ?_, fun hcur hctr => ?_⟩
  · have hne : s.ctr ≠ ctrMax := fun h => hctr.ne (eq_ctrMax_iff.mp h)
    rw [ksByte_refill (c := config) hcur.ge hne, bufRead_block (L := config.blockLen) rfl (by decide)]
    rfl
  · exact ksByte_exhausted hcur.ge (eq_ctrMax_iff.mpr hctr)

/-- A byte delivered is one of those left (R155). -/
theorem bytesLeft_of_ksByte {b : Byte} (hc : c.SizesFit) (hcur : s.cur.toNat ≤ c.blockLen)
    (h : ksByte c s = .done b t) : bytesLeft c t + 1 = bytesLeft c s := by
  obtain ⟨hL, hL', -⟩ := hc
  rcases ksByte_cases c s with ⟨hlt, hr⟩ | ⟨-, -, hr⟩ | ⟨hge, hne, hr⟩ <;> rw [hr] at h <;> cases h
  · have hadv : s.advanceCur.cur.toNat = s.cur.toNat + 1 := by
      rw [State.advanceCur_cur, BitVec.toNat_add, Nat.mod_eq_of_lt (by simp; omega)]
      rfl
    simp only [bytesLeft, inBuffer, hadv, State.advanceCur_ctr]
    omega
  · have hmax : s.ctr.toNat + 1 ≤ ctrMax.toNat :=
      Nat.lt_of_le_of_ne (ctr_le_ctrMax s.ctr) fun h => hne (BitVec.eq_of_toNat_eq h)
    have hctr : (s.loadBlock (nextBlock c s)).advanceCur.ctr.toNat = s.ctr.toNat + 1 := ctr_add_toNat hmax
    have hone : (s.loadBlock (nextBlock c s)).advanceCur.cur.toNat = 1 := rfl
    obtain ⟨m, hm⟩ := Nat.exists_eq_add_of_le hmax
    have hbefore : ctrMax.toNat - s.ctr.toNat = m + 1 := by omega
    have hafter : ctrMax.toNat - (s.ctr.toNat + 1) = m := by omega
    simp only [bytesLeft, inBuffer, hctr, hone, hbefore, hafter, Nat.succ_mul]
    omega

/-- So are `n` bytes. -/
theorem bytesLeft_of_ksBytes (hc : c.SizesFit) (n : Nat) : ∀ {s bs t}, s.cur.toNat ≤ c.blockLen →
    ksBytes c n s = .done bs t → bytesLeft c t + n = bytesLeft c s := by
  induction n with
  | zero =>
    intro s bs t _ h
    cases h
    rfl
  | succ n ih =>
    intro s bs t hcur h
    obtain ⟨b, s1, hb, h1⟩ := Attempt.bind_eq_done h
    obtain ⟨bs', s2, hbs, h2⟩ := Attempt.bind_eq_done h1
    cases h2
    have hmoved := ksByte_ends hc.1 hc.2.1 s
    rw [hb] at hmoved
    rw [← bytesLeft_of_ksByte hc hcur hb, ← ih (hmoved.cur_le hcur) hbs, Nat.add_assoc]

/-- Where `n` bytes leave the machine: the cursor in its range, and `n` bytes fewer to come (R154). -/
theorem afterBytes_position (hc : c.SizesFit) (hcur : s.cur.toNat ≤ c.blockLen) (hn : n ≤ bytesLeft c s) :
    (afterBytes c s n).cur.toNat ≤ c.blockLen ∧ bytesLeft c (afterBytes c s n) + n = bytesLeft c s := by
  have hbytes := ksBytes_done hc.1 hc.2.1 hcur hn
  have hmoved := ksBytes_ends hc.1 hc.2.1 n s
  rw [hbytes] at hmoved
  exact ⟨hmoved.cur_le hcur, bytesLeft_of_ksBytes hc n hcur hbytes⟩

/-- With an empty buffer the bytes to come are those of block after block (R154). -/
theorem comingByte_of_empty (h : inBuffer c s = 0) (j : Nat) :
    comingByte c s j = c.blockFn s.key s.nonce (s.ctr + BitVec.ofNat 64 (j / c.blockLen)) (j % c.blockLen) :=
  comingByte_of_ge (by omega)

/-- R154, of every configuration: from an empty buffer on, the bytes are those of block after block, and their number
follows from counter and cursor. -/
theorem ksBytes_of_empty (hc : c.SizesFit) (hcur : s.cur.toNat = c.blockLen)
    (hn : n ≤ (ctrMax.toNat - s.ctr.toNat) * c.blockLen) :
    ∃ t, ksBytes c n s = .done
        ((List.range n).map fun j =>
          c.blockFn s.key s.nonce (s.ctr + BitVec.ofNat 64 (j / c.blockLen)) (j % c.blockLen)) t ∧
      t.cur.toNat ≤ c.blockLen ∧
      (n : Int) = ((t.ctr.toNat : Int) - s.ctr.toNat) * c.blockLen - (c.blockLen - t.cur.toNat) := by
  have hempty : inBuffer c s = 0 := by simp [inBuffer, hcur]
  have hleft : bytesLeft c s = (ctrMax.toNat - s.ctr.toNat) * c.blockLen := by
    rw [bytesLeft, hempty, Nat.zero_add]
  rw [← hleft] at hn
  obtain ⟨hcur', hcount⟩ := afterBytes_position hc hcur.le hn
  refine ⟨afterBytes c s n, ?_, hcur', ?_⟩
  · rw [ksBytes_done hc.1 hc.2.1 hcur.le hn, comingBytes]
    exact congrArg (Attempt.done · _) (List.map_congr_left fun j _ => comingByte_of_empty hempty j)
  · rw [hleft, bytesLeft, inBuffer] at hcount
    zify [hcur', ctr_le_ctrMax s.ctr, ctr_le_ctrMax (afterBytes c s n).ctr] at hcount
    linear_combination hcount

/-- Settles O30: seeding leaves an empty buffer and the counter of `D[5]`. -/
theorem keystreamLaw : Obligations.KeystreamLaw := by
  intro s s1 n h hn
  rw [exec_eq, execWith_ksSeed] at h
  cases h
  rw [← ctrMax_toNat] at hn
  exact ksBytes_of_empty config_sizesFit rfl hn

/-! ### Words and fills -/

/-- R24, R250: a result delivered. -/
theorem State.setRes_complete_ok (v : Word) (s : State) :
    (s.setRes v).complete .ok 0 = { s with res := v, err := .ok, outcnt := 0 } := by
  rw [State.complete_ok_eq]
  rfl

/-- Settles O26: `execWith_ksNext_done`, and its completion `OK`. -/
theorem ksNextDeliversTheNextWord : Obligations.KsNextDeliversTheNextWord := by
  intro s hv hcur hleft
  rw [exec_eq, execWith_ksNext_done config_sizesFit hv hcur hleft, State.setRes_complete_ok]

/-- Settles O28: `execWith_ksFill_done`, and its completion `OK`. -/
theorem ksFillWritesTheNextBytes : Obligations.KsFillWritesTheNextBytes := by
  intro s hv hcur hleft
  rw [exec_eq, execWith_ksFill_done config_sizesFit hv hcur hleft, State.complete_ok_eq]
  simp [State.withOut, State.data]

/-! ### Where the counter ends -/

theorem afterBytes_serr (c : Config) (s : State) (n : Nat) : (afterBytes c s n).serr = s.serr := by
  rw [afterBytes_frame]
  rfl

/-- R158: fewer than `D[0]` bytes are left. -/
theorem execWith_ksFill_exhausted (hc : c.SizesFit) (hv : s.ksValid = true) (hcur : s.cur.toNat ≤ c.blockLen)
    (hn : bytesLeft c s < (s.data 0).toNat) :
    execWith c .ksFill s =
      .next (((afterBytes c s (bytesLeft c s)).withOut (s.out ++ comingBytes c s (bytesLeft c s))).complete
        .counterExhausted (bytesLeft c s)) := by
  obtain ⟨hL, hL', -⟩ := hc
  rw [execWith, ksFill, if_pos hv, emit_ksByte_raised hL hL' hcur hn]
  simp [finishOut, emitted]

/-- Settles O29: every byte left goes to OUT, `execWith_ksFill_exhausted`. -/
theorem ksFillCutShortByTheCounter : Obligations.KsFillCutShortByTheCounter := by
  intro s hv hcur hleft
  refine ⟨?_, afterBytes_bytesLeft config_sizesFit.1 hcur⟩
  rw [exec_eq, execWith_ksFill_exhausted config_sizesFit hv hcur hleft, State.complete_eq, State.withOut_serr,
    afterBytes_serr]
  rfl

/-- The counter is at its maximum when less than a block is left (R155). -/
theorem ctr_eq_ctrMax_of_bytesLeft_lt (h : bytesLeft c s < c.blockLen) : s.ctr = ctrMax := by
  have hzero : ctrMax.toNat - s.ctr.toNat = 0 := by
    by_contra hpos
    have := Nat.le_mul_of_pos_left c.blockLen (Nat.pos_of_ne_zero hpos)
    unfold bytesLeft at h
    omega
  exact BitVec.eq_of_toNat_eq (Nat.le_antisymm (ctr_le_ctrMax s.ctr) (Nat.sub_eq_zero_iff_le.mp hzero))

/-- From there on only the cursor moves, to the end of the buffer. -/
theorem afterBytes_of_ctrMax (hL : 1 ≤ c.blockLen) (hcur : s.cur.toNat ≤ c.blockLen) (h : s.ctr = ctrMax) :
    afterBytes c s (bytesLeft c s) = { s with cur := BitVec.ofNat 16 c.blockLen } := by
  have hleft : bytesLeft c s = inBuffer c s := by simp [bytesLeft, h]
  obtain ⟨hend, -⟩ := afterBytes_bytesLeft hL hcur
  rw [hleft, afterBytes_of_le le_rfl, State.withKs_cur] at hend
  rw [hleft, afterBytes_of_le le_rfl, hend]
  rfl

/-- `i` takes one word of the keystream (R156, R188, R190). -/
def TakesOneWord (i : Instr) : Prop := i = .ksNext ∨ i = .uF64 .ks ∨ i = .uBool .ks

/-- `i`, past the checks of its operands, runs the rejection loop for the bound `n` (R184, R186, R191). -/
def LoopsFor (src : Src) (i : Instr) (s : State) (n : Word) : Prop :=
  i = .uBound src ∧ n = s.data 0 ∧ n ≠ 0 ∨
  i = .uRange src ∧ n = s.data 1 - s.data 0 ∧ (s.data 0).toInt < (s.data 1).toInt ∨
  i = .uDigit src ∧ n = 10

/-- A fault of the word the command takes is the command's (R251). -/
theorem TakesOneWord.raised (hi : TakesOneWord i) (hv : s.ksValid = true) (h : ksWord c s = .raised why u) :
    execWith c i s = .next (u.complete why 0) := by
  rcases hi with rfl | rfl | rfl
  · simp [execWith, ksNext, hv, h, finishResult]
  · simp [execWith, uF64, seeded, draw, hv, h, finishResult]
  · simp [execWith, uBool, seeded, draw, hv, h, finishResult]

/-- A fault of the loop is the command's (R251). -/
theorem LoopsFor.raised {src : Src} {n : Word} (hi : LoopsFor src i s n) (hv : seeded src s = true)
    (h : boundSample c src n s = .raised why u) : execWith c i s = .next (u.complete why 0) := by
  rcases hi with ⟨rfl, rfl, hne⟩ | ⟨rfl, rfl, hlt⟩ | ⟨rfl, rfl⟩
  · rw [execWith, uBound, if_pos hv, if_neg hne, h, finishResult]
  · rw [execWith, uRange, if_pos hv, if_pos (BitVec.slt_iff_toInt_lt.mpr hlt), h, Attempt.bind_raised, finishResult]
  · rw [execWith, uDigit, if_pos hv, h, Attempt.bind_raised, finishResult]

/-- R157, R251: fewer than eight bytes are left. -/
theorem TakesOneWord.exhausted (hc : c.SizesFit) (hi : TakesOneWord i) (hv : s.ksValid = true)
    (hcur : s.cur.toNat ≤ c.blockLen) (hleft : bytesLeft c s < 8) :
    execWith c i s = .next ((afterBytes c s (bytesLeft c s)).complete .counterExhausted 0) :=
  hi.raised hv (draw_raised hc.1 hc.2.1 hcur hleft)

/-- R183, R251: every word that can still be drawn is rejected. -/
theorem LoopsFor.exhausted {n : Word} (hc : c.SizesFit) (hi : LoopsFor .ks i s n) (hv : s.ksValid = true)
    (hcur : s.cur.toNat ≤ c.blockLen)
    (hreject : ∀ k, 8 * (k + 1) ≤ bytesLeft c s → accepted n (comingWord c s k) = false) :
    execWith c i s = .next ((afterBytes c s (bytesLeft c s)).complete .counterExhausted 0) :=
  hi.raised hv (boundSample_raised hc hcur hreject)

/-- With fewer than eight bytes left no word can be drawn, so the loops have none to accept. -/
theorem execWith_wordless (hc : c.SizesFit) (hi : TakesOneWord i ∨ ∃ n, LoopsFor .ks i s n) (hv : s.ksValid = true)
    (hcur : s.cur.toNat ≤ c.blockLen) (hleft : bytesLeft c s < 8) :
    execWith c i s = .next ((afterBytes c s (bytesLeft c s)).complete .counterExhausted 0) := by
  rcases hi with hi | ⟨n, hi⟩
  · exact hi.exhausted hc hv hcur hleft
  · exact hi.exhausted hc hv hcur fun k hk => absurd hk (by omega)

/-- R251, R246: to the state after the bytes taken the fault adds its code, its sticky bit and the count of no bytes. -/
theorem complete_counterExhausted_afterBytes (c : Config) (s : State) (n : Nat) :
    (afterBytes c s n).complete .counterExhausted 0 =
      { afterBytes c s n with
        err := .counterExhausted, serr := s.serr ||| 0b0010000#7, outcnt := 0 } := by
  rw [State.complete_eq, afterBytes_serr]
  rfl

/-- Settles O27: `execWith_wordless`, where only the cursor has still to move, and `LoopsFor.exhausted`. -/
theorem secureWordsEndWithTheCounter : Obligations.SecureWordsEndWithTheCounter := by
  refine ⟨fun s i hv hcur hleft hi => ?_, fun s i n hv hcur hi hreject => ?_⟩
  · have hi' : TakesOneWord i ∨ ∃ n, LoopsFor .ks i s n := by
      rcases hi with hi | hi | hi | hi | ⟨hi, hne⟩ | ⟨hi, hlt⟩
      · exact .inl (.inl hi)
      · exact .inl (.inr (.inl hi))
      · exact .inl (.inr (.inr hi))
      · exact .inr ⟨10, .inr (.inr ⟨hi, rfl⟩)⟩
      · exact .inr ⟨_, .inl ⟨hi, rfl, hne⟩⟩
      · exact .inr ⟨_, .inr (.inl ⟨hi, rfl, hlt⟩)⟩
    have hctr : s.ctr = ctrMax :=
      ctr_eq_ctrMax_of_bytesLeft_lt (c := config) (hleft.trans (by decide))
    refine ⟨hctr, ?_⟩
    rw [exec_eq, execWith_wordless config_sizesFit hi' hv hcur hleft, complete_counterExhausted_afterBytes,
      afterBytes_of_ctrMax config_sizesFit.1 hcur hctr]
    rfl
  · refine ⟨?_, afterBytes_bytesLeft config_sizesFit.1 hcur⟩
    rw [exec_eq, LoopsFor.exhausted config_sizesFit hi hv hcur hreject, complete_counterExhausted_afterBytes]

/-! ### Requests for blocks -/

/-- From `s` to `t` the counter has moved on by the blocks asked for, without a wrap (R67, R162). -/
def RequestsFollowCounter (s t : State) : Prop :=
  ∃ k, t.ctr.toNat = s.ctr.toNat + k ∧ t.requests = s.requests ++ blockRequests s k

theorem RequestsFollowCounter.refl (s : State) : RequestsFollowCounter s s :=
  ⟨0, rfl, by simp [blockRequests]⟩

theorem KsMoved.requestsFollowCounter (h : KsMoved c s t) : RequestsFollowCounter s t := by
  obtain ⟨_, _, k, rfl, hk, _⟩ := h
  exact ⟨k, ctr_add_toNat hk, rfl⟩

theorem Drawn.requestsFollowCounter {src : Src} (h : Drawn c src s t) : RequestsFollowCounter s t := by
  cases src with
  | wg =>
    obtain ⟨_, rfl⟩ := h
    exact .refl s
  | ks => exact KsMoved.requestsFollowCounter h

theorem TextMoved.requestsFollowCounter {keep : Prop} (h : TextMoved c keep text s t) :
    RequestsFollowCounter s t := by
  obtain ⟨_, _, _, hks, rfl, _⟩ := h
  exact hks.requestsFollowCounter

/-- What a command brings about that asks for no entropy and leaves the seed of the Keystream Generator alone. -/
theorem Performed.requestsFollowCounter (hp : Performed c i s why text u) (hi : i ≠ .wgSeede)
    (hseed : reseedsKs i = false) : RequestsFollowCounter s u := by
  cases hp with
  | noEntropy _ hi' =>
    rcases hi' with rfl | rfl
    · exact absurd rfl hi
    · cases hseed
  | wgSeede hi' => exact absurd hi' hi
  | ksSeede hi' | ksSeed hi' | ksDrop hi' =>
    subst hi'
    cases hseed
  | delivered _ _ _ _ _ _ hu => exact hu.requestsFollowCounter
  | spent _ _ _ _ _ hu => exact hu.requestsFollowCounter
  | filled _ _ _ _ _ _ _ hu => exact hu.requestsFollowCounter
  | texted _ _ _ _ _ _ _ _ _ hu => exact hu.requestsFollowCounter
  | _ => exact .refl s

/-- Settles O32: the completion writes neither the counter nor the record of requests. -/
theorem blockRequestsFollowTheCounter : Obligations.BlockRequestsFollowTheCounter := by
  intro i s t hi hseed h
  obtain ⟨why, text, u, hp, rfl⟩ := exec_performed h
  exact hp.requestsFollowCounter hi hseed

end Sys2Proof.Machine
end

section
/-! The Uniform Sampler (42_uniform_sampler.md R181 to R194): how the rejection threshold makes the accepted words
uniform, what `F64Bits` encodes, what each command delivers and where its value lies, and that no command but a
rejection loop on the fast path can hang. The laws of the commands are stated for every configuration whose sizes
fit. -/

namespace Sys2Proof.Machine

variable {c : Config} {src : Src} {s t u : State} {n v x lo hi m : Word}

/-! ### The threshold -/

/-- R182: `0 -w n` is `2^64 - n`, which leaves the same remainder as `2^64`. -/
theorem thresh_toNat (h : n ≠ 0) : (thresh n).toNat = 2 ^ 64 % n.toNat := by
  have hpos := BitVec.toNat_pos_of_ne_zero h
  have hsub : (0 - n).toNat = 2 ^ 64 - n.toNat := by bv_omega
  rw [thresh, BitVec.toNat_umod, hsub, ← Nat.mod_eq_sub_mod n.isLt.le]

/-- Settles O33: `thresh_toNat`, and a remainder by `n` is below `n`. -/
theorem threshIsTwoPow64ModN : Obligations.ThreshIsTwoPow64ModN := by
  intro n h
  refine ⟨rfl, thresh_toNat h, ?_⟩
  rw [thresh_toNat h]
  exact Nat.mod_lt _ (BitVec.toNat_pos_of_ne_zero h)

/-! ### The accepted words of a value -/

/-- The words that are accepted for `n` and give `v` are those whose product with `n` lies in one interval, of length
`n * floor(2^64 / n)` (R193). -/
theorem accepted_mulHi_iff (h : n ≠ 0) :
    accepted n x = true ∧ mulHi x n = v ↔
      v.toNat * 2 ^ 64 + 2 ^ 64 % n.toNat ≤ n.toNat * x.toNat ∧
        n.toNat * x.toNat < v.toNat * 2 ^ 64 + 2 ^ 64 % n.toNat + n.toNat * (2 ^ 64 / n.toNat) := by
  have hsplit := Nat.mod_add_div (2 ^ 64) n.toNat
  rw [accepted, decide_eq_true_iff, BitVec.le_def, thresh_toNat h, mulLo_toNat, ← BitVec.toNat_inj, mulHi_toNat,
    Nat.mul_comm x.toNat]
  omega

theorem add_mul_ceilDiv {n : Nat} (hn : 0 < n) (a q : Nat) : (a + n * q) ⌈/⌉ n = a ⌈/⌉ n + q := by
  rw [Nat.ceilDiv_eq_add_pred_div, Nat.ceilDiv_eq_add_pred_div, ← Nat.add_mul_div_left _ _ hn]
  congr 1
  omega

/-- Any interval of length `n * q` holds the multiples by `n` of `q` numbers in a row. -/
theorem mul_mem_interval_iff {n a q x : Nat} (hn : 0 < n) :
    a ≤ n * x ∧ n * x < a + n * q ↔ x ∈ Finset.Ico (a ⌈/⌉ n) (a ⌈/⌉ n + q) := by
  rw [Finset.mem_Ico, ← add_mul_ceilDiv hn, ceilDiv_le_iff_le_mul hn, ← Nat.not_le, ← Nat.not_le,
    ceilDiv_le_iff_le_mul hn]

/-- The least number whose product with `n` reaches the interval of `accepted_mulHi_iff`. -/
def firstAccepted (n v : Word) : Nat := (v.toNat * 2 ^ 64 + 2 ^ 64 % n.toNat) ⌈/⌉ n.toNat

theorem accepted_mulHi_iff_mem (h : n ≠ 0) :
    accepted n x = true ∧ mulHi x n = v ↔
      x.toNat ∈ Finset.Ico (firstAccepted n v) (firstAccepted n v + 2 ^ 64 / n.toNat) :=
  (accepted_mulHi_iff h).trans (mul_mem_interval_iff (BitVec.toNat_pos_of_ne_zero h))

/-- For a value below the bound, all of these numbers are words. -/
theorem firstAccepted_add_le (h : v.toNat < n.toNat) : firstAccepted n v + 2 ^ 64 / n.toNat ≤ 2 ^ 64 := by
  have hn : 0 < n.toNat := Nat.zero_lt_of_lt h
  have hsplit := Nat.mod_add_div (2 ^ 64) n.toNat
  rw [firstAccepted, ← add_mul_ceilDiv hn, ceilDiv_le_iff_le_mul hn]
  omega

/-- Settles O34: the accepted words of a value are `floor(2^64 / n)` numbers in a row. -/
theorem acceptedWordsAreUniform : Obligations.AcceptedWordsAreUniform := by
  intro n v hv
  have hne : n ≠ 0 := by
    rintro rfl
    exact absurd hv (Nat.not_lt_zero _)
  have hwords : (Finset.univ.filter fun x : Fin (2 ^ 64) =>
      accepted n (BitVec.ofFin x) = true ∧ mulHi (BitVec.ofFin x) n = v).map Fin.valEmbedding =
      Finset.Ico (firstAccepted n v) (firstAccepted n v + 2 ^ 64 / n.toNat) := by
    ext y
    simp only [Finset.mem_map, Finset.mem_filter, Finset.mem_univ, true_and, accepted_mulHi_iff_mem hne]
    constructor
    · rintro ⟨x, hx, rfl⟩
      exact hx
    · intro hy
      exact ⟨⟨y, (Finset.mem_Ico.mp hy).2.trans_le (firstAccepted_add_le hv)⟩, hy, rfl⟩
  rw [← Finset.card_map, hwords, Nat.card_Ico, Nat.add_sub_cancel_left]

/-! ### `F64Bits` -/

theorem log2_le_52 {m : Nat} (h : m ≠ 0) (h53 : m < 2 ^ 53) : m.log2 ≤ 52 :=
  Nat.lt_succ_iff.mp ((Nat.log2_lt h).mpr h53)

/-- Shifted left by `52 - log2 m`, a number `m` below `2^53` has its leading 1 at bit 52. -/
theorem normalized_bounds {m : Nat} (h : m ≠ 0) (h53 : m < 2 ^ 53) :
    2 ^ 52 ≤ m * 2 ^ (52 - m.log2) ∧ m * 2 ^ (52 - m.log2) < 2 ^ 53 := by
  have hlog := log2_le_52 h h53
  have hlow := Nat.mul_le_mul_right (2 ^ (52 - m.log2)) (Nat.log2_self_le h)
  have hhigh := Nat.mul_lt_mul_of_pos_right (Nat.lt_log2_self (n := m)) (Nat.two_pow_pos (52 - m.log2))
  rw [← Nat.pow_add] at hlow hhigh
  rw [show m.log2 + (52 - m.log2) = 52 by omega] at hlow
  rw [show m.log2 + 1 + (52 - m.log2) = 53 by omega] at hhigh
  exact ⟨hlow, hhigh⟩

/-- R189: the exponent field stands above the fraction field, from which the leading 1 is left out. -/
theorem f64Bits_toNat (h : m ≠ 0) (h53 : m.toNat < 2 ^ 53) :
    (f64Bits m).toNat = 2 ^ 52 * (970 + m.toNat.log2) + (m.toNat * 2 ^ (52 - m.toNat.log2) - 2 ^ 52) := by
  have hne := (BitVec.toNat_pos_of_ne_zero h).ne'
  have hlog := log2_le_52 hne h53
  obtain ⟨hlow, hhigh⟩ := normalized_bounds hne h53
  simp only [f64Bits, if_neg h, BitVec.toNat_append, BitVec.toNat_ofNat, BitVec.toNat_setWidth,
    BitVec.toNat_shiftLeft, Nat.shiftLeft_eq]
  rw [Nat.mul_comm _ (2 ^ 52), ← Nat.two_pow_add_eq_or_of_lt (Nat.mod_lt _ (Nat.two_pow_pos 52))]
  omega

/-- Settles O42: the fields are read off `f64Bits_toNat`, and the shift that normalizes `m` and the scale of the
exponent make up for each other. -/
theorem f64BitsEncodeTheScaledWord : Obligations.F64BitsEncodeTheScaledWord := by
  refine ⟨rfl, fun m h1 h53 => ?_⟩
  have hne : m.toNat ≠ 0 := Nat.one_le_iff_ne_zero.mp h1
  have hlog := log2_le_52 hne h53
  obtain ⟨hlow, hhigh⟩ := normalized_bounds hne h53
  have hbits := f64Bits_toNat (fun h0 => hne (congrArg BitVec.toNat h0)) h53
  have hsign : (f64Bits m).getLsbD 63 = false := by
    rw [BitVec.getLsbD, hbits]
    exact Nat.testBit_lt_two_pow (by omega)
  have hexp : ((f64Bits m).extractLsb' 52 11).toNat = 970 + m.toNat.log2 := by
    rw [BitVec.extractLsb'_toNat, hbits, Nat.shiftRight_eq_div_pow]
    omega
  have hfrac : 2 ^ 52 + ((f64Bits m).extractLsb' 0 52).toNat = m.toNat * 2 ^ (52 - m.toNat.log2) := by
    rw [BitVec.extractLsb'_toNat, hbits, Nat.shiftRight_zero]
    omega
  refine ⟨hsign, by omega, by omega, ?_⟩
  rw [hexp, hfrac, Nat.add_sub_cancel_left, Nat.mul_assoc, ← Nat.pow_add, Nat.sub_add_cancel hlog]

/-! ### What the rejection loop delivers -/

/-- R184. -/
theorem execWith_uBound_done (hv : seeded src s = true) (hne : s.data 0 ≠ 0)
    (h : boundSample c src (s.data 0) s = .done v u) :
    execWith c (.uBound src) s = .next { u with res := v, err := .ok, outcnt := 0 } := by
  rw [execWith, uBound, if_pos hv, if_neg hne, h, finishResult, State.setRes_complete_ok]

/-- R186. -/
theorem execWith_uRange_done (hv : seeded src s = true) (hlt : (s.data 0).toInt < (s.data 1).toInt)
    (h : boundSample c src (s.data 1 - s.data 0) s = .done v u) :
    execWith c (.uRange src) s = .next { u with res := s.data 0 + v, err := .ok, outcnt := 0 } := by
  rw [execWith, uRange, if_pos hv, if_pos (BitVec.slt_iff_toInt_lt.mpr hlt), h, Attempt.bind_done, finishResult,
    State.setRes_complete_ok]

/-- R191. -/
theorem execWith_uDigit_done (hv : seeded src s = true) (h : boundSample c src 10 s = .done v u) :
    execWith c (.uDigit src) s = .next { u with res := 0x30 + v, err := .ok, outcnt := 0 } := by
  rw [execWith, uDigit, if_pos hv, h, Attempt.bind_done, finishResult, State.setRes_complete_ok]

/-- Settles O35: `boundSample_done`, whose value `U.BOUND` delivers. -/
theorem uBoundDeliversTheFirstAcceptedWord : Obligations.UBoundDeliversTheFirstAcceptedWord := by
  intro src s k hv hcur hne hdraw hreject haccept
  rw [exec_eq]
  exact execWith_uBound_done hv hne (boundSample_done config_sizesFit hcur hdraw hreject haccept)

/-- Settles O38: `boundSample_done` for the span, to whose value `U.RANGE` adds `min`. -/
theorem uRangeAddsTheBoundedSpan : Obligations.URangeAddsTheBoundedSpan := by
  intro src s k hv hcur hlt hdraw hreject haccept
  rw [exec_eq]
  exact execWith_uRange_done hv hlt (boundSample_done config_sizesFit hcur hdraw hreject haccept)

/-- Ten digits, from the character code of `0` on (R191). -/
theorem digit_bounds (x : Word) : 0x30 ≤ (0x30 + mulHi x 10).toNat ∧ (0x30 + mulHi x 10).toNat ≤ 0x39 := by
  have hlt : (mulHi x 10).toNat < 10 := mulHi_lt x (by decide)
  bv_omega

/-- Settles O44: `boundSample_done` for 10, to whose value `U.DIGIT` adds the character code of `0`. -/
theorem uDigitDeliversADigit : Obligations.UDigitDeliversADigit := by
  intro src s k hv hcur hdraw hreject haccept
  refine ⟨?_, digit_bounds _⟩
  rw [exec_eq]
  exact execWith_uDigit_done hv (boundSample_done config_sizesFit hcur hdraw hreject haccept)

/-! ### The bound 1 -/

/-- R185: `THRESH(1)` is 0. -/
theorem accepted_one (x : Word) : accepted 1 x = true := by
  have hzero : thresh 1 = 0 := by decide
  rw [accepted, hzero]
  exact decide_eq_true (Nat.zero_le _)

theorem mulHi_one (x : Word) : mulHi x 1 = 0 := by
  have hlt := mulHi_lt x (n := 1) (by decide)
  exact BitVec.eq_of_toNat_eq (Nat.lt_one_iff.mp hlt)

/-- Settles O37: the first word is accepted and gives 0; without a word the keystream faults like any other time. -/
theorem uBoundOfOneTakesOneWord : Obligations.UBoundOfOneTakesOneWord := by
  intro src s hv hcur hone
  have hne : s.d.getD 0 0 ≠ 0 := by
    rw [hone]
    decide
  refine ⟨fun hdraw => ?_, ?_⟩
  · have hfirst := uBoundDeliversTheFirstAcceptedWord src s 0 hv hcur hne hdraw (fun j hj => absurd hj j.not_lt_zero)
    rw [hone] at hfirst
    rw [hfirst (accepted_one _), mulHi_one]
  · rintro rfl hleft
    exact (secureWordsEndWithTheCounter.1 s (.uBound .ks) hv hcur hleft
      (.inr (.inr (.inr (.inr (.inl ⟨rfl, hne⟩)))))).2

/-! ### Where the result lies -/

/-- The result of a sampler command that completes `OK` is one of the values it can deliver. -/
theorem SampleEnds.res {R : Word → Prop} (h : SampleEnds c src R s t) (hok : t.err = .ok) : R t.res := by
  rcases h with ⟨r, u, hr, -, rfl⟩ | ⟨u, -, -, -, rfl⟩
  · exact hr
  · cases hok

/-- Settles O36: the value is the upper half of a product with the bound. -/
theorem uBoundResultIsBelowTheBound : Obligations.UBoundResultIsBelowTheBound := by
  intro src s t h hok
  rw [exec_eq] at h
  rcases execWith_uBound_next config_sizesFit h with ⟨-, rfl⟩ | ⟨-, -, rfl⟩ | ⟨-, hne, hends⟩
  · cases hok
  · cases hok
  · obtain ⟨x, hres, -⟩ := hends.res hok
    rw [hres]
    exact mulHi_lt x hne

/-- R186: the wrapping difference is the true one. -/
theorem span_toNat (h : lo.toInt < hi.toInt) : ((hi - lo).toNat : Int) = hi.toInt - lo.toInt := by
  rw [BitVec.toInt_eq_toNat_cond, BitVec.toInt_eq_toNat_cond] at *
  rw [BitVec.toNat_sub]
  omega

/-- R187: the wrapping sum is the true one. -/
theorem add_toInt_mem_range (h : lo.toInt < hi.toInt) (hv : v.toNat < (hi - lo).toNat) :
    lo.toInt ≤ (lo + v).toInt ∧ (lo + v).toInt < hi.toInt := by
  have hspan := span_toNat h
  have hsum : (lo + v).toInt = lo.toInt + v.toNat := by
    have hhi := hi.toInt_lt
    rw [BitVec.toInt_eq_toNat_cond, BitVec.toNat_add]
    rw [BitVec.toInt_eq_toNat_cond lo] at *
    omega
  omega

/-- Settles O39: to `min` a value below the span is added. -/
theorem uRangeResultIsInTheRange : Obligations.URangeResultIsInTheRange := by
  intro src s t h hok
  rw [exec_eq] at h
  rcases execWith_uRange_next config_sizesFit h with ⟨-, rfl⟩ | ⟨-, -, rfl⟩ | ⟨-, hlt, hends⟩
  · cases hok
  · cases hok
  · obtain ⟨x, hres, -⟩ := hends.res hok
    rw [BitVec.slt_iff_toInt_lt] at hlt
    have hspan : s.data 1 - s.data 0 ≠ 0 := fun h0 => hlt.ne' (congrArg BitVec.toInt (sub_eq_zero.mp h0))
    rw [hres]
    exact add_toInt_mem_range hlt (mulHi_lt x hspan)

/-! ### One word -/

/-- R188. -/
theorem execWith_uF64_done (hv : seeded src s = true) (h : draw c src s = .done x u) :
    execWith c (.uF64 src) s = .next { u with res := f64Bits (x >>> 11), err := .ok, outcnt := 0 } := by
  rw [execWith, uF64, if_pos hv, h, Attempt.bind_done, finishResult, State.setRes_complete_ok]

/-- Bit 63 alone, as a number. -/
theorem topBit_eq_ite (x : Word) : (x.extractLsb' 63 1).setWidth 64 = if x.getLsbD 63 then 1#64 else 0 := by
  have hbit : x.extractLsb' 63 1 = BitVec.ofBool (x.getLsbD 63) := by
    ext i hi
    obtain rfl : i = 0 := by omega
    simp
  rw [hbit]
  cases x.getLsbD 63 <;> rfl

/-- R190. -/
theorem execWith_uBool_done (hv : seeded src s = true) (h : draw c src s = .done x u) :
    execWith c (.uBool src) s =
      .next { u with res := if x.getLsbD 63 then 1 else 0, err := .ok, outcnt := 0 } := by
  rw [execWith, uBool, if_pos hv, h, Attempt.bind_done, finishResult, State.setRes_complete_ok, topBit_eq_ite]
  rfl

/-- Settles O41: `draw_done`, of whose word `U.F64` takes the top 53 bits. -/
theorem uF64DeliversTheTop53Bits : Obligations.UF64DeliversTheTop53Bits := by
  intro src s hv hcur hdraw
  rw [exec_eq]
  exact execWith_uF64_done hv (draw_done config_sizesFit.1 config_sizesFit.2.1 hcur hdraw)

/-- Settles O43: `draw_done`, of whose word `U.BOOL` takes bit 63. -/
theorem uBoolDeliversTheTopBit : Obligations.UBoolDeliversTheTopBit := by
  intro src s hv hcur hdraw
  rw [exec_eq]
  exact execWith_uBool_done hv (draw_done config_sizesFit.1 config_sizesFit.2.1 hcur hdraw)

/-! ### Procedures that end -/

theorem Attempt.bind_ne_hung {α β : Type} {p : Attempt α} {f : α → State → Attempt β} (hp : p ≠ .hung)
    (hf : ∀ a s, f a s ≠ .hung) : p.bind f ≠ .hung := by
  cases p with
  | done a s => exact hf a s
  | raised why s => simp
  | hung => exact absurd rfl hp

theorem ksByte_ne_hung (c : Config) (s : State) : ksByte c s ≠ .hung := by
  rcases ksByte_cases c s with ⟨-, hr⟩ | ⟨-, -, hr⟩ | ⟨-, -, hr⟩ <;> simp [hr]

theorem ksBytes_ne_hung (c : Config) (k : Nat) : ∀ s, ksBytes c k s ≠ .hung := by
  induction k with
  | zero => simp
  | succ k ih =>
    intro s
    rw [ksBytes_succ]
    exact Attempt.bind_ne_hung (ksByte_ne_hung c s) fun b s1 => Attempt.bind_ne_hung (ih s1) (by simp)

theorem ksWord_ne_hung (c : Config) (s : State) : ksWord c s ≠ .hung :=
  Attempt.bind_ne_hung (ksBytes_ne_hung c 8 s) (by simp)

theorem draw_ne_hung (c : Config) (src : Src) (s : State) : draw c src s ≠ .hung := by
  cases src with
  | wg => simp [draw_wg]
  | ks => exact ksWord_ne_hung c s

theorem emit_ne_hung {next : State → Attempt Byte} (hnext : ∀ s, next s ≠ .hung) (k : Nat) :
    ∀ s, emit next k s ≠ .hung := by
  induction k with
  | zero => simp
  | succ k ih =>
    intro s
    rw [emit_succ]
    exact Attempt.bind_ne_hung (hnext s) fun b s1 => ih _

theorem nextChar_ne_hung (c : Config) (a : Alphabet) (s : State) : nextChar c a s ≠ .hung := by
  have htop : topUp c a s ≠ .hung := by
    unfold topUp
    split
    · exact Attempt.bind_ne_hung (ksByte_ne_hung c s) (by simp)
    · simp
  exact Attempt.bind_ne_hung htop (by simp)

theorem discardBits_ne_hung {p : Attempt Unit} (hp : p ≠ .hung) : discardBits p ≠ .hung := by
  cases p with
  | done a s => simp [discardBits]
  | raised why s => simp [discardBits]
  | hung => exact absurd rfl hp

/-- The loop over a keystream whose cursor is in its range: some word that can still be drawn is accepted, or none
is and the counter ends it (R192). -/
theorem boundSample_ks_ne_hung_of_cur_le (hc : c.SizesFit) (hcur : s.cur.toNat ≤ c.blockLen) :
    boundSample c .ks n s ≠ .hung := by
  classical
  by_cases hex : ∃ k, canDrawTo c .ks s k ∧ accepted n (comingDraw c .ks s k) = true
  · obtain ⟨hdraw, haccept⟩ := Nat.find_spec hex
    have hreject : ∀ j, j < Nat.find hex → accepted n (comingDraw c .ks s j) = false := fun j hj => by
      have hdraw' : 8 * (Nat.find hex + 1) ≤ bytesLeft c s := hdraw
      have hj' : canDrawTo c .ks s j := show 8 * (j + 1) ≤ bytesLeft c s by omega
      simpa [hj'] using Nat.find_min hex hj
    simp [boundSample_done hc hcur hdraw hreject haccept]
  · have hreject : ∀ k, canDrawTo c .ks s k → accepted n (comingDraw c .ks s k) = false := by
      simpa using hex
    simp [boundSample_raised hc hcur hreject]

/-- Below the counter's maximum an Exhausted machine draws the same wherever its cursor stands: the refill sets the
cursor (R153). -/
theorem draw_ks_withKs_of_exhausted {cur : BitVec 16} (hs : c.blockLen ≤ s.cur.toNat)
    (hcur : c.blockLen ≤ cur.toNat) (hne : s.ctr ≠ ctrMax) :
    draw c .ks (s.withKs s.buf cur s.ctr s.requests) = draw c .ks s := by
  have hbyte : ksByte c (s.withKs s.buf cur s.ctr s.requests) = ksByte c s := by
    rw [ksByte_refill hs hne]
    exact ksByte_refill hcur hne
  simp only [draw, ksWord, ksBytes_succ c 7, hbyte]

/-- R192: the loop over the keystream ends, whatever the cursor (log entry 8). -/
theorem boundSample_ks_ne_hung (hc : c.SizesFit) (n : Word) (s : State) : boundSample c .ks n s ≠ .hung := by
  by_cases hcur : s.cur.toNat ≤ c.blockLen
  · exact boundSample_ks_ne_hung_of_cur_le hc hcur
  have hs : c.blockLen ≤ s.cur.toNat := (Nat.not_le.mp hcur).le
  obtain ⟨f, hf⟩ : ∃ f, drawLimit = f + 1 := ⟨2 ^ 256 - 1, rfl⟩
  by_cases hmax : s.ctr = ctrMax
  · have hdraw : draw c .ks s = .raised .counterExhausted s := by
      rw [draw, ksWord, ksBytes_succ, ksByte_exhausted hs hmax]
      rfl
    rw [boundSample, hf, boundLoop_succ, hdraw]
    simp
  · have hend : (BitVec.ofNat 16 c.blockLen).toNat = c.blockLen := by
      rw [BitVec.toNat_ofNat, Nat.mod_eq_of_lt hc.2.1]
    have hloop := boundSample_ks_ne_hung_of_cur_le (n := n)
      (s := s.withKs s.buf (BitVec.ofNat 16 c.blockLen) s.ctr s.requests) hc hend.le
    rwa [boundSample, hf, boundLoop_succ, draw_ks_withKs_of_exhausted hs hend.ge hmax, ← boundLoop_succ,
      ← hf] at hloop

/-! ### Commands that complete -/

theorem completes_next (t : State) : Completes (.next t) := ⟨t, rfl⟩

theorem Completes.ite {p : Prop} [Decidable p] {a b : Host.Outcome State Fault Refusal} (ha : Completes a)
    (hb : Completes b) : Completes (if p then a else b) := by
  split
  · exact ha
  · exact hb

theorem finishResult_completes {p : Attempt Word} (hp : p ≠ .hung) : Completes (finishResult p) := by
  cases p with
  | done r u => exact completes_next _
  | raised why u => exact completes_next _
  | hung => exact absurd rfl hp

/-- A command that makes its result of one word or of one value of the loop. -/
theorem finishResult_bind_completes {p : Attempt Word} {f : Word → Word} (hp : p ≠ .hung) :
    Completes (finishResult (p.bind fun r s1 => .done (f r) s1)) :=
  finishResult_completes (Attempt.bind_ne_hung hp (by simp))

theorem finishOut_completes {p : Attempt Unit} (hp : p ≠ .hung) : Completes (finishOut s p) := by
  cases p with
  | done r u => exact completes_next _
  | raised why u => exact completes_next _
  | hung => exact absurd rfl hp

theorem txText_completes (c : Config) (alpha : BitVec 4) (s : State) : Completes (txText c alpha s) := by
  unfold txText
  split
  · exact completes_next _
  · next a _ =>
    have hloop := discardBits_ne_hung (emit_ne_hung (nextChar_ne_hung c a) (s.data 0).toNat (s.setAcc 0 0))
    exact .ite (.ite (completes_next _) (finishOut_completes hloop)) (completes_next _)

/-- R192, R293. -/
theorem execWith_completes (hc : c.SizesFit) {i : Instr} (hbound : i ≠ .uBound .wg) (hrange : i ≠ .uRange .wg)
    (hdigit : i ≠ .uDigit .wg) (s : State) : Completes (execWith c i s) := by
  cases i with
  | nop | clrerr | wgSeede | wgSeed | wgNext | wgJump | wgDrop | ksSeede | ksSeed | ksDrop =>
    exact completes_next _
  | ksNext => exact .ite (finishResult_completes (ksWord_ne_hung c s)) (completes_next _)
  | ksFill => exact .ite (finishOut_completes (emit_ne_hung (ksByte_ne_hung c) _ s)) (completes_next _)
  | uBound src =>
    cases src with
    | wg => exact absurd rfl hbound
    | ks =>
      exact .ite (.ite (completes_next _) (finishResult_completes (boundSample_ks_ne_hung hc _ s))) (completes_next _)
  | uRange src =>
    cases src with
    | wg => exact absurd rfl hrange
    | ks =>
      exact .ite (.ite (finishResult_bind_completes (boundSample_ks_ne_hung hc _ s)) (completes_next _))
        (completes_next _)
  | uF64 src => exact .ite (finishResult_bind_completes (draw_ne_hung c src s)) (completes_next _)
  | uBool src => exact .ite (finishResult_bind_completes (draw_ne_hung c src s)) (completes_next _)
  | uDigit src =>
    cases src with
    | wg => exact absurd rfl hdigit
    | ks => exact .ite (finishResult_bind_completes (boundSample_ks_ne_hung hc _ s)) (completes_next _)
  | txText alpha => exact txText_completes c alpha s

/-- Settles O46: `execWith_completes`, at every configuration and at the default one. -/
theorem onlyTheFastRejectionLoopCanHang : Obligations.OnlyTheFastRejectionLoopCanHang := by
  intro i s hbound hrange hdigit
  have hall : ∀ c : Config, c.SizesFit → Completes (execWith c i s) := fun c hc =>
    execWith_completes hc hbound hrange hdigit s
  exact ⟨exec_eq i s ▸ hall config config_sizesFit, hall⟩

end Sys2Proof.Machine
end

section
/-! The Text Encoder (43_text_encoder.md R211 to R217): what `TX.TEXT` writes when its bytes are there and when the
counter ends first, how many bits a text takes, and that texts that are equal were made of the same bits. The laws of
the command are stated for every configuration whose sizes fit. -/

namespace Sys2Proof.Machine

variable {c : Config} {a : Alphabet} {alpha : BitVec 4} {s s' t : State} {n : Nat}

/-! ### What `TX.TEXT` writes -/

/-- Past its checks `TX.TEXT` is the loop over the characters, begun and ended with an empty accumulator (R215). -/
theorem execWith_txText_of_minLen_le (ha : c.alphabets[alpha.toNat]? = some a) (hv : s.ksValid = true)
    (hmin : minLen a ≤ (s.data 0).toNat) :
    execWith c (.txText alpha) s =
      finishOut s (discardBits (emit (nextChar c a) (s.data 0).toNat (s.setAcc 0 0))) := by
  simp only [execWith, txText, alphabetOf, ha]
  rw [if_pos hv, if_neg hmin.not_gt]

/-- The leftover bits of a text are discarded (R44). -/
theorem textState_setAcc_zero (c : Config) (a : Alphabet) (s : State) (i : Nat) (o : List Byte) :
    (textState c a s i o).setAcc 0 0 = ((afterBytes c s (textBytes a i)).withOut o).setAcc 0 0 := rfl

/-- The characters the bytes left suffice for take every byte left: fewer than `BITS` bits, so less than a byte, are
left over (R215). -/
theorem textBytes_charsLeft (ha1 : 1 ≤ a.bits) (ha8 : a.bits ≤ 8) (s : State) :
    textBytes a (charsLeft c a s) = bytesLeft c s := by
  have hle : charsLeft c a s * a.bits ≤ 8 * bytesLeft c s := Nat.div_mul_le_self _ _
  have hlt : 8 * bytesLeft c s < charsLeft c a s * a.bits + a.bits := Nat.lt_div_mul_add ha1
  rw [textBytes]
  omega

/-- R215, R216: enough bytes are left. -/
theorem execWith_txText_done (hc : c.SizesFit) (ha : c.alphabets[alpha.toNat]? = some a) (hv : s.ksValid = true)
    (hcur : s.cur.toNat ≤ c.blockLen) (hmin : minLen a ≤ (s.data 0).toNat)
    (hleft : textBytes a (s.data 0).toNat ≤ bytesLeft c s) :
    execWith c (.txText alpha) s =
      .next ((((afterBytes c s (textBytes a (s.data 0).toNat)).withOut
        (s.out ++ (List.range (s.data 0).toNat).map (comingChar c a s))).setAcc 0 0).complete .ok
          (s.data 0).toNat) := by
  obtain ⟨-, ha8, -⟩ := alphabet_wellFormed hc ha
  rw [execWith_txText_of_minLen_le ha hv hmin, emit_nextChar_done hc.1 hc.2.1 hcur ha8 hleft, discardBits,
    textState_setAcc_zero]
  simp [finishOut, emitted]

/-- R215, R251: the counter ends first. -/
theorem execWith_txText_exhausted (hc : c.SizesFit) (ha : c.alphabets[alpha.toNat]? = some a) (hv : s.ksValid = true)
    (hcur : s.cur.toNat ≤ c.blockLen) (hmin : minLen a ≤ (s.data 0).toNat)
    (hleft : bytesLeft c s < textBytes a (s.data 0).toNat) :
    execWith c (.txText alpha) s =
      .next ((((afterBytes c s (bytesLeft c s)).withOut
        (s.out ++ (List.range (charsLeft c a s)).map (comingChar c a s))).setAcc 0 0).complete .counterExhausted
          (charsLeft c a s)) := by
  obtain ⟨ha1, ha8, -⟩ := alphabet_wellFormed hc ha
  rw [execWith_txText_of_minLen_le ha hv hmin, emit_nextChar_raised hc.1 hc.2.1 hcur ha1 ha8 hleft, discardBits,
    textState_setAcc_zero, textBytes_charsLeft ha1 ha8]
  simp [finishOut, emitted]

/-- Settles O47: `execWith_txText_done`, and its completion `OK`. -/
theorem txTextWritesTheText : Obligations.TxTextWritesTheText := by
  intro s alpha a ha hv hcur hmin hleft
  rw [exec_eq, execWith_txText_done config_sizesFit ha hv hcur hmin hleft, State.complete_ok_eq]
  simp [State.withOut, State.setAcc, State.data]

/-- Settles O48: `execWith_txText_exhausted`, and its completion `CounterExhausted`. -/
theorem txTextCutShortByTheCounter : Obligations.TxTextCutShortByTheCounter := by
  intro s alpha a ha hv hcur hmin hleft
  rw [exec_eq, execWith_txText_exhausted config_sizesFit ha hv hcur hmin hleft, State.complete_eq, State.setAcc_serr,
    State.withOut_serr, afterBytes_serr]
  simp [State.withOut, State.setAcc, Completion.sticky]

/-! ### The texts -/

/-- R217: a text that completes has the length asked for, in characters of its alphabet. -/
theorem execWith_txText_text (hc : c.SizesFit) (ha : c.alphabets[alpha.toNat]? = some a)
    (h : execWith c (.txText alpha) s = .next t) (hok : t.err = .ok) :
    ∃ text : List Byte, t.out = s.out ++ text ∧ text.length = (s.data 0).toNat ∧ ∀ b ∈ text, b ∈ a.chars := by
  rcases execWith_txText_next hc h with ⟨-, rfl⟩ | ⟨a', ha', ⟨-, rfl⟩ | ⟨-, -, rfl⟩ |
    ⟨-, -, ⟨text, u, ⟨hlen, hchars⟩, -, hmoved, rfl⟩ | ⟨text, u, -, -, -, rfl⟩⟩⟩
  · cases hok
  · cases hok
  · cases hok
  · obtain rfl : a' = a := Option.some.inj (ha'.symm.trans ha)
    exact ⟨text, hmoved.out_eq, hlen, hchars⟩
  · cases hok

/-- R213: a text of the minimum length or more takes `SECURITY_BITS` bits. -/
theorem securityBits_le_of_minLen_le (ha : a.WellFormed) (hn : minLen a ≤ n) : securityBits ≤ n * a.bits := by
  rw [minLen, ← Nat.ceilDiv_eq_add_pred_div, ceilDiv_le_iff_le_mul ha.1] at hn
  rwa [Nat.mul_comm]

/-- Characters that are equal were made of the same bits (R214, R217). -/
theorem comingBit_eq_of_comingChar_eq (ha : a.WellFormed) {i k : Nat}
    (h : comingChar c a s i = comingChar c a s' i) (hk : k < a.bits) :
    comingBit c s (i * a.bits + k) = comingBit c s' (i * a.bits + k) :=
  bitsValue_inj (char_inj ha (bitsValue_lt _ _ _) (bitsValue_lt _ _ _) h) k hk

/-- Bit `p` of a text is one of its character `p / BITS`. -/
theorem comingBit_eq_of_text_eq (ha : a.WellFormed)
    (h : (List.range n).map (comingChar c a s) = (List.range n).map (comingChar c a s')) {p : Nat}
    (hp : p < n * a.bits) : comingBit c s p = comingBit c s' p := by
  have hi : p / a.bits < n := Nat.div_lt_of_lt_mul (Nat.mul_comm n _ ▸ hp)
  have hchar : comingChar c a s (p / a.bits) = comingChar c a s' (p / a.bits) :=
    List.map_inj_left.mp h _ (List.mem_range.mpr hi)
  have hbit := comingBit_eq_of_comingChar_eq ha hchar (Nat.mod_lt p ha.1)
  rwa [Nat.div_add_mod'] at hbit

/-- Settles O50: the table stands in the configuration as R212 has it; the rest is of every configuration whose sizes
fit, or of every well-formed alphabet. -/
theorem textsHaveTheirLengthAndAlphabet : Obligations.TextsHaveTheirLengthAndAlphabet := by
  refine ⟨by decide, rfl, fun s t alpha a ha h hok => ?_, fun a n ha hn => securityBits_le_of_minLen_le ha hn,
    fun c a s s' n ha h p hp => comingBit_eq_of_text_eq ha h hp⟩
  rw [exec_eq] at h
  exact execWith_txText_text config_sizesFit ha h hok

end Sys2Proof.Machine
end

section
/-! The control commands (44_control.md R230, R231): all they write but the sticky mask that `CLRERR` clears is their
completion `OK`. -/

namespace Sys2Proof.Machine

/-- Settles O11: the completion `OK`, and nothing before it. -/
theorem nopWritesErrAndOutcntOnly : Obligations.NopWritesErrAndOutcntOnly := by
  refine ⟨by decide, fun s => ?_⟩
  rw [exec_eq, execWith_nop, State.complete_ok_eq]
  rfl

/-- Settles O12: the mask is cleared, and its completion `OK` sets no bit of it. -/
theorem clrerrClearsTheStickyMaskOnly : Obligations.ClrerrClearsTheStickyMaskOnly := by
  refine ⟨by decide, fun s => ?_⟩
  rw [exec_eq, execWith_clrerr, State.complete_ok_eq]
  rfl

end Sys2Proof.Machine
end

section
/-! The faults (60_exceptions.md R240 to R251): which checks a command fails before it does anything, and what a fault
leaves behind. A command that fails a check is its completion on the state it began in; the laws of the commands are
stated for every configuration. -/

namespace Sys2Proof.Machine

variable {c : Config} {i : Instr} {s t u : State} {src : Src} {why : Completion} {text : List Byte}

/-! ### Values that are no command -/

/-- R96, R247: what the decoder accepts is the encoding of a well-formed command. -/
theorem decodeWith_refuses_of_ne_encode {v : Word} (h : ∀ i : Instr, i.WellFormed c → v ≠ encode i) :
    ∃ e, decodeWith c v = .error e := by
  cases hd : decodeWith c v with
  | error e => exact ⟨e, rfl⟩
  | ok i => exact absurd (eq_encode_of_decodeWith hd) (h i (wellFormed_of_decodeWith hd))

/-- R26, R247: the value is latched, and then refused. -/
theorem stepWith_refused {v : Word} {rest : List HostAccess} {e : DecodeError}
    (h : s.inputs = .write 0 v :: rest) (hv : decodeWith c v = .error e) :
    stepWith c s = .next (((s.setInputs rest).latchCommand v).complete .illegalCommand 0) := by
  simp [stepWith, stepBy, serve, h, hv, illegalCommand]

/-- Settles O5: the decoder refuses the value, and the completion `IllegalCommand` is all that follows the latch. -/
theorem illegalCommandChangesOnlyStatus : Obligations.IllegalCommandChangesOnlyStatus := by
  intro s v rest h hv
  obtain ⟨e, he⟩ := decodeWith_refuses_of_ne_encode hv
  rw [step_eq, stepWith_refused h he]
  rfl

/-! ### Generators that are not seeded -/

/-- R95: the alphabet a well-formed `TX.TEXT` selects stands in the table. -/
theorem exists_alphabet_of_lt_nalpha {alpha : BitVec 4} (h : alpha.toNat < nalpha c) :
    ∃ a, c.alphabets[alpha.toNat]? = some a :=
  ⟨_, List.getElem?_eq_getElem h⟩

/-- R248, R249: the seeded check comes before every other, so what the operands are does not matter. -/
theorem execWith_of_unseeded (hi : i.WellFormed c) (hn : needs i = some src) (hv : seeded src s = false) :
    execWith c i s = .next (s.complete .notSeeded 0) := by
  have hne : ¬ seeded src s = true := by simp [hv]
  cases i with
  | nop | clrerr | wgSeede | wgSeed | wgDrop | ksSeede | ksSeed | ksDrop => cases hn
  | wgNext | wgJump => cases hn; exact congrArg Host.Outcome.next (if_neg hne)
  | ksNext | ksFill | uBound | uRange | uF64 | uBool | uDigit => cases hn; exact if_neg hne
  | txText alpha =>
    cases hn
    obtain ⟨a, ha⟩ := exists_alphabet_of_lt_nalpha hi
    simp only [execWith, txText, alphabetOf, ha]
    exact if_neg hne

/-- A sampler command past its checks delivers or exhausts the counter. -/
theorem SampleEnds.err_ne_notSeeded {R : Word → Prop} (h : SampleEnds c src R s t) : t.err ≠ .notSeeded := by
  rcases h with ⟨r, u, -, -, rfl⟩ | ⟨u, -, -, -, rfl⟩
  · exact nofun
  · exact nofun

/-- A sampler command whose seeded check is its only one. -/
theorem SampleEnds.unseeded_of_notSeeded {R : Word → Prop} {p : Prop}
    (h : seeded src s = false ∧ p ∨ seeded src s = true ∧ SampleEnds c src R s t) (herr : t.err = .notSeeded) :
    seeded src s = false := by
  rcases h with ⟨hv, -⟩ | ⟨-, hends⟩
  · exact hv
  · exact absurd herr hends.err_ne_notSeeded

/-- R248: of the endings of each command only the seeded check's has the code `NotSeeded`. -/
theorem unseeded_of_execWith_notSeeded (hc : c.SizesFit) (h : execWith c i s = .next t) (herr : t.err = .notSeeded) :
    ∃ src, needs i = some src ∧ seeded src s = false := by
  cases i with
  | nop | clrerr | wgSeed | wgDrop | ksSeed | ksDrop => cases h; cases herr
  | wgSeede => rcases execWith_wgSeede_next h with ⟨-, rfl⟩ | ⟨_, -, rfl⟩ <;> cases herr
  | ksSeede => rcases execWith_ksSeede_next h with ⟨-, rfl⟩ | ⟨_, -, rfl⟩ <;> cases herr
  | wgNext =>
    rcases execWith_wgNext_next h with ⟨hv, -⟩ | ⟨-, rfl⟩
    · exact ⟨_, rfl, hv⟩
    · cases herr
  | wgJump =>
    rcases execWith_wgJump_next h with ⟨hv, -⟩ | ⟨-, rfl⟩
    · exact ⟨_, rfl, hv⟩
    · cases herr
  | ksNext =>
    rcases execWith_ksNext_next hc h with ⟨hv, -⟩ | ⟨-, ⟨_, _, -, rfl⟩ | ⟨_, -, -, rfl⟩⟩
    · exact ⟨_, rfl, hv⟩
    all_goals cases herr
  | ksFill =>
    rcases execWith_ksFill_next hc h with ⟨hv, -⟩ | ⟨-, ⟨_, _, -, -, rfl⟩ | ⟨_, _, -, -, rfl⟩⟩
    · exact ⟨_, rfl, hv⟩
    all_goals cases herr
  | uBound =>
    rcases execWith_uBound_next hc h with ⟨hv, -⟩ | ⟨-, -, rfl⟩ | ⟨-, -, hends⟩
    · exact ⟨_, rfl, hv⟩
    · cases herr
    · exact absurd herr hends.err_ne_notSeeded
  | uRange =>
    rcases execWith_uRange_next hc h with ⟨hv, -⟩ | ⟨-, -, rfl⟩ | ⟨-, -, hends⟩
    · exact ⟨_, rfl, hv⟩
    · cases herr
    · exact absurd herr hends.err_ne_notSeeded
  | uF64 => exact ⟨_, rfl, SampleEnds.unseeded_of_notSeeded (execWith_uF64_next hc h) herr⟩
  | uBool => exact ⟨_, rfl, SampleEnds.unseeded_of_notSeeded (execWith_uBool_next hc h) herr⟩
  | uDigit => exact ⟨_, rfl, SampleEnds.unseeded_of_notSeeded (execWith_uDigit_next hc h) herr⟩
  | txText =>
    rcases execWith_txText_next hc h with ⟨-, rfl⟩ | ⟨a, -, ⟨hv, -⟩ | ⟨-, -, rfl⟩ |
      ⟨-, -, ⟨_, _, -, -, -, rfl⟩ | ⟨_, _, -, -, -, rfl⟩⟩⟩
    case inr.inl => exact ⟨_, rfl, hv⟩
    all_goals cases herr

/-- Settles O51: `execWith_of_unseeded`, and its converse, at the default configuration. -/
theorem unseededGeneratorsDeliverNothing : Obligations.UnseededGeneratorsDeliverNothing := by
  intro i s
  rw [exec_eq]
  exact ⟨fun src hi hn hv => execWith_of_unseeded hi hn hv,
    fun t h herr => unseeded_of_execWith_notSeeded config_sizesFit h herr⟩

/-! ### What a fault leaves behind -/

/-- R251: a fault other than `CounterExhausted` stops a command before it writes anything; at most it has asked for
entropy. -/
theorem Performed.stopped_frame (h : Performed c i s why text u) (hok : why ≠ .ok) (hne : why ≠ .counterExhausted) :
    text = [] ∧ u = { s with entropy := u.entropy, requests := u.requests } := by
  cases h with
  | stopped => exact ⟨rfl, rfl⟩
  | noEntropy => exact ⟨rfl, rfl⟩
  | spent => exact absurd rfl hne
  | filled _ _ _ hw => exact absurd hw (not_or.mpr ⟨hok, hne⟩)
  | texted _ _ _ _ hw => exact absurd hw (not_or.mpr ⟨hok, hne⟩)
  | _ => exact absurd rfl hok

theorem TextMoved.cur_le {keep : Prop} (h : TextMoved c keep text s t) (hcur : s.cur.toNat ≤ c.blockLen) :
    t.cur.toNat ≤ c.blockLen := by
  obtain ⟨_, _, _, hks, rfl, _⟩ := h
  exact hks.cur_le hcur

/-- R251: `CounterExhausted` is raised by a machine that is Exhausted with its counter at the maximum. -/
theorem Performed.exhausted (h : Performed c i s .counterExhausted text u) (hcur : s.cur.toNat ≤ c.blockLen) :
    u.cur.toNat = c.blockLen ∧ u.ctr = ctrMax := by
  have hends : Spent c u ∧ u.cur.toNat ≤ c.blockLen := by
    cases h with
    | stopped _ _ hne => exact absurd rfl hne
    | spent _ _ _ _ hs hu => exact ⟨hs, hu.cur_le hcur⟩
    | filled _ _ _ _ _ _ hs hu => exact ⟨hs rfl, hu.cur_le hcur⟩
    | texted _ _ _ _ _ _ _ hs _ hu => exact ⟨hs rfl, hu.cur_le hcur⟩
  obtain ⟨⟨hge, hctr⟩, hle⟩ := hends
  exact ⟨le_antisymm hle hge, hctr⟩

/-- Settles O52: `RES` goes with a delivered word only, the sticky bit is O54's, and the rest is `stopped_frame` and
`exhausted` with the completion after them. -/
theorem faultsArePrecise : Obligations.FaultsArePrecise := by
  intro i s t h hok
  have hclr : i ≠ .clrerr := by
    rintro rfl
    cases h
    exact hok rfl
  have hserr := stickyBitsStayUntilCleared i s t hclr h
  obtain ⟨why, text, u, hp, rfl⟩ := exec_performed h
  refine ⟨hp.res.resolve_right fun hres => hok hres.1, hserr, fun hne => ?_, ?_⟩
  · obtain ⟨rfl, hu⟩ := hp.stopped_frame hok hne
    rw [hu]
    rfl
  · rintro rfl hcur
    obtain ⟨hend, hctr⟩ := hp.exhausted hcur
    exact ⟨BitVec.eq_of_toNat_eq hend, hctr⟩

/-! ### Failed entropy requests -/

/-- R66. -/
theorem entropyAnswer_fail {rest : List EntropyAnswer} (h : s.entropy = .fail :: rest) (n : Nat) :
    entropyAnswer n s = none := by
  simp [entropyAnswer, h]

/-- R125, R242. -/
theorem execWith_wgSeede_failed (h : entropyAnswer 32 s = none) :
    execWith c .wgSeede s = .next ((s.noteEntropy 32).complete .entropyUnavailable 0) := by
  rw [execWith, wgSeede, h]

/-- R159, R242. -/
theorem execWith_ksSeede_failed (h : entropyAnswer (c.keyLen + c.nonceLen) s = none) :
    execWith c .ksSeede s = .next ((s.noteEntropy (c.keyLen + c.nonceLen)).complete .entropyUnavailable 0) := by
  rw [execWith, ksSeede, h]

/-- Settles O16: after the one request there is only the completion `EntropyUnavailable`. -/
theorem entropyFailureSeedsNothing : Obligations.EntropyFailureSeedsNothing := by
  intro s i n hi
  refine ⟨fun h => ?_, fun rest hfail => entropyAnswer_fail hfail n⟩
  rw [exec_eq]
  rcases hi with ⟨rfl, rfl⟩ | ⟨rfl, rfl⟩
  · exact execWith_wgSeede_failed h
  · exact execWith_ksSeede_failed h

/-! ### Operands that are refused -/

/-- R243. -/
theorem execWith_uBound_zero (hv : seeded src s = true) (h : s.data 0 = 0) :
    execWith c (.uBound src) s = .next (s.complete .invalidBound 0) := by
  rw [execWith, uBound, if_pos hv, if_pos h]

/-- R244. -/
theorem execWith_uRange_empty (hv : seeded src s = true) (h : (s.data 1).toInt ≤ (s.data 0).toInt) :
    execWith c (.uRange src) s = .next (s.complete .invalidRange 0) := by
  rw [execWith, uRange, if_pos hv, if_neg (mt BitVec.slt_iff_toInt_lt.mp h.not_gt)]

/-- Settles O40: past the seeded check, the check of the operands comes before the first draw. -/
theorem invalidOperandsDrawNoWord : Obligations.InvalidOperandsDrawNoWord := by
  intro src s hv
  rw [exec_eq, exec_eq]
  exact ⟨execWith_uBound_zero hv, execWith_uRange_empty hv⟩

/-- R245. -/
theorem execWith_txText_of_lt_minLen {alpha : BitVec 4} {a : Alphabet} (ha : c.alphabets[alpha.toNat]? = some a)
    (hv : s.ksValid = true) (h : (s.data 0).toNat < minLen a) :
    execWith c (.txText alpha) s = .next (s.complete .lengthTooShort 0) := by
  simp only [execWith, txText, alphabetOf, ha]
  rw [if_pos hv, if_pos h]

/-- R213: the minimum lengths of the default alphabets. -/
theorem minLen_config : config.alphabets.map minLen = [32, 32, 26, 22] := by decide

/-- Settles O49: the length is compared with the selected alphabet's minimum before the loop over the characters. -/
theorem shortTextsAreRefused : Obligations.ShortTextsAreRefused := by
  intro s alpha halpha hv hlen
  obtain ⟨a, ha⟩ := exists_alphabet_of_lt_nalpha (c := config) halpha
  have hmin : [32, 32, 26, 22].getD alpha.toNat 0 = minLen a := by
    simp [← minLen_config, ha]
  rw [exec_eq]
  exact execWith_txText_of_lt_minLen ha hv (hmin ▸ hlen)

end Sys2Proof.Machine
end

section
/-! Reset and the one hazard of a command (70_reset_and_hazards.md R280, R281, R289): what the reset input leaves, and
when the rejection loop of the fast path never ends. The laws of a step and of a command are stated for every
configuration. -/

namespace Sys2Proof.Machine

variable {c : Config} {i : Instr} {s : State}

/-! ### The reset input -/

/-- R281: the input is taken, and then the block is reset. -/
theorem stepWith_reset {rest : List HostAccess} (h : s.inputs = .reset :: rest) :
    stepWith c s = .next ((s.setInputs rest).resetInput c) := by
  simp [stepWith, stepBy, serve, h]

/-- Settles O10: `stepWith_reset` at the default configuration, whose reset state is `State.reset`. -/
theorem resetInputRestoresTheResetState : Obligations.ResetInputRestoresTheResetState := by
  intro s rest h
  rw [step_eq, stepWith_reset h]
  rfl

/-! ### The rejection loop of the fast path -/

theorem finishResult_hangs_iff {p : Attempt Word} :
    finishResult p = .fault .rejectionLoopNeverEnds ↔ p = .hung := by
  cases p with
  | done r u => simp [finishResult]
  | raised why u => simp [finishResult]
  | hung => simp [finishResult]

/-- What is made of a procedure's value does not change whether the procedure returns. -/
theorem Attempt.bind_done_eq_hung_iff {α β : Type} {p : Attempt α} {f : α → β} :
    (p.bind fun a u => .done (f a) u) = .hung ↔ p = .hung :=
  ⟨not_imp_not.mp fun hp => Attempt.bind_ne_hung hp (by simp), by rintro rfl; rfl⟩

/-- A hang of the loop is the command's, and it has no other (R289). -/
theorem LoopsFor.hangs_iff {src : Src} {n : Word} (hi : LoopsFor src i s n) (hv : seeded src s = true) :
    execWith c i s = .fault .rejectionLoopNeverEnds ↔ boundSample c src n s = .hung := by
  rcases hi with ⟨rfl, rfl, hne⟩ | ⟨rfl, rfl, hlt⟩ | ⟨rfl, rfl⟩
  · rw [execWith, uBound, if_pos hv, if_neg hne, finishResult_hangs_iff]
  · rw [execWith, uRange, if_pos hv, if_pos (BitVec.slt_iff_toInt_lt.mpr hlt), finishResult_hangs_iff,
      Attempt.bind_done_eq_hung_iff]
  · rw [execWith, uDigit, if_pos hv, finishResult_hangs_iff, Attempt.bind_done_eq_hung_iff]

/-- R289, R192: the fuel of the loop bounds nothing, so a command hangs only for want of an acceptable word. -/
theorem LoopsFor.hangs_iff_forall_rejected {n : Word} (hi : LoopsFor .wg i s n) (hv : s.wgValid = true) :
    execWith c i s = .fault .rejectionLoopNeverEnds ↔ ∀ k, accepted n (wgWord c s.wg k) = false :=
  (hi.hangs_iff hv).trans boundSample_wg_hung_iff

/-- Settles O45: each of the three commands, past its checks, is one of those that loop for its bound. -/
theorem uBoundHangsOnlyWhenNoWordIsAccepted : Obligations.UBoundHangsOnlyWhenNoWordIsAccepted := by
  intro s hv
  rw [exec_eq, exec_eq, exec_eq]
  have hbound (hne : s.data 0 ≠ 0) : LoopsFor .wg (.uBound .wg) s (s.data 0) := .inl ⟨rfl, rfl, hne⟩
  have hrange (hlt : (s.data 0).toInt < (s.data 1).toInt) :
      LoopsFor .wg (.uRange .wg) s (s.data 1 - s.data 0) := .inr (.inl ⟨rfl, rfl, hlt⟩)
  have hdigit : LoopsFor .wg (.uDigit .wg) s 10 := .inr (.inr ⟨rfl, rfl⟩)
  exact ⟨fun hne => (hbound hne).hangs_iff_forall_rejected hv, fun hlt => (hrange hlt).hangs_iff_forall_rejected hv,
    hdigit.hangs_iff_forall_rejected hv⟩

end Sys2Proof.Machine
end
